-- ==== Sys2Proof/Word.lean ====
section
/-! DEFINITION. The two word types of the block's interface (00_scope.md R9, R12; 30_encoding.md R60). -/

namespace Sys2Proof

/-- A byte is 8 bits (R9; GK1 of 93_implementation_defined.md). Bit 0 is the least significant (R12). -/
abbrev Byte := BitVec 8

/-- A command word of format CMD11 (R60). -/
abbrev Cmd := BitVec 11

end Sys2Proof
end

