-- ==== Sys2Proof/Syntax.lean ====
section
/-! DEFINITION. The operations of the block (30_encoding.md R57), who may be named in a program, and the
programs of the agents (R69 to R71). Syntax only: what anything does stands in Machine/. -/

namespace Sys2Proof

/-- The five operations, one constructor per row of opcode_table.json (R57). A decoded operation carries
the operand byte of INSERT and nothing else: every other operation ignores its data bits (R62). -/
inductive Instr where
  | init
  | isEmpty
  | isFull
  | insert (b : Byte)
  | remove
  deriving DecidableEq, Repr

/-- The names of instances: the two of the original system (00_scope.md R10), `in` and `out` in R69, and names
for the instances of any other system (R11). -/
inductive InstName where
  | inbound
  | outbound
  | other (n : Nat)
  deriving DecidableEq, Repr

/-- The three roles of one instance; the port a command arrives on is the identity of its agent
(R59; 60_exceptions.md R110). -/
inductive Agent where
  | owner
  | producer
  | consumer
  deriving DecidableEq, Repr

/-- The execution contexts that hold the roles (60_exceptions.md R111): the setup code, the Serial
Transport's byte-received context (`rx`) and transmit-ready context (`tx`), and the Control Loop; and, for any
other system (00_scope.md R11), contexts of the main control flow and interrupt-like ones (R16). -/
inductive Context where
  | setup
  | rx
  | tx
  | loop
  | mainFlow (n : Nat)
  | interrupt (n : Nat)
  deriving DecidableEq, Repr

/-- A name of an agent's program. A number stands for the name's spelling (R69; DESIGN CHOICE, log 16). -/
abbrev Var := Nat

/-- A Boolean expression over bound names (R69). A name counts as true when bit 0 of the response bound
to it is 1, which is where a flag response holds its flag (R63; DEDUCED, log 13). -/
inductive Expr where
  | var (x : Var)
  | not (e : Expr)
  | and (e f : Expr)
  | or (e f : Expr)
  deriving DecidableEq, Repr

/-- The rest of an agent's program, in the shape of R69: a command line on one port of one instance,
which may bind its response; `if` and `while`; the result of a pseudo-instruction (R71, `ok = !f`); and
the three Serial Transport actions of 60_exceptions.md R115 to R117, which have no command word. A
command is held as its word, so a program can also spell the reserved words and the words whose ignored
bits are not zero. -/
inductive Prog where
  | done
  | command (k : InstName) (a : Agent) (w : Cmd) (bind : Option Var) (rest : Prog)
  | ifThen (e : Expr) (yes no rest : Prog)
  | whileDo (e : Expr) (body rest : Prog)
  | assign (x : Var) (e : Expr) (rest : Prog)
  | rearmTx (rest : Prog)
  | disarmTx (rest : Prog)
  | transmit (x : Var) (rest : Prog)
  deriving DecidableEq, Repr

/-- The pseudo-instructions of R71. The first four are the Control Loop's calls. -/
inductive Pseudo where
  | canWrite (ok : Var)
  | write (b : Byte)
  | canRead (ok : Var)
  | read (v : Var)
  | tryInsert (k : InstName) (b : Byte) (ok : Var)
  | tryRemove (k : InstName) (ok v : Var)
  deriving DecidableEq, Repr

/-- The mnemonics an assembler line may hold (R69). -/
inductive Mnemonic where
  | init
  | isEmpty
  | isFull
  | insert
  | remove
  deriving DecidableEq, Repr

/-- The three forms of an immediate (R70). -/
inductive Imm where
  | hex (n : Nat)
  | dec (n : Nat)
  | chr (c : Char)
  deriving DecidableEq, Repr

/-- One command line of R69: `[<inst>.]<role>: <MNEMONIC> [<imm8>] [-> <name>]`. -/
structure Line where
  inst     : Option InstName
  role     : Agent
  mnemonic : Mnemonic
  imm      : Option Imm
  bind     : Option Var
  deriving DecidableEq, Repr

/-- What may come next in a run (20_memory.md R50; 60_exceptions.md R114, R115): a context takes its next
step, or the Serial Transport raises one of its two notifications. -/
inductive Move where
  | run (c : Context)
  | byteReceived (b : Byte)
  | transmitReady
  deriving DecidableEq, Repr

end Sys2Proof
end

