-- ==== Sys2Proof/Config.lean ====
section
/-! DEFINITION. What is fixed when a system is built (00_scope.md R7, R11; 60_exceptions.md R111) and the
free values of the spec: draws (00_scope.md R14), the power-on values of R39 and the order of steps (20_memory.md
R50). An `opaque` constant has no value that Lean can see, so a claim holds for every value of it (DESIGN CHOICE,
log 1, log 2, log 3, log 19: the form in which the model leaves these values open). -/

namespace Sys2Proof

/-- A capacity is held as its predecessor, so that C = 0 cannot be written: the spec refuses it as a
configuration (R7, D2). -/
structure Capacity where
  pred : Nat
  deriving DecidableEq, Repr

/-- The number C of byte slots, C ≥ 1 (R7). -/
def Capacity.size (c : Capacity) : Nat := c.pred + 1

@[simp] theorem Capacity.size_pos (c : Capacity) : 0 < c.size := Nat.succ_pos _

/-- C - 1 of each instance of the original system: the open parameter of D2, a free value (U9, U18). -/
opaque Config.capacityPred : InstName → Nat

/-- The capacity of each instance of the original system, "fixed at construction/compile time" (R7). -/
def Config.capacity (k : InstName) : Capacity := ⟨Config.capacityPred k⟩

/-- The draws of R14, numbered in the order in which steps take them: a free value each. -/
opaque Config.draw : Nat → Byte

/-- The power-on values of head, tail and count are draws (R39, U5): free values, brought into their
ranges by the state that uses them. -/
opaque Config.powerOnHead : InstName → Nat
opaque Config.powerOnTail : InstName → Nat
opaque Config.powerOnCount : InstName → Nat

/-- Which context goes next where the schedule does not say: any interleaving is admitted (20_memory.md R50), so
the choice is a free value, numbered in the order in which choices are made (log 19). -/
opaque Config.nextContext : Nat → Nat

/-! ### Systems -/

/-- The contexts that hold the three roles of one instance, exactly one each (60_exceptions.md R110, R111). -/
structure Roles where
  owner    : Context
  producer : Context
  consumer : Context
  deriving DecidableEq, Repr

def Roles.holder (r : Roles) : Agent → Context
  | .owner => r.owner
  | .producer => r.producer
  | .consumer => r.consumer

/-- The instances of a system and the contexts that hold their roles, fixed when the system is built
(60_exceptions.md R111). N_INST (00_scope.md R11) is the length of the list. -/
abbrev Wiring := List (InstName × Roles)

def Wiring.names (y : Wiring) : List InstName := y.map Prod.fst

/-- The context that holds a role, where the system has the instance. -/
def Wiring.holder? (y : Wiring) (k : InstName) (a : Agent) : Option Context :=
  match y with
  | [] => none
  | p :: rest => if p.1 = k then some (p.2.holder a) else Wiring.holder? rest k a

/-- Whether a context holds a role of an instance. -/
def Wiring.holds (y : Wiring) (c : Context) (k : InstName) (a : Agent) : Bool :=
  decide (y.holder? k a = some c)

/-- What a system takes for one instance: its name, its C and the holders of its roles (00_scope.md R11;
60_exceptions.md R111). -/
structure InstanceParams where
  name  : InstName
  cap   : Capacity
  roles : Roles
  deriving DecidableEq, Repr

/-- The parameters of a system model: N_INST, the length of the list, and one C per instance (00_scope.md R11). -/
abbrev System := List InstanceParams

def System.wiring (y : System) : Wiring := y.map fun p => (p.name, p.roles)

/-- Every context that holds a role, once. -/
def System.contexts (y : System) : List Context :=
  y.foldr (fun p l => p.roles.owner :: p.roles.producer :: p.roles.consumer :: l) [] |>.eraseDups

/-- The system of the original firmware: N_INST = 2 (00_scope.md R10), its roles held as the table of
60_exceptions.md R111 says. -/
def Config.original : System :=
  [⟨.inbound, Config.capacity .inbound, ⟨.setup, .rx, .loop⟩⟩,
   ⟨.outbound, Config.capacity .outbound, ⟨.setup, .loop, .tx⟩⟩]

end Sys2Proof
end

