-- ==== Sys2Proof/WellFormed.lean ====
section
/-! DEFINITION. The checks on what a program may be written with. An `Instr` needs no check: its one
operand is a byte by type (30_encoding.md R62), so every `Instr` is well formed. What can be ill formed is
an assembler line (R69, R70, R63), a context's program (60_exceptions.md R111; 70_reset_and_hazards.md R131) and a
system (60_exceptions.md R111). -/

namespace Sys2Proof

/-- The number an immediate denotes: a quoted character means its ASCII code (R70). -/
def Imm.value : Imm → Nat
  | .hex n => n
  | .dec n => n
  | .chr c => c.toNat

/-- An immediate's value must lie in 0 to 255 (R70), and only an ASCII character has an ASCII code (PRESUMED,
log 16; GK2 of 93_implementation_defined.md). -/
def Imm.wellFormed : Imm → Bool
  | .hex n => decide (n ≤ 255)
  | .dec n => decide (n ≤ 255)
  | .chr c => decide (c.toNat ≤ 127)

/-- INSERT takes a byte and no other operation has an operand (R57). -/
def Line.immOk (l : Line) : Bool :=
  match l.mnemonic, l.imm with
  | .insert, some i => i.wellFormed
  | .insert, none => false
  | .init, none => true
  | .isEmpty, none => true
  | .isFull, none => true
  | .remove, none => true
  | .init, some _ => false
  | .isEmpty, some _ => false
  | .isFull, some _ => false
  | .remove, some _ => false

/-- A response may be bound only where there is one: an agent must not read the response of INIT or
INSERT (R63). -/
def Line.bindOk (l : Line) : Bool :=
  match l.mnemonic with
  | .init => l.bind.isNone
  | .insert => l.bind.isNone
  | .isEmpty => true
  | .isFull => true
  | .remove => true

/-- The instance a line is for, in a system with the instances `names`: the one it names, which may be left out
when there is one instance (R69). -/
def Line.target (names : List InstName) (l : Line) : Option InstName :=
  match l.inst, names with
  | some k, _ => if k ∈ names then some k else none
  | none, [k] => some k
  | none, [] => none
  | none, _ :: _ :: _ => none

def Line.instOk (names : List InstName) (l : Line) : Bool := (l.target names).isSome

/-- A well-formed command line of R69 and R70 for a system with the instances `names`. -/
def Line.wellFormed (names : List InstName) (l : Line) : Bool := l.instOk names && l.immOk && l.bindOk

/-- Every command of the program is on a port whose role the context holds (60_exceptions.md R111). -/
def Prog.onHeldPorts (y : Wiring) (c : Context) : Prog → Bool
  | .done => true
  | .command k a _ _ rest => y.holds c k a && rest.onHeldPorts y c
  | .ifThen _ yes no rest => yes.onHeldPorts y c && no.onHeldPorts y c && rest.onHeldPorts y c
  | .whileDo _ body rest => body.onHeldPorts y c && rest.onHeldPorts y c
  | .assign _ _ rest => rest.onHeldPorts y c
  | .rearmTx rest => rest.onHeldPorts y c
  | .disarmTx rest => rest.onHeldPorts y c
  | .transmit _ rest => rest.onHeldPorts y c

/-- The program has no loop, so it cannot poll. -/
def Prog.loopFree : Prog → Bool
  | .done => true
  | .command _ _ _ _ rest => rest.loopFree
  | .ifThen _ yes no rest => yes.loopFree && no.loopFree && rest.loopFree
  | .whileDo _ _ _ => false
  | .assign _ _ rest => rest.loopFree
  | .rearmTx rest => rest.loopFree
  | .disarmTx rest => rest.loopFree
  | .transmit _ rest => rest.loopFree

/-- The contexts that preempt the main control flow and must not block (00_scope.md R16; R113). -/
def Context.interruptLike : Context → Bool
  | .setup => false
  | .rx => true
  | .tx => true
  | .loop => false
  | .mainFlow _ => false
  | .interrupt _ => true

/-- A well-formed program of a context: commands only on ports it holds (R111), and no polling in an
interrupt-like context (70_reset_and_hazards.md R131). -/
def Prog.wellFormed (y : Wiring) (c : Context) (p : Prog) : Bool :=
  p.onHeldPorts y c && (!c.interruptLike || p.loopFree)

/-- Instances have different names. -/
def System.namesOk (y : System) : Bool := decide (y.map fun p => p.name).Nodup

/-- The producer side of an instance is one call path and its consumer side another (60_exceptions.md R111). -/
def System.rolesOk (y : System) : Bool := y.all fun p => decide (p.roles.producer ≠ p.roles.consumer)

/-- A well-formed system. That each role has exactly one holder (R110) and each C is at least 1 (00_scope.md R7)
cannot be written otherwise. -/
def System.wellFormed (y : System) : Bool := y.namesOk && y.rolesOk

end Sys2Proof
end

