-- ==== Sys2Proof/Decode.lean ====
section
/-! DEFINITION. Decoding command words (30_encoding.md R60 to R66), and after it the encoder and the
assembler of one command line (R69 to R72). -/

namespace Sys2Proof

/-- The field `op` = w[10:8] (R60). -/
def opField (w : Cmd) : BitVec 3 := w.extractLsb' 8 3

/-- The field `data` = w[7:0] (R60), INSERT's operand byte taken as given (R62). -/
def dataField (w : Cmd) : Byte := w.extractLsb' 0 8

/-- Why a word spells no operation: its `op` field is one of the reserved ones (R65). -/
inductive DecodeError where
  | reservedOpcode (op : BitVec 3)
  deriving DecidableEq, Repr

/-- Op ∪ {Invalid} of R64. -/
inductive Decoded where
  | op (i : Instr)
  | invalid (e : DecodeError)
  deriving DecidableEq, Repr

/-- Decode (R64, R61): total on every 11-bit word; it reads `op` to choose and `data` only for INSERT. -/
def decode (w : Cmd) : Decoded :=
  if opField w = 0b001#3 then .op .init
  else if opField w = 0b010#3 then .op .isEmpty
  else if opField w = 0b011#3 then .op .isFull
  else if opField w = 0b100#3 then .op (.insert (dataField w))
  else if opField w = 0b101#3 then .op .remove
  else .invalid (.reservedOpcode (opField w))

/-- The canonical word of an operation (R72): ignored data bits are zero, and INSERT b is 0x400 | b. -/
def encode : Instr → Cmd
  | .init => 0x100#11
  | .isEmpty => 0x200#11
  | .isFull => 0x300#11
  | .insert b => 0x400#11 ||| b.setWidth 11
  | .remove => 0x500#11

/-- The command word the ports carry of a number `w` whose bits are numbered as opcode_table.json numbers
them: bits at or above `nbits` are not there, and bits above bit 10 do not exist on the ports
(95_test_vectors.md L2.1; R60). -/
def tableWord (nbits w : Nat) : Cmd := BitVec.ofNat 11 (w % 2 ^ nbits)

/-- What the decoder reads from a word numbered as opcode_table.json numbers it. -/
def decodeTableWord (nbits w : Nat) : Option Instr :=
  match decode (tableWord nbits w) with
  | .op i => some i
  | .invalid _ => none

/-- The operation a well-formed line names, with its operand (R69, R70). -/
def Line.instr (l : Line) : Option Instr :=
  if l.immOk then
    match l.mnemonic, l.imm with
    | .init, _ => some .init
    | .isEmpty, _ => some .isEmpty
    | .isFull, _ => some .isFull
    | .insert, some i => some (.insert (BitVec.ofNat 8 i.value))
    | .insert, none => none
    | .remove, _ => some .remove
  else none

/-- Assembling one command line in front of the rest of a program: the canonical word of its operation on
the port it is for, in a system with the instances `names` (R69, R70, R72). An ill-formed line is refused. -/
def Line.assemble (names : List InstName) (l : Line) (rest : Prog) : Option Prog :=
  match l.wellFormed names, l.target names, l.instr with
  | true, some k, some i => some (.command k l.role (encode i) l.bind rest)
  | _, _, _ => none

end Sys2Proof
end

