-- ==== Sys2Proof/Machine/State.lean ====
section
/-! DEFINITION. The state of the machine as plain data, and the state at power-on. `Block` is the record of
10_state.md R20; `State` is a system of N_INST blocks (00_scope.md R10, R11) with its ports (30_encoding.md R59)
and its contexts (60_exceptions.md R111). -/

namespace Sys2Proof.Machine

/-- The slot array of one instance (10_state.md R20, R21): (slot, byte) pairs with strictly rising slots. A
slot not listed is `none`: nothing has written it since power-on (log 14). -/
abbrev Memory := List Host.Cell

/-- The fault causes (60_exceptions.md R99). -/
inductive Cause where
  | reservedOpcode
  | roleViolation
  | notInitialized
  | insertWhenFull
  | removeWhenEmpty
  deriving DecidableEq, Repr

/-- One record of the fault log (60_exceptions.md R98). -/
structure FaultRecord where
  cause : Cause
  agent : Agent
  word  : Cmd
  count : Option Nat
  deriving DecidableEq, Repr

/-- One instance: the record of 10_state.md R20 with its capacity (00_scope.md R7). -/
structure Block where
  cap      : Capacity
  storage  : Memory
  head     : Fin cap.size
  tail     : Fin cap.size
  count    : Fin (cap.size + 1)
  initDone : Bool
  faults   : List FaultRecord
  deriving DecidableEq, Repr

/-- C of an instance. -/
abbrev Block.size (x : Block) : Nat := x.cap.size

/-- The response last returned on each port of one instance, `none` where the last operation there
produced none (30_encoding.md R59, R63). The Owner's port has no response pins: its entry is the response
R107 returns, which no pin shows (DESIGN CHOICE, log 6). -/
structure Responses where
  owner    : Option Byte
  producer : Option Byte
  consumer : Option Byte
  deriving DecidableEq, Repr

/-- One transaction: the instance, the port it is on, and the word presented (30_encoding.md R58, R59). -/
structure Txn where
  inst  : InstName
  agent : Agent
  word  : Cmd
  deriving DecidableEq, Repr

/-- A context: the responses bound to names of its program, and the rest of its program (R69). -/
structure CtxState where
  env  : List (Var × Byte)
  prog : Prog
  deriving DecidableEq, Repr

/-- A system: its instances and their holders (`wiring`, which nothing writes), a block and the responses on its
ports for each instance, a state for each context, and all else that 30_encoding.md and 60_exceptions.md give
them. `draws` and `picks` are the model's own: the numbers of free values taken (log 3, log 19). -/
structure State where
  wiring   : Wiring
  blocks   : List (InstName × Block)
  resps    : List (InstName × Responses)
  txn      : Txn
  txArmed  : Bool
  wire     : List Byte
  ctxs     : List (Context × CtxState)
  schedule : List Move
  draws    : Nat
  picks    : Nat
  deriving DecidableEq, Repr

/-- Why a step stops with a fault of the MODEL. The faults of the spec are records in a log and stop nothing
(60_exceptions.md R97, R109), so no instruction raises one of these. -/
inductive Fault where
  /-- Raised by the step of a context whose next action reads a name to which no response is bound
  (30_encoding.md R63: "an agent must not read one"). SAFE: the spec gives such a read no meaning, and the
  commands before it have completed (log 10). -/
  | unboundName
  deriving DecidableEq, Repr

/-- Why a step is refused. -/
inductive Refusal where
  /-- Raised by an arm of exec whose instruction has no meaning yet; no arm does. SAFE. -/
  | notModelled (mnemonic : String)
  /-- Raised by the step of a context that issues a command on a port whose role it does not hold: a system in
  which two contexts share a role is refused (70_reset_and_hazards.md R125; U8). SAFE (log 7). -/
  | roleNotHeld
  deriving DecidableEq, Repr

/-- One instance at power-on (10_state.md R39): not initialised, nothing written, no fault recorded; head,
tail and count are draws, here free constants within their ranges (DESIGN CHOICE, log 2). -/
def Block.powerOn (k : InstName) (c : Capacity) : Block where
  cap      := c
  storage  := []
  head     := ⟨Config.powerOnHead k % c.size, Nat.mod_lt _ c.size_pos⟩
  tail     := ⟨Config.powerOnTail k % c.size, Nat.mod_lt _ c.size_pos⟩
  count    := ⟨Config.powerOnCount k % (c.size + 1), Nat.mod_lt _ (Nat.succ_pos _)⟩
  initDone := false
  faults   := []

/-- No response on any port yet (DESIGN CHOICE, log 5). -/
def Responses.empty : Responses := ⟨none, none, none⟩

/-- A context with no program and no bound name. -/
def CtxState.idle : CtxState := ⟨[], .done⟩

/-- The instance that the transaction field names at power-on: the first (DESIGN CHOICE, log 5). -/
def firstInstance (y : System) : InstName :=
  match y with
  | [] => .inbound
  | p :: _ => p.name

/-- A system at power-on, for any N_INST and any C of each instance (00_scope.md R11; 10_state.md R39;
70_reset_and_hazards.md R121). `txArmed` is 0, which the spec leaves open at power-on (60_exceptions.md R116;
DESIGN CHOICE, log 12). The other fields are empty: no transaction has completed and no program is loaded (DESIGN
CHOICE, log 5, log 8). -/
def State.powerOn (y : System) : State where
  wiring   := y.wiring
  blocks   := y.map fun p => (p.name, Block.powerOn p.name p.cap)
  resps    := y.map fun p => (p.name, Responses.empty)
  txn      := ⟨firstInstance y, .owner, 0x000#11⟩
  txArmed  := false
  wire     := []
  ctxs     := y.contexts.map fun c => (c, CtxState.idle)
  schedule := []
  draws    := 0
  picks    := 0

/-- The machine right after reset: the original system (00_scope.md R10) at power-on. -/
def State.reset : State := State.powerOn Config.original

end Sys2Proof.Machine
end

