-- ==== Sys2Proof/Machine/Flags.lean ====
section
/-! DEFINITION. The two flags, functions of `count` and no stored bits (10_state.md R30, R31), and the flag
response (30_encoding.md R63). -/

namespace Sys2Proof.Machine

/-- `empty(s) = (s.count = 0)` (R30). -/
def emptyFlag (x : Block) : Bool := decide (x.count.val = 0)

/-- `full(s) = (s.count = C)` (R31). -/
def fullFlag (x : Block) : Bool := decide (x.count.val = x.size)

/-- `resp = zext_8(flag)` (R63). -/
def flagResp (f : Bool) : Byte := (BitVec.ofBool f).setWidth 8

/-- The flag an agent reads in a response: `resp[0]` (R63). -/
def respFlag (r : Byte) : Bool := r.getLsbD 0

end Sys2Proof.Machine
end

