-- ==== Sys2Proof/Machine/Operands.lean ====
section
/-! DEFINITION. The operands: the byte of INSERT comes from the word (Decode.lean, 30_encoding.md R62); the
slot an operation touches and the next index are chosen by the block (20_memory.md R40); the response
kind belongs to the operation (30_encoding.md R63). -/

namespace Sys2Proof.Machine

/-- The slot INSERT writes: always the slot `tail` (10_state.md R21). -/
def insertSlot (x : Block) : Nat := x.tail.val

/-- The slot REMOVE reads: always the slot `head` (10_state.md R21). -/
def removeSlot (x : Block) : Nat := x.head.val

/-- `(i + 1) mod C`, the sum taken in unbounded integers (00_scope.md R12). -/
def nextIndex (x : Block) (i : Fin x.size) : Fin x.size :=
  ⟨(i.val + 1) % x.size, Nat.mod_lt _ x.cap.size_pos⟩

/-- The three kinds of response (R63). -/
inductive RespKind where
  | none
  | flag
  | byte
  deriving DecidableEq, Repr

/-- Each operation has one response kind (R63). -/
def respKind : Instr → RespKind
  | .init => .none
  | .isEmpty => .flag
  | .isFull => .flag
  | .insert _ => .none
  | .remove => .byte

end Sys2Proof.Machine
end

