-- ==== Sys2Proof/Machine/Ops.lean ====
section
/-! DEFINITION. The named operations over slots, blocks, ports and contexts, and raising a fault: the one
shared operation of 60_exceptions.md R97 and R107. The block has no trap and so no return from one (R109). -/

namespace Sys2Proof.Machine

/-! ### The slot array -/

/-- `MemRead(i, 1)` (00_scope.md R13): `none` where nothing has written slot `i` since power-on. -/
def Memory.read : Memory → Nat → Option Byte
  | [], _ => none
  | c :: m, i => if c.1 = i then some c.2 else Memory.read m i

/-- `MemWrite(i, 1, v)` (00_scope.md R13), keeping the slots strictly rising. -/
def Memory.write : Memory → Nat → Byte → Memory
  | [], i, v => [(i, v)]
  | c :: m, i, v =>
    if i < c.1 then (i, v) :: c :: m
    else if i = c.1 then (i, v) :: m
    else c :: Memory.write m i v

/-- The canonical form: slots strictly rising. No entry can equal what an unlisted slot reads as, which is
no byte at all. -/
def Memory.wf : Memory → Bool
  | [] => true
  | [_] => true
  | c :: d :: m => decide (c.1 < d.1) && Memory.wf (d :: m)

/-! ### Tables: one entry per name -/

/-- The entry of a name, or `d` where there is none. -/
def entryAt {κ α : Type} [DecidableEq κ] (d : α) (k : κ) : List (κ × α) → α
  | [] => d
  | p :: rest => if p.1 = k then p.2 else entryAt d k rest

/-- Replaces the entry of a name; a name that has none gets one at the end. -/
def setEntry {κ α : Type} [DecidableEq κ] (k : κ) (x : α) : List (κ × α) → List (κ × α)
  | [] => [(k, x)]
  | p :: rest => if p.1 = k then (k, x) :: rest else p :: setEntry k x rest

/-! ### Reading and writing the fields of the system -/

/-- The block of an instance (20_memory.md R41: the instances are disjoint). Every instance of the system has
one; that a name of no instance reads as a block at power-on only makes this function total, and no step of the
system addresses one (log 7). -/
def State.block (s : State) (k : InstName) : Block := entryAt (Block.powerOn k (Config.capacity k)) k s.blocks

def State.setBlock (s : State) (k : InstName) (x : Block) : State := { s with blocks := setEntry k x s.blocks }

def Responses.get (r : Responses) : Agent → Option Byte
  | .owner => r.owner
  | .producer => r.producer
  | .consumer => r.consumer

def Responses.set (r : Responses) (a : Agent) (v : Option Byte) : Responses :=
  match a with
  | .owner => { r with owner := v }
  | .producer => { r with producer := v }
  | .consumer => { r with consumer := v }

/-- The response last returned on the port of agent `a` of instance `k` (30_encoding.md R59, R63). -/
def State.resp (s : State) (k : InstName) (a : Agent) : Option Byte := (entryAt .empty k s.resps).get a

def State.setResp (s : State) (k : InstName) (a : Agent) (v : Option Byte) : State :=
  { s with resps := setEntry k ((entryAt .empty k s.resps).set a v) s.resps }

/-- A context of the system (60_exceptions.md R111). -/
def State.ctx (s : State) (c : Context) : CtxState := entryAt .idle c s.ctxs

def State.setCtx (s : State) (c : Context) (x : CtxState) : State := { s with ctxs := setEntry c x s.ctxs }

/-- The two instances and the four contexts of the original system (00_scope.md R10; 60_exceptions.md R111). -/
abbrev State.inbound (s : State) : Block := s.block .inbound
abbrev State.outbound (s : State) : Block := s.block .outbound
abbrev State.setup (s : State) : CtxState := s.ctx .setup
abbrev State.rx (s : State) : CtxState := s.ctx .rx
abbrev State.tx (s : State) : CtxState := s.ctx .tx
abbrev State.loop (s : State) : CtxState := s.ctx .loop

/-- The moves still to come (20_memory.md R50). -/
def State.setSchedule (s : State) (l : List Move) : State := { s with schedule := l }

/-- `tx_armed <- b` (60_exceptions.md R116). -/
def State.setArmed (s : State) (b : Bool) : State := { s with txArmed := b }

/-- Bytes handed to the transport for physical transmission (60_exceptions.md R115). -/
def State.setWire (s : State) (l : List Byte) : State := { s with wire := l }

/-- One draw more is taken (00_scope.md R14). -/
def State.countDraw (s : State) : State := { s with draws := s.draws + 1 }

/-- One choice more of the context that goes next is made (log 19). -/
def State.countPick (s : State) : State := { s with picks := s.picks + 1 }

/-- The block that the transaction under way addresses. -/
def State.cur (s : State) : Block := s.block s.txn.inst

def State.setCur (s : State) (x : Block) : State := s.setBlock s.txn.inst x

/-- A transaction is presented: word `w` on the port of agent `a` of instance `k` (30_encoding.md R58). -/
def State.present (s : State) (k : InstName) (a : Agent) (w : Cmd) : State :=
  { s with txn := ⟨k, a, w⟩ }

/-! ### Responses -/

/-- `return r` (00_scope.md R14): the response goes to the agent that issued the operation. -/
def respond (r : Option Byte) (s : State) : State := s.setResp s.txn.inst s.txn.agent r

/-- Returns a draw (00_scope.md R14): a free value, any 8-bit value. -/
def respondDraw (s : State) : State :=
  respond (some (Config.draw s.draws)) s.countDraw

/-- `drawFor` of 60_exceptions.md R107: the response of an operation that faults. -/
def drawFor (kind : RespKind) (s : State) : State :=
  match kind with
  | .none => respond none s
  | .flag => respondDraw s
  | .byte => respondDraw s

/-! ### Faults -/

/-- The codes of 60_exceptions.md R99. -/
def Cause.code : Cause → Nat
  | .reservedOpcode => 1
  | .roleViolation => 2
  | .notInitialized => 3
  | .insertWhenFull => 4
  | .removeWhenEmpty => 5

/-- `Permitted(op)` (60_exceptions.md R110). -/
def permitted : Instr → Agent → Bool
  | .init, .owner => true
  | .isEmpty, .producer => true
  | .isEmpty, .consumer => true
  | .isFull, .producer => true
  | .isFull, .consumer => true
  | .insert _, .producer => true
  | .remove, .consumer => true
  | .init, .producer => false
  | .init, .consumer => false
  | .isEmpty, .owner => false
  | .isFull, .owner => false
  | .insert _, .owner => false
  | .insert _, .consumer => false
  | .remove, .owner => false
  | .remove, .producer => false

/-- The record of a fault of the transaction under way (60_exceptions.md R98): `count` is the count before
the step where the block is initialised, otherwise none. -/
def faultRecord (c : Cause) (s : State) : FaultRecord where
  cause := c
  agent := s.txn.agent
  word  := s.txn.word
  count := if s.cur.initDone then some s.cur.count.val else none

/-- The record is appended at the end of the log of the block (60_exceptions.md R97, R98). -/
def Block.log (x : Block) (r : FaultRecord) : Block := { x with faults := x.faults ++ [r] }

/-- `raise` (00_scope.md R14; 60_exceptions.md R97): the record is appended and nothing else changes. -/
def raise (c : Cause) (s : State) : State := s.setCur (s.cur.log (faultRecord c s))

/-- An operation that faults: its record, and the response R107 names. It completes in this same step
(60_exceptions.md R97). -/
def violate (c : Cause) (i : Instr) (s : State) : State := drawFor (respKind i) (raise c s)

/-- A word that decodes to no operation (60_exceptions.md R100): its record, and a none response. -/
def violateReserved (s : State) : State := respond none (raise .reservedOpcode s)

/-- The common checks of 60_exceptions.md R107 that follow decoding, in their order: role, then
initialisation, which INIT is exempt from. -/
def commonCheck (i : Instr) (s : State) : Option Cause :=
  if permitted i s.txn.agent = false then some .roleViolation
  else if i ≠ .init ∧ s.cur.initDone = false then some .notInitialized
  else none

end Sys2Proof.Machine
end

