-- ==== Sys2Proof/Machine/Control.lean ====
section
/-! DEFINITION. The control operation INIT (40_control.md). -/

namespace Sys2Proof.Machine

/-- The block after INIT (40_control.md R73): head, tail and count are 0 and init_done is 1; the slots and
the fault log are unchanged (R76). -/
def Block.clear (x : Block) : Block :=
  { x with
    head := ⟨0, x.cap.size_pos⟩
    tail := ⟨0, x.cap.size_pos⟩
    count := ⟨0, Nat.succ_pos _⟩
    initDone := true }

/-- INIT (40_control.md R73), after the common checks of 60_exceptions.md R107. -/
def execInit (s : State) : Host.Outcome State Fault Refusal :=
  match commonCheck .init s with
  | some c => .next (violate c .init s)
  | none => .next (respond none (s.setCur s.cur.clear))

end Sys2Proof.Machine
end

