-- ==== Sys2Proof/Machine/Data.lean ====
section
/-! DEFINITION. The data operations INSERT and REMOVE (42_data.md). -/

namespace Sys2Proof.Machine

/-- The block after a successful INSERT (42_data.md R85): the byte is in the slot `tail`, tail is advanced
modulo C and count is one more. -/
def Block.push (x : Block) (b : Byte) (h : x.count.val ≠ x.size) : Block :=
  { x with
    storage := Memory.write x.storage (insertSlot x) b
    tail := nextIndex x x.tail
    count := ⟨x.count.val + 1, by have := x.count.isLt; simp only [Block.size] at h; omega⟩ }

/-- The block after a successful REMOVE (42_data.md R90): head is advanced modulo C and count is one less.
The slot keeps its byte. -/
def Block.pop (x : Block) : Block :=
  { x with
    head := nextIndex x x.head
    count := ⟨x.count.val - 1, by have := x.count.isLt; omega⟩ }

/-- INSERT b (42_data.md R85, R89), after the common checks of 60_exceptions.md R107. -/
def execInsert (b : Byte) (s : State) : Host.Outcome State Fault Refusal :=
  match commonCheck (.insert b) s with
  | some c => .next (violate c (.insert b) s)
  | none =>
    if h : s.cur.count.val = s.cur.size then .next (violate .insertWhenFull (.insert b) s)
    else .next (respond none (s.setCur (s.cur.push b h)))

/-- The response of a successful REMOVE: the byte of the slot read (42_data.md R90). A slot that nothing has
written holds any value (10_state.md R36; U6), so there the response is a draw; no run reaches that (DESIGN
CHOICE, log 4). -/
def respondSlot (v : Option Byte) (s : State) : State :=
  match v with
  | some b => respond (some b) s
  | none => respondDraw s

/-- REMOVE (42_data.md R90, R93), after the common checks of 60_exceptions.md R107. -/
def execRemove (s : State) : Host.Outcome State Fault Refusal :=
  match commonCheck .remove s with
  | some c => .next (violate c .remove s)
  | none =>
    if s.cur.count.val = 0 then .next (violate .removeWhenEmpty .remove s)
    else .next (respondSlot (Memory.read s.cur.storage (removeSlot s.cur)) (s.setCur s.cur.pop))

end Sys2Proof.Machine
end

