-- ==== Sys2Proof/Machine/Status.lean ====
section
/-! DEFINITION. The status operations IS_EMPTY and IS_FULL (41_status.md). -/

namespace Sys2Proof.Machine

/-- IS_EMPTY (41_status.md R77), after the common checks of 60_exceptions.md R107. -/
def execIsEmpty (s : State) : Host.Outcome State Fault Refusal :=
  match commonCheck .isEmpty s with
  | some c => .next (violate c .isEmpty s)
  | none => .next (respond (some (flagResp (emptyFlag s.cur))) s)

/-- IS_FULL (41_status.md R79), after the common checks of 60_exceptions.md R107. -/
def execIsFull (s : State) : Host.Outcome State Fault Refusal :=
  match commonCheck .isFull s with
  | some c => .next (violate c .isFull s)
  | none => .next (respond (some (flagResp (fullFlag s.cur))) s)

end Sys2Proof.Machine
end

