-- ==== Sys2Proof/Machine/Agents.lean ====
section
/-! DEFINITION. One transaction on a port (60_exceptions.md R107), and the contexts that issue transactions:
their programs (30_encoding.md R69, R71), the Serial Transport's handlers and its notification enable
(60_exceptions.md R114 to R117), and which context goes next until the run has ended (20_memory.md R50;
70_reset_and_hazards.md R134). -/

namespace Sys2Proof.Machine

/-- `Step(s, a, w)` of 60_exceptions.md R107 for instance `k`: the word is decoded; a word that spells no
operation is ReservedOpcode (R100); an operation runs, with its own checks first. -/
def transact (k : InstName) (a : Agent) (w : Cmd) (s : State) : Host.Outcome State Fault Refusal :=
  match decode w with
  | .op i => exec i (s.present k a w)
  | .invalid _ => .next (violateReserved (s.present k a w))

/-! ### Names and expressions of a program (30_encoding.md R69) -/

/-- The response bound to a name, if one is. -/
def lookupVar (env : List (Var × Byte)) (x : Var) : Option Byte :=
  match env with
  | [] => none
  | p :: rest => if p.1 = x then some p.2 else lookupVar rest x

/-- Forgets what is bound to a name. -/
def unbindVar (env : List (Var × Byte)) (x : Var) : List (Var × Byte) :=
  match env with
  | [] => []
  | p :: rest => if p.1 = x then unbindVar rest x else p :: unbindVar rest x

/-- Binds a response to a name; the name of an operation that gave no response is bound to nothing (DESIGN
CHOICE, log 10). -/
def bindVar (env : List (Var × Byte)) (x : Var) (r : Option Byte) : List (Var × Byte) :=
  match r with
  | some v => (x, v) :: unbindVar env x
  | none => unbindVar env x

/-- The value of a Boolean expression, or nothing where it reads a name that is not bound. -/
def evalExpr (env : List (Var × Byte)) : Expr → Option Bool
  | .var x =>
    match lookupVar env x with
    | some v => some (respFlag v)
    | none => none
  | .not e =>
    match evalExpr env e with
    | some b => some (!b)
    | none => none
  | .and e f =>
    match evalExpr env e, evalExpr env f with
    | some b, some c => some (b && c)
    | _, _ => none
  | .or e f =>
    match evalExpr env e, evalExpr env f with
    | some b, some c => some (b || c)
    | _, _ => none

/-! ### Programs -/

/-- One program after another. -/
def appendProg : Prog → Prog → Prog
  | .done, q => q
  | .command k a w x rest, q => .command k a w x (appendProg rest q)
  | .ifThen e yes no rest, q => .ifThen e yes no (appendProg rest q)
  | .whileDo e body rest, q => .whileDo e body (appendProg rest q)
  | .assign x e rest, q => .assign x e (appendProg rest q)
  | .rearmTx rest, q => .rearmTx (appendProg rest q)
  | .disarmTx rest, q => .disarmTx (appendProg rest q)
  | .transmit x rest, q => .transmit x (appendProg rest q)

/-- A program that has ended. -/
def progEnded : Prog → Bool
  | .done => true
  | .command _ _ _ _ _ => false
  | .ifThen _ _ _ _ => false
  | .whileDo _ _ _ => false
  | .assign _ _ _ => false
  | .rearmTx _ => false
  | .disarmTx _ => false
  | .transmit _ _ => false

/-- The number of constructors of a program, above the number of local actions it can begin with. -/
def sizeProg : Prog → Nat
  | .done => 1
  | .command _ _ _ _ rest => 1 + sizeProg rest
  | .ifThen _ yes no rest => 1 + sizeProg yes + sizeProg no + sizeProg rest
  | .whileDo _ body rest => 1 + sizeProg body + sizeProg rest
  | .assign _ _ rest => 1 + sizeProg rest
  | .rearmTx rest => 1 + sizeProg rest
  | .disarmTx rest => 1 + sizeProg rest
  | .transmit _ rest => 1 + sizeProg rest

def State.setProg (s : State) (c : Context) (p : Prog) : State :=
  s.setCtx c { s.ctx c with prog := p }

def State.setEnv (s : State) (c : Context) (env : List (Var × Byte)) : State :=
  s.setCtx c { s.ctx c with env := env }

/-- A context goes on, within its step, with what is local to it: `if`, a result, disarming the
notification, and handing a byte to the transport (60_exceptions.md R115). It stops before the next
command, re-arm or loop (DEDUCED, log 9), and before an action that reads a name to which no response is
bound: that action is left to the context's next step, which faults on it, so that what the step has done
already, an operation of the block first of all, stays done (20_memory.md R45; DESIGN CHOICE, log 10). -/
def settleFuel (fuel : Nat) (c : Context) (s : State) : State :=
  match fuel with
  | 0 => s
  | n + 1 =>
    match (s.ctx c).prog with
    | .ifThen e yes no rest =>
      match evalExpr (s.ctx c).env e with
      | some true => settleFuel n c (s.setProg c (appendProg yes rest))
      | some false => settleFuel n c (s.setProg c (appendProg no rest))
      | none => s
    | .assign x e rest =>
      match evalExpr (s.ctx c).env e with
      | some b =>
        settleFuel n c ((s.setProg c rest).setEnv c (bindVar (s.ctx c).env x (some (flagResp b))))
      | none => s
    | .disarmTx rest => settleFuel n c ((s.setProg c rest).setArmed false)
    | .transmit x rest =>
      match lookupVar (s.ctx c).env x with
      | some v => settleFuel n c ((s.setProg c rest).setWire (s.wire ++ [v]))
      | none => s
    | .done => s
    | .command _ _ _ _ _ => s
    | .whileDo _ _ _ => s
    | .rearmTx _ => s

/-- The local actions at the head of a context's program, all of them: each one makes the program
smaller. -/
def settle (c : Context) (s : State) : State := settleFuel (sizeProg (s.ctx c).prog) c s

/-- Binds the response of the transaction that has just completed (30_encoding.md R69, `-> <name>`). -/
def bindResponse (c : Context) (x : Option Var) (r : Option Byte) (s : State) : State :=
  match x with
  | some v => s.setEnv c (bindVar (s.ctx c).env v r)
  | none => s

/-- What follows a transaction in the same step: its response is bound, and the context goes on to its next
command, re-arm or loop. Nothing of it stops the step that issued the command (DESIGN CHOICE, log 10). -/
def afterTransaction (c : Context) (k : InstName) (a : Agent) (x : Option Var)
    (o : Host.Outcome State Fault Refusal) : Host.Outcome State Fault Refusal :=
  match o with
  | .next t => .next (settle c (bindResponse c x (t.resp k a) t))
  | .fault f => .fault f
  | .refused r => .refused r

/-- The next step of a context: one command on a port whose role it holds (60_exceptions.md R110, R111),
re-arming the notification (R117), the test of a loop, or the local actions that its program begins with. A
context at the end of its program does nothing. Reading a name that is not bound is a fault of the model,
raised by the step whose first action reads it (log 10). -/
def runContext (c : Context) (s : State) : Host.Outcome State Fault Refusal :=
  match (s.ctx c).prog with
  | .done => .next s
  | .command k a w x rest =>
    if s.wiring.holds c k a then afterTransaction c k a x (transact k a w (s.setProg c rest))
    else .refused .roleNotHeld
  | .rearmTx rest => .next (settle c ((s.setProg c rest).setArmed true))
  | .whileDo e body rest =>
    match evalExpr (s.ctx c).env e with
    | some true => .next (settle c (s.setProg c (appendProg body (.whileDo e body rest))))
    | some false => .next (settle c (s.setProg c rest))
    | none => .fault .unboundName
  | .ifThen e _ _ _ =>
    match evalExpr (s.ctx c).env e with
    | some _ => .next (settle c s)
    | none => .fault .unboundName
  | .assign _ e _ =>
    match evalExpr (s.ctx c).env e with
    | some _ => .next (settle c s)
    | none => .fault .unboundName
  | .disarmTx _ => .next (settle c s)
  | .transmit x _ =>
    match lookupVar (s.ctx c).env x with
    | some _ => .next (settle c s)
    | none => .fault .unboundName

/-! ### The collaborators (60_exceptions.md R114 to R118) -/

/-- The role that issues an operation on its instance (30_encoding.md R57); a query is the Producer's in
this choice, although either role may issue it. -/
def issuer : Instr → Agent
  | .init => .owner
  | .isEmpty => .producer
  | .isFull => .producer
  | .insert _ => .producer
  | .remove => .consumer

/-- A command line of a program on a given port, by its canonical word (30_encoding.md R72). -/
def lineOf (k : InstName) (a : Agent) (i : Instr) (x : Option Var) (rest : Prog) : Prog :=
  .command k a (encode i) x rest

/-- The expansions of the pseudo-instructions (30_encoding.md R71). The name `f` or `e` of the table is a
name of the expansion's own. -/
def expand (p : Pseudo) (tmp : Var) : Prog :=
  match p with
  | .canWrite ok => lineOf .outbound .producer .isFull (some tmp) (.assign ok (.not (.var tmp)) .done)
  | .write b => lineOf .outbound .producer (.insert b) none (.rearmTx .done)
  | .canRead ok => lineOf .inbound .consumer .isEmpty (some tmp) (.assign ok (.not (.var tmp)) .done)
  | .read v => lineOf .inbound .consumer .remove (some v) .done
  | .tryInsert k b ok =>
    lineOf k .producer .isFull (some tmp)
      (.ifThen (.not (.var tmp)) (lineOf k .producer (.insert b) none .done) .done
        (.assign ok (.not (.var tmp)) .done))
  | .tryRemove k ok v =>
    lineOf k .consumer .isEmpty (some tmp)
      (.ifThen (.not (.var tmp)) (lineOf k .consumer .remove (some v) .done) .done
        (.assign ok (.not (.var tmp)) .done))

/-- The byte-received handler: `in.TRY_INSERT b` (60_exceptions.md R114). -/
def rxHandler (b : Byte) : Prog := expand (.tryInsert .inbound b 1) 0

/-- What the transmit-ready handler does after it has found a byte (60_exceptions.md R115): `out.C: REMOVE -> v`,
and v is handed to the transport. -/
def txSending : Prog := lineOf .outbound .consumer .remove (some 1) (.transmit 1 .done)

/-- The transmit-ready handler (60_exceptions.md R115): `out.C: IS_EMPTY -> e`; if e = 0, REMOVE and hand the
byte to the transport; if e = 1, `tx_armed <- 0`. -/
def txHandler : Prog :=
  lineOf .outbound .consumer .isEmpty (some 0) (.ifThen (.var 0) (.disarmTx .done) txSending .done)

/-- A byte-received handler is queued behind what its context is still doing: one context runs one program (DESIGN
CHOICE, log 11). -/
def State.queue (s : State) (c : Context) (p : Prog) : State :=
  s.setProg c (appendProg (s.ctx c).prog p)

/-- Whether the transport can raise transmit-ready now: `tx_armed` is 1 (R115, R116), and no earlier handler is
still running, since a handler runs to completion first (R113; DESIGN CHOICE, log 11). -/
def State.txReady (s : State) : Bool := s.txArmed && progEnded (s.ctx .tx).prog

/-- One move of the run. Transmit-ready runs its handler from the very step in which it is raised, so that no step
comes between the test of `tx_armed` and the handler's IS_EMPTY: it "runs only while `tx_armed = 1`"
(95_test_vectors.md P3; R115). Where the transport cannot raise it the move does nothing else (DESIGN CHOICE,
log 11). -/
def runMove (m : Move) (s : State) : Host.Outcome State Fault Refusal :=
  match m with
  | .run c => runContext c s
  | .byteReceived b => .next (s.queue .rx (rxHandler b))
  | .transmitReady => if s.txReady then runContext .tx (s.setProg .tx txHandler) else .next s

/-! ### The order of steps and the end of a run -/

/-- A notification of the Serial Transport, which starts a handler. -/
def isNotification : Move → Bool
  | .run _ => false
  | .byteReceived _ => true
  | .transmitReady => true

/-- The contexts whose program has not ended. -/
def State.running (s : State) : List Context :=
  (s.ctxs.map Prod.fst).filter fun c => !progEnded (s.ctx c).prog

/-- The run has ended: every agent's program has (70_reset_and_hazards.md R134), and no notification is still to
start one. -/
def State.ended (s : State) : Bool := s.running.isEmpty && !s.schedule.any isNotification

/-- The context that goes next where the schedule does not say: one whose program has not ended, any of them
(20_memory.md R50), by a free value (log 19). -/
def State.nextContext (s : State) : Option Context :=
  s.running[Config.nextContext s.picks % s.running.length]?

/-- One step of a run that has not ended: the next move of the schedule, or, where it gives none, a step of a
context whose program has not ended. -/
def takeStep (s : State) : Host.Outcome State Fault Refusal :=
  match s.schedule with
  | m :: rest => runMove m (s.setSchedule rest)
  | [] =>
    match s.nextContext with
    | some c => runContext c s.countPick
    | none => .next s

/-! ### Placing one command (the host's question) -/

/-- The role on whose port a word is presented when it is placed alone: that of the operation it spells,
the Producer's for a reserved word. -/
def issuerOfWord (w : Cmd) : Agent :=
  match decode w with
  | .op i => issuer i
  | .invalid _ => .producer

/-- One command placed so that the very next step issues it: it is the first line of the program of the
context that holds the operation's role on the first instance, and that context moves next (DESIGN CHOICE,
log 8). -/
def placeCommand (w : Cmd) (s : State) : State :=
  match s.wiring with
  | [] => s
  | p :: _ =>
    let a := issuerOfWord w
    let c := p.2.holder a
    let t := s.setProg c (.command p.1 a w none (s.ctx c).prog)
    t.setSchedule (.run c :: t.schedule)

end Sys2Proof.Machine
end

