-- ==== Sys2Proof/Machine/Step.lean ====
section
/-! DEFINITION. One step of the system (20_memory.md R50), and one command placed for the next step. -/

namespace Sys2Proof.Machine

/-- One step of a run. A run is a single sequence of steps, and every interleaving of the contexts is some
schedule (20_memory.md R50). Where the schedule gives no move, some context whose program has not ended goes next,
a free choice (log 19); the run ends when every program has ended, and then the state stays as it is
(70_reset_and_hazards.md R134). -/
def step (s : State) : Host.Outcome State Fault Refusal := if s.ended then .next s else takeStep s

/-- The state with the word that opcode_table.json numbers as `w` presented at the very next step
(log 8). -/
def State.withFetchWord (s : State) (nbits w : Nat) : State := placeCommand (tableWord nbits w) s

end Sys2Proof.Machine
end

