-- ==== Sys2Proof/Safety.lean ====
section
/-! DEFINITION. What counts as a good state, a good run and a dutiful caller, in the terms the claims use:
the invariants of 10_state.md section 3, the good run of 60_exceptions.md R97, the launch premise of
70_reset_and_hazards.md R123, the caller duties of R126 and R130, runs (20_memory.md R50) and their end
(70_reset_and_hazards.md R134). -/

namespace Sys2Proof.Machine

/-! ### One block -/

/-- What the slot `(head + n) mod C` holds (10_state.md R35). -/
def Block.slot (x : Block) (n : Nat) : Option Byte := Memory.read x.storage ((x.head.val + n) % x.size)

/-- The abstract contents, oldest first (10_state.md R35). -/
def Block.contents (x : Block) : List (Option Byte) := (List.range x.count.val).map x.slot

/-- The invariant of one block in every state: the slots are in canonical form and within 0 to C - 1, and in
an initialised block tail is `(head + count) mod C` (R34) and every occupied slot holds a byte (R36). -/
abbrev Block.Inv (x : Block) : Prop :=
  Memory.wf x.storage = true ∧ (∀ c ∈ x.storage, c.1 < x.size) ∧
    (x.initDone = true →
      x.tail.val = (x.head.val + x.count.val) % x.size ∧
        ∀ n, n < x.count.val → (x.slot n).isSome = true)

/-- The state classes of 10_state.md R37. -/
inductive StateClass where
  | uninitialised
  | empty
  | partiallyFull
  | full
  deriving DecidableEq, Repr

def Block.stateClass (x : Block) : StateClass :=
  if x.initDone = false then .uninitialised
  else if x.count.val = 0 then .empty
  else if x.count.val = x.size then .full
  else .partiallyFull

/-! ### The system -/

/-- Every block meets the invariant. -/
abbrev State.Inv (s : State) : Prop := ∀ p ∈ s.blocks, p.2.Inv

/-- The system has one block and one record of responses for each of its instances, whatever their number
(00_scope.md R10, R11). -/
abbrev State.Fits (s : State) : Prop :=
  s.blocks.map Prod.fst = s.wiring.names ∧ s.resps.map Prod.fst = s.wiring.names

/-- The roles of the Serial Transport's contexts in the original system (60_exceptions.md R111). -/
abbrev State.TransportWired (s : State) : Prop :=
  s.wiring.holds .rx .inbound .producer = true ∧ s.wiring.holds .tx .outbound .consumer = true

/-- No fault is recorded: a run whose log is not empty is never a good run (60_exceptions.md R97). -/
def State.good (s : State) : Bool := s.blocks.all fun p => p.2.faults.isEmpty

/-- One block just after boot (70_reset_and_hazards.md R123). -/
abbrev Block.Clean (x : Block) : Prop :=
  x.initDone = true ∧ x.head.val = 0 ∧ x.tail.val = 0 ∧ x.count.val = 0 ∧ x.faults = []

/-- The launch premise `CleanEntry` (70_reset_and_hazards.md R123). No command is ever in flight between two
steps; a context at the start of its program has bound no name. -/
abbrev CleanEntry (s : State) : Prop :=
  (∀ p ∈ s.wiring, (s.block p.1).Clean) ∧ (∀ p ∈ s.ctxs, p.2.env = []) ∧ s.txArmed = false

/-- Everything that an operation of the transaction under way leaves alone, whatever it does: every other
block, every other port's response, the transaction itself, the collaborators' state, the capacity, and the
system's instances and holders. -/
structure SameElsewhere (s t : State) : Prop where
  block_ne : ∀ k, k ≠ s.txn.inst → t.block k = s.block k
  resp_ne  : ∀ k a, ¬(k = s.txn.inst ∧ a = s.txn.agent) → t.resp k a = s.resp k a
  txn      : t.txn = s.txn
  txArmed  : t.txArmed = s.txArmed
  wire     : t.wire = s.wire
  ctx      : ∀ c, t.ctx c = s.ctx c
  schedule : t.schedule = s.schedule
  cap      : t.cur.cap = s.cur.cap
  wiring   : t.wiring = s.wiring
  picks    : t.picks = s.picks

/-- The response the transaction under way got. -/
def State.answer (s : State) : Option Byte := s.resp s.txn.inst s.txn.agent

/-- From `s` to `t` the transaction under way recorded one fault and did nothing else to the block
(60_exceptions.md R97, R98). -/
def RecordsFault (c : Cause) (s t : State) : Prop :=
  t.cur =
      { s.cur with
        faults := s.cur.faults ++
          [⟨c, s.txn.agent, s.txn.word, if s.cur.initDone then some s.cur.count.val else none⟩] } ∧
    SameElsewhere s t

/-- The answer is none and no draw is taken. -/
def AnswersNone (s t : State) : Prop := t.answer = none ∧ t.draws = s.draws

/-- The answer is a byte that is no draw. -/
def AnswersByte (v : Byte) (s t : State) : Prop := t.answer = some v ∧ t.draws = s.draws

/-- The answer is the next draw: a free value (00_scope.md R14). -/
def AnswersDraw (s t : State) : Prop :=
  t.answer = some (Config.draw s.draws) ∧ t.draws = s.draws + 1

/-- The response of a faulting operation (60_exceptions.md R99, R107): a draw for the operations that answer
with a flag or a byte, else none. -/
def AnswersFault (i : Instr) (s t : State) : Prop :=
  match i with
  | .init => AnswersNone s t
  | .isEmpty => AnswersDraw s t
  | .isFull => AnswersDraw s t
  | .insert _ => AnswersNone s t
  | .remove => AnswersDraw s t

/-- What a query answers at count `n` of `c` slots (41_status.md R77, R79). -/
def queryAnswer (q : Instr) (n c : Nat) : Option Byte :=
  match q with
  | .isEmpty => some (if n = 0 then 0x01#8 else 0x00#8)
  | .isFull => some (if n = c then 0x01#8 else 0x00#8)
  | .init => none
  | .insert _ => none
  | .remove => none

/-- When a cause of 60_exceptions.md R99 applies to a word on a port: the conditions of that table, each
taken alone. -/
def Applies (c : Cause) (a : Agent) (w : Cmd) (x : Block) : Prop :=
  match c with
  | .reservedOpcode => ∃ e, decode w = .invalid e
  | .roleViolation => ∃ i, decode w = .op i ∧ permitted i a = false
  | .notInitialized => ∃ i, decode w = .op i ∧ i ≠ .init ∧ x.initDone = false
  | .insertWhenFull => ∃ b, decode w = .op (.insert b) ∧ x.count.val = x.size
  | .removeWhenEmpty => decode w = .op .remove ∧ x.count.val = 0

/-! ### Runs of transactions -/

/-- The byte that a transaction on instance `k` inserted, if it is an INSERT that recorded no fault. -/
def insertedBy (k : InstName) (x : Txn) (s t : State) : List Byte :=
  if x.inst = k ∧ (t.block k).faults = (s.block k).faults then
    match decode x.word with
    | .op (.insert b) => [b]
    | _ => []
  else []

/-- The response of a transaction on instance `k`, if it is a REMOVE that recorded no fault. -/
def removedBy (k : InstName) (x : Txn) (s t : State) : List (Option Byte) :=
  if x.inst = k ∧ (t.block k).faults = (s.block k).faults then
    match decode x.word with
    | .op .remove => [t.resp k x.agent]
    | _ => []
  else []

/-- What one instance saw in a run: the bytes inserted and the responses to removes, in order, and the state
at the end. -/
structure Trace where
  final    : State
  inserted : List Byte
  removed  : List (Option Byte)

/-- A run of transactions, in any interleaving of instances and agents (20_memory.md R50), seen from
instance `k`. It gives nothing where a transaction stops. -/
def runTxns (k : InstName) : List Txn → State → Option Trace
  | [], s => some ⟨s, [], []⟩
  | x :: rest, s =>
    match transact x.inst x.agent x.word s with
    | .next t =>
      match runTxns k rest t with
      | some r => some ⟨r.final, insertedBy k x s t ++ r.inserted, removedBy k x s t ++ r.removed⟩
      | none => none
    | .fault _ => none
    | .refused _ => none

/-- The bytes of the INSERT words on instance `k`, in order. -/
def insertBytes (k : InstName) : List Txn → List Byte
  | [] => []
  | x :: rest =>
    if x.inst = k then
      match decode x.word with
      | .op (.insert b) => b :: insertBytes k rest
      | _ => insertBytes k rest
    else insertBytes k rest

/-- On instance `k` the run holds only the Producer's INSERTs and the Consumer's REMOVEs, each REMOVE after
the INSERT it answers, and as many of one as of the other (42_data.md R95): `d` is the number of bytes held
before it. -/
def balanced (k : InstName) : List Txn → Nat → Bool
  | [], d => decide (d = 0)
  | x :: rest, d =>
    if x.inst = k then
      match decode x.word, x.agent, d with
      | .op (.insert _), .producer, d => balanced k rest (d + 1)
      | .op .remove, .consumer, d + 1 => balanced k rest d
      | _, _, _ => false
    else balanced k rest d

/-! ### The duty to pre-check (70_reset_and_hazards.md R126) -/

/-- What the Producer and the Consumer of one instance have seen: IS_FULL = 0 since the Producer's own last
INSERT, IS_EMPTY = 0 since the Consumer's own last REMOVE and with no INIT since (DEDUCED, log 18). -/
structure PreChecks where
  notFull  : Bool
  notEmpty : Bool
  deriving DecidableEq, Repr

/-- What has been seen after an operation by agent `a` that gave response `r`. -/
def PreChecks.after (p : PreChecks) (i : Instr) (a : Agent) (r : Option Byte) : PreChecks :=
  match i, a with
  | .isFull, .producer => { p with notFull := p.notFull || decide (r = some 0#8) }
  | .insert _, .producer => { p with notFull := false }
  | .isEmpty, .consumer => { p with notEmpty := p.notEmpty || decide (r = some 0#8) }
  | .remove, .consumer => { p with notEmpty := false }
  | .init, .owner => { p with notEmpty := false }
  | _, _ => p

/-- An operation a dutiful caller issues: one its role permits, an INSERT only after IS_FULL = 0, a REMOVE
only after IS_EMPTY = 0. -/
def dutiful (p : PreChecks) (i : Instr) (a : Agent) : Bool :=
  permitted i a &&
    match i with
    | .insert _ => p.notFull
    | .remove => p.notEmpty
    | .init => true
    | .isEmpty => true
    | .isFull => true

/-- The callers of instance `k` are dutiful along the whole run; other instances are not looked at. -/
def dutifulRun (k : InstName) : List Txn → PreChecks → State → Prop
  | [], _, _ => True
  | x :: rest, p, s =>
    match transact x.inst x.agent x.word s with
    | .next t =>
      if x.inst = k then
        match decode x.word with
        | .op i => dutiful p i x.agent = true ∧ dutifulRun k rest (p.after i x.agent (t.resp k x.agent)) t
        | .invalid _ => False
      else dutifulRun k rest p t
    | .fault _ => False
    | .refused _ => False

/-! ### The duty to re-arm (70_reset_and_hazards.md R130) -/

/-- Whether a word spells INSERT. -/
def isInsertWord (w : Cmd) : Bool := decide (opField w = 0b100#3)

/-- Whether a program's next action is the re-arm. -/
def startsWithRearm : Prog → Bool
  | .rearmTx _ => true
  | .done => false
  | .command _ _ _ _ _ => false
  | .ifThen _ _ _ _ => false
  | .whileDo _ _ _ => false
  | .assign _ _ _ => false
  | .disarmTx _ => false
  | .transmit _ _ => false

/-- The re-arm follows every INSERT on the outbound Producer port directly (60_exceptions.md R117), and the
program never disarms. -/
def rearmsEveryWrite : Prog → Bool
  | .done => true
  | .command k a w _ rest =>
    (!(decide (k = .outbound) && decide (a = .producer) && isInsertWord w) || startsWithRearm rest) &&
      rearmsEveryWrite rest
  | .ifThen _ yes no rest => rearmsEveryWrite yes && rearmsEveryWrite no && rearmsEveryWrite rest
  | .whileDo _ body rest => rearmsEveryWrite body && rearmsEveryWrite rest
  | .assign _ _ rest => rearmsEveryWrite rest
  | .rearmTx rest => rearmsEveryWrite rest
  | .disarmTx _ => false
  | .transmit _ rest => rearmsEveryWrite rest

/-- What the transmit-ready context may still have to do: whole handlers (60_exceptions.md R115), after the
rest of one that found a byte. -/
inductive HandlerRest : Prog → Prop where
  | done : HandlerRest .done
  | handler (p : Prog) : HandlerRest p → HandlerRest (appendProg txHandler p)
  | sending (p : Prog) : HandlerRest p →
      HandlerRest (lineOf .outbound .consumer .remove (some 1) (.transmit 1 p))

/-- No byte is stranded: a byte in the initialised outbound buffer means that the notification is armed or
that the Control Loop's very next action arms it (70_reset_and_hazards.md R130), where the Control Loop and the
transmit-ready context hold the outbound roles (60_exceptions.md R111) and every program keeps its duty. -/
def NoStrandedByte (s : State) : Prop :=
  s.wiring.holds .loop .outbound .producer = true ∧ s.wiring.holds .tx .outbound .consumer = true ∧
  (∀ c, c ≠ .tx → rearmsEveryWrite (s.ctx c).prog = true) ∧ HandlerRest s.tx.prog ∧
  (s.outbound.initDone = true →
    s.outbound.count.val = 0 ∨ s.txArmed = true ∨ startsWithRearm s.loop.prog = true)

/-- The program never disarms the notification. -/
def neverDisarms : Prog → Bool
  | .done => true
  | .command _ _ _ _ rest => neverDisarms rest
  | .ifThen _ yes no rest => neverDisarms yes && neverDisarms no && neverDisarms rest
  | .whileDo _ body rest => neverDisarms body && neverDisarms rest
  | .assign _ _ rest => neverDisarms rest
  | .rearmTx rest => neverDisarms rest
  | .disarmTx _ => false
  | .transmit _ rest => neverDisarms rest

/-- Only the transmit-ready handler disarms (60_exceptions.md R116), and a handler under way, which has found a
byte, has the notification armed (R115; 95_test_vectors.md P3). -/
def HandlerIsArmed (s : State) : Prop :=
  (∀ c, c ≠ .tx → neverDisarms (s.ctx c).prog = true) ∧
    (s.tx.prog = .done ∨ s.tx.prog = txSending ∧ s.txArmed = true)

/-- The context's next action reads a name to which no response is bound (30_encoding.md R63; log 10). -/
def CtxState.readsUnbound (x : CtxState) : Bool :=
  match x.prog with
  | .ifThen e _ _ _ => (evalExpr x.env e).isNone
  | .whileDo e _ _ => (evalExpr x.env e).isNone
  | .assign _ e _ => (evalExpr x.env e).isNone
  | .transmit y _ => (lookupVar x.env y).isNone
  | .done => false
  | .command _ _ _ _ _ => false
  | .rearmTx _ => false
  | .disarmTx _ => false

/-- Every context's program keeps to the ports the context holds (60_exceptions.md R111). -/
def State.onHeldPorts (s : State) : Prop := ∀ c, (s.ctx c).prog.onHeldPorts s.wiring c = true

/-! ### Runs of the system and their end (70_reset_and_hazards.md R134) -/

/-- The context that goes next, where a context does: the one the schedule names, the transmit-ready context where
its notification is raised, or the free choice. -/
def State.mover (s : State) : Option Context :=
  match s.schedule with
  | [] => s.nextContext
  | .run c :: _ => some c
  | .byteReceived _ :: _ => none
  | .transmitReady :: _ => if s.txReady then some .tx else none

/-- The state with that choice made: the schedule's move is used up, and a notification raised has its handler
started; or a free choice is counted. -/
def State.turn (s : State) : State :=
  match s.schedule with
  | [] => s.countPick
  | .run _ :: rest => s.setSchedule rest
  | .byteReceived _ :: rest => s.setSchedule rest
  | .transmitReady :: rest =>
    if s.txReady then (s.setSchedule rest).setProg .tx txHandler else s.setSchedule rest

/-- `n` steps of the system, fewer where one stops. -/
def runFor : Nat → State → Host.Outcome State Fault Refusal
  | 0, s => .next s
  | n + 1, s =>
    match step s with
    | .next t => runFor n t
    | .fault f => .fault f
    | .refused r => .refused r

/-- The run has ended and ended well: no fault is recorded (R134; 60_exceptions.md R97). -/
def State.endedWell (s : State) : Bool := s.ended && s.good

/-- The run has ended badly: a fault is recorded, whatever its final state (R134). -/
def State.endedBadly (s : State) : Bool := s.ended && !s.good

end Sys2Proof.Machine
end

