-- ==== Sys2Proof/Certificates/Slice0/Obligations.lean ====
section
/-! DEFINITION. The statements for the provers, each from the numbered rules of spec/ that its docstring cites. -/

open Sys2Proof Sys2Proof.Machine

/-! ### Encoding (30_encoding.md) -/

/-- R64, R72: decoding the canonical word of an operation gives that operation, for every operand byte. -/
def Obligations.CanonicalWordsDecodeBack : Prop := ∀ i : Instr, decode (encode i) = .op i

/-- R62, R72: a word that decodes to an operation is that operation's canonical word but for the ignored data
bits; INSERT has none. -/
def Obligations.DecodedWordsEncodeBack : Prop :=
  ∀ (w : Cmd) (i : Instr), decode w = .op i →
    encode i = if opField w = 0b100#3 then w else w &&& 0x700#11

/-- R61, R62, R64: the operation is chosen by bits 10:8, as the number w / 256; INSERT's byte is bits 7:0, as the
number w mod 256; no other operation looks at them; the other three values of bits 10:8 are Invalid. -/
def Obligations.DecodeFollowsOpcodeMap : Prop :=
  ∀ w : Cmd,
    (w.toNat / 256 = 1 → decode w = .op .init) ∧
    (w.toNat / 256 = 2 → decode w = .op .isEmpty) ∧
    (w.toNat / 256 = 3 → decode w = .op .isFull) ∧
    (w.toNat / 256 = 4 → decode w = .op (.insert (BitVec.ofNat 8 (w.toNat % 256)))) ∧
    (w.toNat / 256 = 5 → decode w = .op .remove) ∧
    (w.toNat / 256 = 0 ∨ w.toNat / 256 = 6 ∨ w.toNat / 256 = 7 → ∃ e, decode w = .invalid e)

/-- R61, R62, R65 on words of 95_test_vectors.md L2.1. -/
def Obligations.SampleWordsDecode : Prop :=
  decode 0x1FF#11 = .op .init ∧ decode 0x2A5#11 = .op .isEmpty ∧ decode 0x3FF#11 = .op .isFull ∧
    decode 0x441#11 = .op (.insert 0x41#8) ∧ decode 0x4FF#11 = .op (.insert 0xFF#8) ∧
    decode 0x5C3#11 = .op .remove ∧ decode 0x0FF#11 = .invalid (.reservedOpcode 0b000#3) ∧
    decode 0x600#11 = .invalid (.reservedOpcode 0b110#3) ∧ decode 0x7FF#11 = .invalid (.reservedOpcode 0b111#3)

/-- R65, R100: a reserved word on any port records ReservedOpcode with that word, answers nothing and changes
nothing else. -/
def Obligations.ReservedWordsRecordAFault : Prop :=
  ∀ (k : InstName) (a : Agent) (w : Cmd) (s : State),
    (w.toNat / 256 = 0 ∨ w.toNat / 256 = 6 ∨ w.toNat / 256 = 7) →
      ∃ t, transact k a w s = .next t ∧ RecordsFault .reservedOpcode (s.present k a w) t ∧
        AnswersNone (s.present k a w) t

/-- R69, R70, R72: in a system with any instances, assembling a line succeeds exactly where the line is well formed,
and gives one command on the port the line names, on the one instance where it names none, whose word is the canonical word of the operation the line names (for each mnemonic the
word of R72's table, its ignored data bits zero) and decodes to it. -/
def Obligations.AssembledLinesDecode : Prop :=
  ∀ (names : List InstName) (l : Line) (rest : Prog),
    (l.wellFormed names = false → l.assemble names rest = none) ∧
    (l.wellFormed names = true → ∃ k i w, k ∈ names ∧ (l.inst = some k ∨ (l.inst = none ∧ names = [k])) ∧
      l.instr = some i ∧ w = encode i ∧ decode w = .op i ∧
      l.assemble names rest = some (.command k l.role w l.bind rest) ∧
      (l.mnemonic = .init → w = 0x100#11) ∧ (l.mnemonic = .isEmpty → w = 0x200#11) ∧
      (l.mnemonic = .isFull → w = 0x300#11) ∧ (l.mnemonic = .remove → w = 0x500#11) ∧
      (∀ v, l.mnemonic = .insert → l.imm = some v → v.value ≤ 255 ∧ w.toNat = 0x400 + v.value))

/-! ### The five operations: effect, frame and faults -/

/-- R73, all of it: the words of INIT; the Owner's INIT completes, sets head, tail and count to 0 and init_done
to 1, and leaves the slots and the log as they are; from another agent it is RoleViolation; nothing else
is recorded. -/
def Obligations.InitResetsToEmpty : Prop :=
  (encode .init = 0x100#11 ∧ ∀ w : Cmd, opField w = 0b001#3 → decode w = .op .init) ∧
  (∀ s : State, s.txn.agent = .owner →
    ∃ t, exec .init s = .next t ∧ SameElsewhere s t ∧ AnswersNone s t ∧
      t.cur.head.val = 0 ∧ t.cur.tail.val = 0 ∧ t.cur.count.val = 0 ∧ t.cur.initDone = true ∧
      t.cur.storage = s.cur.storage ∧ t.cur.faults = s.cur.faults ∧
      emptyFlag t.cur = true ∧ fullFlag t.cur = false) ∧
  (∀ s : State, s.txn.agent ≠ .owner →
    ∃ t, exec .init s = .next t ∧ RecordsFault .roleViolation s t ∧ AnswersNone s t)

/-- R77, all of it: the words of IS_EMPTY; from the Producer or the Consumer of an initialised block it
completes, answers 1 exactly when count is 0, else 0, and changes no state; else RoleViolation or
NotInitialized, and a draw. -/
def Obligations.IsEmptyReportsCountZero : Prop :=
  (encode .isEmpty = 0x200#11 ∧ ∀ w : Cmd, opField w = 0b010#3 → decode w = .op .isEmpty) ∧
  (∀ s : State, (s.txn.agent = .producer ∨ s.txn.agent = .consumer) → s.cur.initDone = true →
    ∃ t, exec .isEmpty s = .next t ∧ SameElsewhere s t ∧ t.cur = s.cur ∧
      AnswersByte (if s.cur.count.val = 0 then 0x01#8 else 0x00#8) s t) ∧
  (∀ s : State, s.txn.agent = .owner →
    ∃ t, exec .isEmpty s = .next t ∧ RecordsFault .roleViolation s t ∧ AnswersDraw s t) ∧
  (∀ s : State, (s.txn.agent = .producer ∨ s.txn.agent = .consumer) → s.cur.initDone = false →
    ∃ t, exec .isEmpty s = .next t ∧ RecordsFault .notInitialized s t ∧ AnswersDraw s t)

/-- R79, all of it: as IS_EMPTY, with the answer 1 exactly when count is C. -/
def Obligations.IsFullReportsCountC : Prop :=
  (encode .isFull = 0x300#11 ∧ ∀ w : Cmd, opField w = 0b011#3 → decode w = .op .isFull) ∧
  (∀ s : State, (s.txn.agent = .producer ∨ s.txn.agent = .consumer) → s.cur.initDone = true →
    ∃ t, exec .isFull s = .next t ∧ SameElsewhere s t ∧ t.cur = s.cur ∧
      AnswersByte (if s.cur.count.val = s.cur.size then 0x01#8 else 0x00#8) s t) ∧
  (∀ s : State, s.txn.agent = .owner →
    ∃ t, exec .isFull s = .next t ∧ RecordsFault .roleViolation s t ∧ AnswersDraw s t) ∧
  (∀ s : State, (s.txn.agent = .producer ∨ s.txn.agent = .consumer) → s.cur.initDone = false →
    ∃ t, exec .isFull s = .next t ∧ RecordsFault .notInitialized s t ∧ AnswersDraw s t)

/-- R85, R88, R103, all of them: the words of INSERT; from the Producer of an initialised block that is not full
it completes, stores the byte in the slot tail and in no other slot, advances tail modulo C and adds one to
count; else RoleViolation, NotInitialized or InsertWhenFull, with no answer and nothing stored. -/
def Obligations.InsertStoresAtTail : Prop :=
  ((∀ b : Byte, encode (.insert b) = 0x400#11 ||| b.setWidth 11) ∧
    ∀ w : Cmd, opField w = 0b100#3 → decode w = .op (.insert (dataField w))) ∧
  (∀ (b : Byte) (s : State), s.txn.agent = .producer → s.cur.initDone = true → s.cur.count.val ≠ s.cur.size →
    ∃ t, exec (.insert b) s = .next t ∧ SameElsewhere s t ∧ AnswersNone s t ∧
      Memory.read t.cur.storage s.cur.tail.val = some b ∧
      (∀ n, n ≠ s.cur.tail.val → Memory.read t.cur.storage n = Memory.read s.cur.storage n) ∧
      t.cur.tail.val = (s.cur.tail.val + 1) % s.cur.size ∧ t.cur.count.val = s.cur.count.val + 1 ∧
      t.cur.head.val = s.cur.head.val ∧ t.cur.initDone = true ∧ t.cur.faults = s.cur.faults ∧
      emptyFlag t.cur = false ∧ (fullFlag t.cur = true ↔ t.cur.count.val = s.cur.size)) ∧
  (∀ (b : Byte) (s : State), s.txn.agent ≠ .producer →
    ∃ t, exec (.insert b) s = .next t ∧ RecordsFault .roleViolation s t ∧ AnswersNone s t) ∧
  (∀ (b : Byte) (s : State), s.txn.agent = .producer → s.cur.initDone = false →
    ∃ t, exec (.insert b) s = .next t ∧ RecordsFault .notInitialized s t ∧ AnswersNone s t) ∧
  (∀ (b : Byte) (s : State), s.txn.agent = .producer → s.cur.initDone = true → s.cur.count.val = s.cur.size →
    ∃ t, exec (.insert b) s = .next t ∧ RecordsFault .insertWhenFull s t ∧ AnswersNone s t)

/-- R90, R94, R104, all of them: the words of REMOVE; from the Consumer of an initialised block that is not empty
it completes, answers the byte of the slot head, advances head modulo C, takes one from count and leaves
every slot as it is; else RoleViolation, NotInitialized or RemoveWhenEmpty, with a draw. (A slot that holds
no byte is the next statement's.) -/
def Obligations.RemoveTakesFromHead : Prop :=
  (encode .remove = 0x500#11 ∧ ∀ w : Cmd, opField w = 0b101#3 → decode w = .op .remove) ∧
  (∀ (s : State) (v : Byte), s.txn.agent = .consumer → s.cur.initDone = true → s.cur.count.val ≠ 0 →
    Memory.read s.cur.storage s.cur.head.val = some v →
    ∃ t, exec .remove s = .next t ∧ SameElsewhere s t ∧ AnswersByte v s t ∧
      t.cur.head.val = (s.cur.head.val + 1) % s.cur.size ∧ t.cur.count.val = s.cur.count.val - 1 ∧
      t.cur.tail.val = s.cur.tail.val ∧ t.cur.storage = s.cur.storage ∧ t.cur.initDone = true ∧
      t.cur.faults = s.cur.faults ∧ fullFlag t.cur = false ∧
      (emptyFlag t.cur = true ↔ s.cur.count.val = 1)) ∧
  (∀ s : State, s.txn.agent ≠ .consumer →
    ∃ t, exec .remove s = .next t ∧ RecordsFault .roleViolation s t ∧ AnswersDraw s t) ∧
  (∀ s : State, s.txn.agent = .consumer → s.cur.initDone = false →
    ∃ t, exec .remove s = .next t ∧ RecordsFault .notInitialized s t ∧ AnswersDraw s t) ∧
  (∀ s : State, s.txn.agent = .consumer → s.cur.initDone = true → s.cur.count.val = 0 →
    ∃ t, exec .remove s = .next t ∧ RecordsFault .removeWhenEmpty s t ∧ AnswersDraw s t)

/-- R14, R36, and U6 of 93_implementation_defined.md ("never read without a fault already recorded"): from a state
that meets the invariant, an operation takes a draw exactly where it answers a fault with one, and then its record
is in the log; a REMOVE that records no fault answers the byte of a written slot. So does every step of the system:
it takes no draw, or one, and then one instance's log has one record more. -/
def Obligations.DrawsComeOnlyWithAFault : Prop :=
  (∀ (i : Instr) (s : State), s.cur.Inv → ∃ t, exec i s = .next t ∧
    ((t.cur.faults = s.cur.faults ∧ t.draws = s.draws) ∨
      ((∃ r, t.cur.faults = s.cur.faults ++ [r]) ∧ AnswersFault i s t)) ∧
    (i = .remove → t.cur.faults = s.cur.faults →
      (Memory.read s.cur.storage s.cur.head.val).isSome = true ∧
        t.answer = Memory.read s.cur.storage s.cur.head.val)) ∧
  (∀ s t : State, s.Inv → step s = .next t →
    t.draws = s.draws ∨
      (t.draws = s.draws + 1 ∧ ∃ k r, (t.block k).faults = (s.block k).faults ++ [r]))

/-- R22, R23 with the same for count and init_done (R24, R25) and the slots (R21): what each field is after an
operation, and that only the operations listed, from the agents listed, write it. -/
def Obligations.OnlyListedOperationsWrite : Prop :=
  ∀ (i : Instr) (s t : State), exec i s = .next t →
    (t.cur.head.val = s.cur.head.val ∨
      (i = .remove ∧ s.txn.agent = .consumer ∧ t.cur.head.val = (s.cur.head.val + 1) % s.cur.size) ∨
      (i = .init ∧ s.txn.agent = .owner ∧ t.cur.head.val = 0)) ∧
    (t.cur.tail.val = s.cur.tail.val ∨
      ((∃ b, i = .insert b) ∧ s.txn.agent = .producer ∧ t.cur.tail.val = (s.cur.tail.val + 1) % s.cur.size) ∨
      (i = .init ∧ s.txn.agent = .owner ∧ t.cur.tail.val = 0)) ∧
    (t.cur.count.val = s.cur.count.val ∨
      ((∃ b, i = .insert b) ∧ s.txn.agent = .producer ∧ t.cur.count.val = s.cur.count.val + 1) ∨
      (i = .remove ∧ s.txn.agent = .consumer ∧ t.cur.count.val + 1 = s.cur.count.val) ∨
      (i = .init ∧ s.txn.agent = .owner ∧ t.cur.count.val = 0)) ∧
    (t.cur.initDone = s.cur.initDone ∨
      (i = .init ∧ s.txn.agent = .owner ∧ t.cur.initDone = true)) ∧
    (∀ n, Memory.read t.cur.storage n = Memory.read s.cur.storage n ∨
      (n = s.cur.tail.val ∧ s.txn.agent = .producer ∧
        ∃ b, i = .insert b ∧ Memory.read t.cur.storage n = some b))

/-- R47: INIT twice gives the state of INIT once; a query repeated gives the same answer and state; a
successful INSERT or REMOVE changes count. -/
def Obligations.InitAndQueriesAreIdempotent : Prop :=
  (∀ s t : State, s.txn.agent = .owner → exec .init s = .next t → exec .init t = .next t) ∧
  (∀ (i : Instr) (s t : State), (i = .isEmpty ∨ i = .isFull) → permitted i s.txn.agent = true →
    s.cur.initDone = true → exec i s = .next t → exec i t = .next t) ∧
  (∀ (i : Instr) (s t : State), ((∃ b, i = .insert b) ∨ i = .remove) → exec i s = .next t →
    t.cur.faults = s.cur.faults → t.cur.count.val ≠ s.cur.count.val)

/-! ### Faults and roles (60_exceptions.md) -/

/-- R97, R98: every operation completes in its own step; either the log of its block is as before, or one
record with the four fields of R98 is at its end, nothing else of the state but the answer has changed, the
answer is the one R107 names, and the state is not good. -/
def Obligations.FaultsOnlyAppendARecord : Prop :=
  ∀ (i : Instr) (s : State), ∃ t, exec i s = .next t ∧
    (t.cur.faults = s.cur.faults ∨
      ∃ c, RecordsFault c s t ∧ AnswersFault i s t ∧ t.good = false)

/-- R99, R107: a transaction records no fault where no cause applies, and otherwise one, the cause with the
lowest code of those that apply. -/
def Obligations.LowestCauseIsRecorded : Prop :=
  ∀ (k : InstName) (a : Agent) (w : Cmd) (s : State), ∃ t, transact k a w s = .next t ∧
    (((∀ c, ¬Applies c a w (s.block k)) ∧ (t.block k).faults = (s.block k).faults) ∨
      ∃ c, Applies c a w (s.block k) ∧ (∀ d, Applies d a w (s.block k) → c.code ≤ d.code) ∧
        RecordsFault c (s.present k a w) t)

/-- R101: an operation from an agent that R110 does not permit it records RoleViolation, whatever the block's
state, and answers a draw or nothing by its kind. -/
def Obligations.ForbiddenRolesRecordRoleViolation : Prop :=
  ∀ (i : Instr) (s : State), permitted i s.txn.agent = false →
    ∃ t, exec i s = .next t ∧ RecordsFault .roleViolation s t ∧ AnswersFault i s t

/-- R102: an operation but INIT from a permitted agent before INIT records NotInitialized with count none. -/
def Obligations.OperationsBeforeInitAreRecorded : Prop :=
  ∀ (i : Instr) (s : State), i ≠ .init → permitted i s.txn.agent = true → s.cur.initDone = false →
    ∃ t, exec i s = .next t ∧ RecordsFault .notInitialized s t ∧ AnswersFault i s t ∧
      t.cur.faults = s.cur.faults ++ [⟨.notInitialized, s.txn.agent, s.txn.word, none⟩]

/-- R110, R111: who may issue what; who holds which role in the original system; and, in every system, that each
role of each of its instances is held by exactly one context, and that there is no role to hold of any other. -/
def Obligations.RolesFollowTheTable : Prop :=
  (∀ (i : Instr) (a : Agent), permitted i a = true ↔
    ((i = .init ∧ a = .owner) ∨ ((i = .isEmpty ∨ i = .isFull) ∧ (a = .producer ∨ a = .consumer)) ∨
      ((∃ b, i = .insert b) ∧ a = .producer) ∨ (i = .remove ∧ a = .consumer))) ∧
  (∀ (c : Context) (k : InstName) (a : Agent), State.reset.wiring.holds c k a = true ↔
    ((c = .setup ∧ (k = .inbound ∨ k = .outbound) ∧ a = .owner) ∨ (c = .rx ∧ k = .inbound ∧ a = .producer) ∨
      (c = .loop ∧ ((k = .inbound ∧ a = .consumer) ∨ (k = .outbound ∧ a = .producer))) ∨
      (c = .tx ∧ k = .outbound ∧ a = .consumer))) ∧
  (∀ (y : Wiring) (k : InstName) (a : Agent),
    (k ∈ y.names → ∃ c, y.holds c k a = true ∧ ∀ d, y.holds d k a = true → d = c) ∧
    (k ∉ y.names → ∀ c, y.holds c k a = false))

/-! ### State, contents and order (10_state.md, 20_memory.md, 42_data.md) -/

/-- R39, R121: at power-on of any system no block is initialised, no slot is written and no fault is recorded; head,
tail and count are free. That the notification is off at power-on is the model's choice (DESIGN CHOICE, log 12): R116 says
that its value at setup is not in the source. -/
def Obligations.PowerOnIsUninitialised : Prop :=
  ∀ y : System,
    (∀ k, ((State.powerOn y).block k).initDone = false ∧ ((State.powerOn y).block k).faults = [] ∧
      (∀ n, Memory.read ((State.powerOn y).block k).storage n = none) ∧
      ((State.powerOn y).block k).stateClass = .uninitialised) ∧
    (State.powerOn y).good = true ∧ (State.powerOn y).txArmed = false

/-- R7, R10, R11, R111: a system takes N_INST and one C per instance, any number and any values, and is laid out with
one block of that capacity for each instance and the given holders of its roles; the machine after reset is the
original system, with N_INST = 2. -/
def Obligations.SystemsAreLaidOutAsGiven : Prop :=
  (∀ y : System, y.wellFormed = true →
    (State.powerOn y).wiring.length = y.length ∧ (State.powerOn y).Fits ∧
    ∀ p ∈ y, 1 ≤ p.cap.size ∧ ((State.powerOn y).block p.name).cap = p.cap ∧
      ∀ (c : Context) (a : Agent), (State.powerOn y).wiring.holds c p.name a = true ↔ c = p.roles.holder a) ∧
  State.reset = State.powerOn Config.original ∧ Config.original.wellFormed = true ∧
  State.reset.wiring.names = [.inbound, .outbound]

/-- R10, R11, R111: no step changes which instances there are or who holds their roles, and each keeps one block and
one record of responses per instance, whatever N_INST is. -/
def Obligations.StepsKeepTheSystem : Prop :=
  ∀ s t : State, step s = .next t → t.wiring = s.wiring ∧ (s.Fits → t.Fits)

/-- R74: the first INIT from power-on leaves the inbound block initialised, empty and not full. -/
def Obligations.FirstInitLeavesPowerOn : Prop :=
  ∃ t, step (State.reset.withFetchWord 16 0x100) = .next t ∧ t.inbound.initDone = true ∧
    emptyFlag t.inbound = true ∧ fullFlag t.inbound = false ∧ t.inbound.stateClass = .empty

/-- The invariant of 10_state.md section 3 holds at reset, and at power-on of any system. -/
def Obligations.PowerOnMeetsBlockInvariant : Prop := State.reset.Inv ∧ ∀ y : System, (State.powerOn y).Inv

/-- R34, R36 and the canonical form of the slots: every step of the system, from any state that meets the
invariant, whatever the schedule and the programs, gives a state that meets it. -/
def Obligations.EveryStepKeepsBlockInvariant : Prop :=
  ∀ s t : State, s.Inv → step s = .next t → t.Inv

/-- R7, R25, R26, R98, R107: no step changes a capacity or clears init_done, and each leaves a log as it is or
adds one record at its end. -/
def Obligations.StepsNeverLoseRecords : Prop :=
  ∀ (s t : State) (k : InstName), step s = .next t →
    (t.block k).cap = (s.block k).cap ∧
    ((s.block k).initDone = true → (t.block k).initDone = true) ∧
    ((t.block k).faults = (s.block k).faults ∨ ∃ r, (t.block k).faults = (s.block k).faults ++ [r])

/-- R32: a block is never both empty and full, and where head = tail in an initialised block it is one of the
two. -/
def Obligations.EqualIndicesMeanEmptyOrFull : Prop :=
  (∀ x : Block, ¬(emptyFlag x = true ∧ fullFlag x = true)) ∧
  (∀ x : Block, x.Inv → x.initDone = true → x.head.val = x.tail.val →
    emptyFlag x = true ∨ fullFlag x = true)

/-- R37: the class of the block after each operation, from each class, and that a faulting operation leaves the
class. -/
def Obligations.StateClassesFollowTheTable : Prop :=
  (∀ (i : Instr) (s : State), ∃ t, exec i s = .next t ∧
    (t.cur.faults ≠ s.cur.faults → t.cur.stateClass = s.cur.stateClass) ∧
    (s.cur.stateClass = .uninitialised → i ≠ .init → t.cur.faults ≠ s.cur.faults) ∧
    (s.cur.stateClass = .full → (∃ b, i = .insert b) → t.cur.faults ≠ s.cur.faults) ∧
    (s.cur.stateClass = .empty → i = .remove → t.cur.faults ≠ s.cur.faults) ∧
    (t.cur.faults = s.cur.faults →
      (i = .init → t.cur.stateClass = .empty) ∧
      (i = .isEmpty ∨ i = .isFull → t.cur.stateClass = s.cur.stateClass) ∧
      (s.cur.stateClass = .empty → (∃ b, i = .insert b) →
        t.cur.stateClass = if s.cur.size = 1 then .full else .partiallyFull) ∧
      (s.cur.stateClass = .partiallyFull → (∃ b, i = .insert b) →
        t.cur.stateClass = if s.cur.count.val + 1 = s.cur.size then .full else .partiallyFull) ∧
      (s.cur.stateClass = .partiallyFull → i = .remove →
        t.cur.stateClass = if s.cur.count.val - 1 = 0 then .empty else .partiallyFull) ∧
      (s.cur.stateClass = .full → i = .remove →
        t.cur.stateClass = if s.cur.size = 1 then .empty else .partiallyFull))) ∧
  (∀ x : Block, x.size = 1 → x.stateClass ≠ .partiallyFull)

/-- R41: an operation on one instance writes nothing of any other, and what it writes and answers depends on
nothing of any other (nor on anything else but its own block, its word and the next draw). -/
def Obligations.InstancesAreDisjoint : Prop :=
  (∀ (k j : InstName) (a : Agent) (w : Cmd) (s t : State), transact k a w s = .next t → j ≠ k →
    t.block j = s.block j ∧ ∀ d, t.resp j d = s.resp j d) ∧
  (∀ (k : InstName) (a : Agent) (w : Cmd) (s s' t t' : State), s.block k = s'.block k → s.draws = s'.draws →
    transact k a w s = .next t → transact k a w s' = .next t' →
    t.block k = t'.block k ∧ t.resp k a = t'.resp k a)

/-- R87: a successful INSERT appends the byte to the contents and leaves the bytes held in place. -/
def Obligations.InsertAppendsToContents : Prop :=
  ∀ (b : Byte) (s : State), s.cur.Inv → s.txn.agent = .producer → s.cur.initDone = true →
    s.cur.count.val ≠ s.cur.size →
    ∃ t, exec (.insert b) s = .next t ∧ t.cur.contents = s.cur.contents ++ [some b] ∧
      t.cur.head.val = s.cur.head.val ∧ ∀ n, n < s.cur.count.val → t.cur.slot n = s.cur.slot n

/-- R92: a successful REMOVE answers the first of the contents and leaves the rest. -/
def Obligations.RemoveDropsTheOldest : Prop :=
  ∀ (s : State) (v : Byte) (rest : List (Option Byte)), s.txn.agent = .consumer → s.cur.initDone = true →
    s.cur.contents = some v :: rest →
    ∃ t, exec .remove s = .next t ∧ t.answer = some v ∧ t.cur.contents = rest

/-- R52: where the invariant holds, a Consumer that finds the block not empty gets a byte an INSERT stored, not
a draw. -/
def Obligations.PublishedBytesAreReadable : Prop :=
  ∀ s : State, s.cur.Inv → s.txn.agent = .consumer → s.cur.initDone = true → s.cur.count.val ≠ 0 →
    ∃ t b, exec .remove s = .next t ∧ AnswersByte b s t ∧
      Memory.read s.cur.storage s.cur.head.val = some b

/-- R53: where the invariant holds and the block is not full, the slot an INSERT writes is none of the occupied
ones. -/
def Obligations.InsertSparesOccupiedSlots : Prop :=
  ∀ x : Block, x.Inv → x.initDone = true → x.count.val ≠ x.size →
    ∀ n, n < x.count.val → (x.head.val + n) % x.size ≠ insertSlot x

/-- R96: count stays in 0 to C (in every state, by the type of the field); a successful INSERT needs count < C and
adds one; a successful REMOVE needs count > 0 and takes one; a fault changes nothing but the log; INIT sets
0. -/
def Obligations.CountStaysWithinCapacity : Prop :=
  ∀ (i : Instr) (s t : State), exec i s = .next t →
    t.cur.count.val ≤ t.cur.size ∧
    (t.cur.faults ≠ s.cur.faults → ∃ r, t.cur = { s.cur with faults := s.cur.faults ++ [r] }) ∧
    (t.cur.faults = s.cur.faults →
      (∀ b, i = .insert b → s.cur.count.val < s.cur.size ∧ t.cur.count.val = s.cur.count.val + 1) ∧
      (i = .remove → 0 < s.cur.count.val ∧ t.cur.count.val = s.cur.count.val - 1) ∧
      (i = .init → t.cur.count.val = 0))

/-- R8, R86, R91: where C is a power of two the next index is also (i + 1) & (C - 1), and the index C - 1 is
followed by 0 for every C. -/
def Obligations.NextIndexWrapsByMaskOrModulo : Prop :=
  ∀ (x : Block) (i : Fin x.size),
    (i.val = x.size - 1 → (nextIndex x i).val = 0) ∧
    (i.val ≠ x.size - 1 → (nextIndex x i).val = i.val + 1) ∧
    ∀ n, x.size = 2 ^ n → (nextIndex x i).val = (i.val + 1) &&& (x.size - 1)

/-- R81: with C = 1, in every initialised state and from either role, exactly one of the two queries answers
1. -/
def Obligations.QueriesAreOppositeAtCapacityOne : Prop :=
  ∀ s : State, s.cur.size = 1 → s.cur.initDone = true →
    (s.txn.agent = .producer ∨ s.txn.agent = .consumer) →
    ∃ t u, exec .isEmpty s = .next t ∧ exec .isFull s = .next u ∧
      ((t.answer = some 0x01#8 ∧ u.answer = some 0x00#8) ∨ (t.answer = some 0x00#8 ∧ u.answer = some 0x01#8))

/-- R46, R80, R108 and X1, X2, X7 of 95_test_vectors.md: either query of the Consumer issued together with an
INSERT of the Producer, and either query of the Producer together with a REMOVE of the Consumer, on an initialised
block. Either order is a run; both orders leave the same block and the same answer to the other operation; and
the query answers for the count before the other operation or for the count after it (the same count, where the
other operation faults). -/
def Obligations.RacingQueryAnswersForItsOwnStep : Prop :=
  ∀ (k : InstName) (q : Instr) (s : State), (q = .isEmpty ∨ q = .isFull) → (s.block k).initDone = true →
    (∀ b : Byte, ∃ t u t' u',
      transact k .consumer (encode q) s = .next t ∧ transact k .producer (encode (.insert b)) t = .next u ∧
      transact k .producer (encode (.insert b)) s = .next t' ∧ transact k .consumer (encode q) t' = .next u' ∧
      u.resp k .consumer = queryAnswer q (s.block k).count.val (s.block k).size ∧
      u'.resp k .consumer =
        queryAnswer q
          (if (s.block k).count.val = (s.block k).size then (s.block k).count.val else (s.block k).count.val + 1)
          (s.block k).size ∧
      u.block k = u'.block k ∧ u.resp k .producer = u'.resp k .producer) ∧
    (∃ t u t' u',
      transact k .producer (encode q) s = .next t ∧ transact k .consumer (encode .remove) t = .next u ∧
      transact k .consumer (encode .remove) s = .next t' ∧ transact k .producer (encode q) t' = .next u' ∧
      u.resp k .producer = queryAnswer q (s.block k).count.val (s.block k).size ∧
      u'.resp k .producer =
        queryAnswer q
          (if (s.block k).count.val = 0 then (s.block k).count.val else (s.block k).count.val - 1)
          (s.block k).size ∧
      u.block k = u'.block k ∧ u.resp k .consumer = u'.resp k .consumer)

/-! ### Runs, in every interleaving of instances and agents -/

/-- R51: in any run of transactions with no INIT of the instance, the responses to successful REMOVEs are the
bytes of successful INSERTs in their order, after the bytes held at the start and before those held at the
end; and in any run after an INIT, up to the next one, the n-th such REMOVE answers the byte of the n-th such
INSERT. -/
def Obligations.FifoOrderUnderEveryInterleaving : Prop :=
  (∀ (k : InstName) (ops : List Txn) (s : State), (s.block k).Inv → (s.block k).initDone = true →
    (∀ x ∈ ops, ¬(x.inst = k ∧ x.agent = .owner ∧ decode x.word = .op .init)) →
    ∃ r, runTxns k ops s = some r ∧
      (s.block k).contents ++ r.inserted.map some = r.removed ++ (r.final.block k).contents) ∧
  (∀ (k : InstName) (w : Cmd) (ops : List Txn) (s : State), (s.block k).Inv → decode w = .op .init →
    (∀ x ∈ ops, ¬(x.inst = k ∧ x.agent = .owner ∧ decode x.word = .op .init)) →
    ∃ t r, transact k .owner w s = .next t ∧ runTxns k ops t = some r ∧
      ∀ n, n < r.removed.length → r.removed[n]? = (r.inserted.map some)[n]?)

/-- R95: from an empty initialised block, the INSERTs of a sequence of at most C bytes and as many REMOVEs, in
any interleaving that keeps each REMOVE after the INSERT it answers, and with any transactions on the other
instance between: the REMOVEs answer the sequence in order, no fault is recorded, the block is empty again. -/
def Obligations.RoundTripReturnsTheSequence : Prop :=
  ∀ (k : InstName) (ops : List Txn) (s : State), (s.block k).Inv → (s.block k).initDone = true →
    (s.block k).count.val = 0 → balanced k ops 0 = true → (insertBytes k ops).length ≤ (s.block k).size →
    ∃ r, runTxns k ops s = some r ∧ r.removed = (insertBytes k ops).map some ∧
      (r.final.block k).faults = (s.block k).faults ∧ (r.final.block k).count.val = 0

/-- R127: once the Producer's IS_FULL answered 0 on an initialised block, count < C holds after any run without
an INSERT of that Producer, and then its INSERT records no fault. -/
def Obligations.ProducersCheckStaysValid : Prop :=
  ∀ (k : InstName) (w : Cmd) (s t : State) (ops : List Txn), (s.block k).initDone = true →
    decode w = .op .isFull → transact k .producer w s = .next t → t.resp k .producer = some 0x00#8 →
    (∀ x ∈ ops, ¬(x.inst = k ∧ x.agent = .producer ∧ ∃ b, decode x.word = .op (.insert b))) →
    ∃ r, runTxns k ops t = some r ∧ (r.final.block k).count.val < (r.final.block k).size ∧
      ∀ b, ∃ u, transact k .producer (encode (.insert b)) r.final = .next u ∧
        (u.block k).faults = (r.final.block k).faults

/-- R128: once the Consumer's IS_EMPTY answered 0 on an initialised block, count > 0 holds after any run without
a REMOVE of that Consumer and without an INIT, and then its REMOVE records no fault. -/
def Obligations.ConsumersCheckStaysValidWithoutInit : Prop :=
  ∀ (k : InstName) (w : Cmd) (s t : State) (ops : List Txn), (s.block k).initDone = true →
    decode w = .op .isEmpty → transact k .consumer w s = .next t → t.resp k .consumer = some 0x00#8 →
    (∀ x ∈ ops, ¬(x.inst = k ∧ x.agent = .consumer ∧ decode x.word = .op .remove)) →
    (∀ x ∈ ops, ¬(x.inst = k ∧ x.agent = .owner ∧ decode x.word = .op .init)) →
    ∃ r, runTxns k ops t = some r ∧ 0 < (r.final.block k).count.val ∧
      ∃ u, transact k .consumer (encode .remove) r.final = .next u ∧
        (u.block k).faults = (r.final.block k).faults

/-- R126 with R127 and R128: along any run whose callers of the instance keep their roles and their pre-checks,
whatever the interleaving, no fault is recorded on the instance. (That an INIT keeps the Producer's check is the
model's reading of R126: log 18.) -/
def Obligations.PreCheckingCallersNeverFault : Prop :=
  ∀ (k : InstName) (ops : List Txn) (p : PreChecks) (s : State), (s.block k).initDone = true →
    (p.notFull = true → (s.block k).count.val < (s.block k).size) →
    (p.notEmpty = true → 0 < (s.block k).count.val) → dutifulRun k ops p s →
    ∃ r, runTxns k ops s = some r ∧ (r.final.block k).faults = (s.block k).faults

/-! ### The step and the collaborators (60_exceptions.md R111 to R118, 70_reset_and_hazards.md) -/

/-- R58, R107: when the context that goes next has as its next line (that of its handler, where its notification is
raised) a word that decodes to an operation, on a port the context holds, the step is exec of that operation with the transaction presented, the turn and the
line used up, and then what follows a transaction. Where the line binds no name and is the program's last,
the step is exec alone. A word that decodes to nothing is recorded instead.
(That the order of steps is a schedule of moves and after it a free choice, and that local actions follow in the
same step, is the model's reading: log 8, log 19, log 9.) -/
def Obligations.StepRunsTheDecodedOperation : Prop :=
  ∀ (s : State) (c : Context) (k : InstName) (a : Agent) (w : Cmd) (x : Option Var) (rest : Prog),
    s.mover = some c → (s.turn.ctx c).prog = .command k a w x rest → s.wiring.holds c k a = true →
    (∀ i, decode w = .op i →
      step s = afterTransaction c k a x (exec i ((s.turn.setProg c rest).present k a w)) ∧
      (x = none → rest = .done → step s = exec i ((s.turn.setProg c rest).present k a w))) ∧
    (∀ e, decode w = .invalid e →
      step s = afterTransaction c k a x (.next (violateReserved ((s.turn.setProg c rest).present k a w))))

/-- R111, R125, U8: a command on a port whose role the context does not hold is refused, and is the only thing that
is (the model's form of U8, log 7). -/
def Obligations.SharedRolesAreRefused : Prop :=
  (∀ (s : State) (c : Context) (k : InstName) (a : Agent) (w : Cmd) (x : Option Var) (rest : Prog),
    s.mover = some c → (s.turn.ctx c).prog = .command k a w x rest → s.wiring.holds c k a = false →
    step s = .refused .roleNotHeld) ∧
  (∀ (s : State) (r : Refusal), step s = .refused r →
    r = .roleNotHeld ∧ ∃ c k a w x rest, s.mover = some c ∧ (s.turn.ctx c).prog = .command k a w x rest ∧
      s.wiring.holds c k a = false)

/-- R111: programs that keep to the ports their contexts hold keep to them at every step, the handlers' among
them where the Serial Transport's contexts hold their roles, and no such step is refused, unless it raises transmit-ready
in a system in which the transmit-ready context is not the outbound Consumer (log 7, log 11). -/
def Obligations.HeldPortsAreKept : Prop :=
  ∀ s : State, s.onHeldPorts →
    ((s.wiring.holds .tx .outbound .consumer = true ∨ ∀ rest, s.schedule ≠ .transmitReady :: rest) →
      ∀ r, step s ≠ .refused r) ∧
    ((s.TransportWired ∨ ∀ m ∈ s.schedule, isNotification m = false) →
      ∀ t, step s = .next t → t.onHeldPorts)

/-- R114: the byte-received notification queues the handler; run alone on an initialised block it drops the byte
when the block is full and else inserts it, in two steps and with no fault. (The queue and the number of steps are
the model's: log 9, log 11.) -/
def Obligations.ByteReceivedInsertsOrDrops : Prop :=
  (∀ (s : State) (b : Byte) (moves : List Move), s.schedule = .byteReceived b :: moves →
    ∃ t, step s = .next t ∧ t.schedule = moves ∧ t.rx.prog = appendProg s.rx.prog (rxHandler b)) ∧
  (∀ (s : State) (b : Byte) (moves : List Move), s.schedule = .run .rx :: .run .rx :: moves →
    s.rx.prog = rxHandler b → s.wiring.holds .rx .inbound .producer = true → s.inbound.initDone = true → s.inbound.Inv →
    ∃ t u, step s = .next t ∧ step t = .next u ∧ u.rx.prog = .done ∧ u.inbound.faults = s.inbound.faults ∧
      (s.inbound.count.val = s.inbound.size → u.inbound = s.inbound) ∧
      (s.inbound.count.val ≠ s.inbound.size → u.inbound.contents = s.inbound.contents ++ [some b]))

/-- R115, R116: transmit-ready is raised only while tx_armed is 1, and else nothing happens; from the step in which it
is raised its handler runs, which on an initialised block disarms in one step when the block is empty, and else removes
the oldest byte and hands it to the transport. (That it is not raised while its context is busy, and the number of steps,
are the model's: log 11, log 9.) -/
def Obligations.TransmitReadySendsOrDisarms : Prop :=
  (∀ (s : State) (moves : List Move), s.schedule = .transmitReady :: moves →
    s.txArmed = false ∨ s.tx.prog ≠ .done → step s = .next (s.setSchedule moves)) ∧
  (∀ (s : State) (moves : List Move), s.schedule = .transmitReady :: moves → s.txArmed = true → s.tx.prog = .done →
    s.wiring.holds .tx .outbound .consumer = true → s.outbound.initDone = true → s.outbound.count.val = 0 →
    ∃ t, step s = .next t ∧ t.txArmed = false ∧ t.tx.prog = .done ∧ t.wire = s.wire ∧
      t.outbound = s.outbound) ∧
  (∀ (s : State) (moves : List Move) (v : Byte) (rest : List (Option Byte)),
    s.schedule = .transmitReady :: .run .tx :: moves → s.txArmed = true → s.tx.prog = .done →
    s.wiring.holds .tx .outbound .consumer = true → s.outbound.initDone = true → s.outbound.contents = some v :: rest →
    ∃ t u, step s = .next t ∧ step t = .next u ∧ u.wire = s.wire ++ [v] ∧ u.txArmed = true ∧
      u.tx.prog = .done ∧ u.outbound.contents = rest ∧ u.outbound.faults = s.outbound.faults)

/-- R115, R116 and P3 of 95_test_vectors.md: the transmit-ready handler runs only while tx_armed is 1. Where only the
handler disarms, every step keeps it so that a handler under way has the notification armed, every step of the
transmit-ready context from such a state is taken with it armed, and the original system starts so. (It rests on the
model's reading that the handler starts in the step that raises it and disarms in the step of its query: log 11, log
9.) -/
def Obligations.HandlerRunsOnlyWhileArmed : Prop :=
  HandlerIsArmed State.reset ∧
  (∀ s t : State, HandlerIsArmed s → step s = .next t → HandlerIsArmed t) ∧
  (∀ s : State, HandlerIsArmed s → s.mover = some .tx → (s.turn.ctx .tx).prog ≠ .done → s.txArmed = true)

/-- R71, R117: WRITE b is the INSERT of b on the outbound Producer port followed by the re-arm, whether or not the
buffer was empty, initialised or full before. (That the re-arm is a step of its own is the model's reading: log
9.) -/
def Obligations.WriteInsertsThenRearms : Prop :=
  ∀ (s : State) (b : Byte) (tmp : Var) (moves : List Move), s.schedule = .run .loop :: .run .loop :: moves →
    s.loop.prog = expand (.write b) tmp → s.wiring.holds .loop .outbound .producer = true →
    ∃ t u, step s = .next t ∧ step t = .next u ∧ t.txArmed = s.txArmed ∧ u.txArmed = true ∧
      u.loop.prog = .done ∧ u.outbound = t.outbound ∧
      exec (.insert b) (((s.setSchedule (.run .loop :: moves)).setProg .loop (.rearmTx .done)).present
        .outbound .producer (encode (.insert b))) = .next t

/-- R71 for CAN_WRITE, CAN_READ and READ, on an initialised buffer, each in one step: the first two bind the
negation of the flag and leave the buffer as it is; READ binds the oldest byte and takes it off. (That each is one
step is the model's reading: log 9.) -/
def Obligations.ControlLoopCallsBindTheirResults : Prop :=
  (∀ (s : State) (ok tmp : Var) (moves : List Move), s.schedule = .run .loop :: moves →
    s.loop.prog = expand (.canWrite ok) tmp → s.wiring.holds .loop .outbound .producer = true → s.outbound.initDone = true →
    ∃ t, step s = .next t ∧ t.loop.prog = .done ∧ t.outbound = s.outbound ∧
      lookupVar t.loop.env ok = some (if s.outbound.count.val = s.outbound.size then 0x00#8 else 0x01#8)) ∧
  (∀ (s : State) (ok tmp : Var) (moves : List Move), s.schedule = .run .loop :: moves →
    s.loop.prog = expand (.canRead ok) tmp → s.wiring.holds .loop .inbound .consumer = true → s.inbound.initDone = true →
    ∃ t, step s = .next t ∧ t.loop.prog = .done ∧ t.inbound = s.inbound ∧
      lookupVar t.loop.env ok = some (if s.inbound.count.val = 0 then 0x00#8 else 0x01#8)) ∧
  (∀ (s : State) (v tmp : Var) (b : Byte) (rest : List (Option Byte)) (moves : List Move),
    s.schedule = .run .loop :: moves → s.loop.prog = expand (.read v) tmp →
    s.wiring.holds .loop .inbound .consumer = true → s.inbound.initDone = true → s.inbound.contents = some b :: rest →
    ∃ t, step s = .next t ∧ t.loop.prog = .done ∧ t.inbound.contents = rest ∧ lookupVar t.loop.env v = some b)

/-- R71 for TRY_REMOVE, from the context that holds the Consumer role of the instance, on an initialised buffer:
when it is empty, one step, nothing removed and ok false; else two steps, the oldest byte removed and bound and
ok true. The three names are different ones. (The number of steps is the model's reading: log 9.) -/
def Obligations.TryRemoveTakesOnlyWhatIsThere : Prop :=
  ∀ (s : State) (c : Context) (k : InstName) (ok v tmp : Var) (moves : List Move),
    (s.ctx c).prog = expand (.tryRemove k ok v) tmp → s.wiring.holds c k .consumer = true →
    (s.block k).initDone = true → v ≠ tmp → ok ≠ v →
    (s.schedule = .run c :: moves → (s.block k).count.val = 0 →
      ∃ t, step s = .next t ∧ (t.ctx c).prog = .done ∧ t.block k = s.block k ∧
        lookupVar (t.ctx c).env ok = some 0x00#8) ∧
    (∀ b rest, s.schedule = .run c :: .run c :: moves → (s.block k).contents = some b :: rest →
      ∃ t u, step s = .next t ∧ step t = .next u ∧ (u.ctx c).prog = .done ∧ (u.block k).contents = rest ∧
        lookupVar (u.ctx c).env v = some b ∧ lookupVar (u.ctx c).env ok = some 0x01#8)

/-- R130: where every program re-arms directly after every outbound INSERT and only the transmit-ready handler
disarms, no step strands a byte: a byte in the initialised outbound block always has the notification armed
or about to be. (It rests on the model's reading that the handler disarms in the step of its query: log 9.) -/
def Obligations.NoByteIsStranded : Prop :=
  ∀ s t : State, NoStrandedByte s → step s = .next t → NoStrandedByte t

/-- At power-on of the original system no byte is stranded. -/
def Obligations.PowerOnStrandsNoByte : Prop := NoStrandedByte State.reset

/-- R131: the two handlers keep to their contexts' ports and never poll. -/
def Obligations.HandlersNeverPoll : Prop :=
  (∀ b : Byte, (rxHandler b).wellFormed State.reset.wiring .rx = true) ∧
    txHandler.wellFormed State.reset.wiring .tx = true

/-- R45, R63: a step faults exactly where a context goes next whose next action reads a name to which no response is
bound (the model's form of such a read, log 10). So no command's step faults, whatever its program does next, and
what an operation has done is never lost. -/
def Obligations.OnlyUnboundReadsFault : Prop :=
  ∀ (s : State) (f : Fault), step s = .fault f ↔
    (f = .unboundName ∧ ∃ c, s.mover = some c ∧ (s.turn.ctx c).readsUnbound = true)

/-! ### The end of a run (70_reset_and_hazards.md R134) -/

/-- R134, all of it: no operation of the block ends a run; with no notification to come, a run has ended exactly when
every agent's program has; from then on the state stays as it is, to be read, and no command is left to issue; and a
run with a fault recorded ends badly, whatever follows. -/
def Obligations.RunsEndWithTheirPrograms : Prop :=
  (∀ (i : Instr) (s : State), ∃ t, exec i s = .next t) ∧
  (∀ s : State, (∀ m ∈ s.schedule, ∃ c, m = .run c) → (s.ended = true ↔ ∀ c, (s.ctx c).prog = .done)) ∧
  (∀ (s : State) (n : Nat), s.ended = true → (∀ c, (s.ctx c).prog = .done) ∧ runFor n s = .next s) ∧
  (∀ (n : Nat) (s t : State), s.good = false → runFor n s = .next t → t.good = false ∧
    t.endedWell = false ∧ (t.ended = true → t.endedBadly = true))

/-- A run that has not ended goes on: by the schedule's next move, or by a step of some context whose program has not
ended; and a notification to come keeps a run from its end. (Both are the model's form of R50 and R134: log 19.) -/
def Obligations.RunsGoOnUntilTheirEnd : Prop :=
  (∀ s : State, s.ended = false →
    (∀ m rest, s.schedule = m :: rest → step s = runMove m (s.setSchedule rest)) ∧
    (s.schedule = [] → ∃ c, (s.ctx c).prog ≠ .done ∧ step s = runContext c s.countPick)) ∧
  (∀ (s : State) (b : Byte), .byteReceived b ∈ s.schedule ∨ .transmitReady ∈ s.schedule → s.ended = false)

/-- In the model every run is finite where no program has a loop: from every state some number of steps leads to the end
of the run as R134 defines it, or to a stop of an agent's program, a read of an unbound name (log 10) or a command on a
port that the context does not hold (log 7). That the run is finite is the model's choice and no rule of the spec (DESIGN
CHOICE, log 19): notifications come only by the schedule, which is finite, and after it only contexts with program left
move, while R114 and R116 put no bound on notifications. -/
def Obligations.LoopFreeRunsEnd : Prop :=
  ∀ s : State, (∀ c, (s.ctx c).prog.loopFree = true) →
    ∃ n, (∃ t, runFor n s = .next t ∧ t.ended = true) ∨ runFor n s = .fault .unboundName ∨
      runFor n s = .refused .roleNotHeld
end

