-- ==== Sys2Proof/Laws/Memory.lean ====
section
/-! SUPPORT. The laws of the slot array: read after write, and that a write keeps the canonical form and the
bound on the slots. -/

namespace Sys2Proof.Machine

theorem read_write_same (m : Memory) (i : Nat) (v : Byte) : Memory.read (Memory.write m i v) i = some v := by
  induction m with
  | nil => simp [Memory.write, Memory.read]
  | cons c m ih =>
    unfold Memory.write
    split
    · simp [Memory.read]
    · split
      · simp [Memory.read]
      · simp only [Memory.read, ih, if_neg (show ¬c.1 = i by omega)]

theorem read_write_ne (m : Memory) {i j : Nat} (v : Byte) (h : j ≠ i) :
    Memory.read (Memory.write m i v) j = Memory.read m j := by
  induction m with
  | nil => simp [Memory.write, Memory.read, Ne.symm h]
  | cons c m ih =>
    unfold Memory.write
    split
    · simp [Memory.read, Ne.symm h]
    · split
      · simp only [Memory.read, if_neg (Ne.symm h), if_neg (show ¬c.1 = j by omega)]
      · simp only [Memory.read, ih]

/-- A write adds no slot but its own. -/
theorem mem_write {m : Memory} {i : Nat} {v : Byte} {c : Host.Cell} (h : c ∈ Memory.write m i v) :
    c = (i, v) ∨ c ∈ m := by
  induction m with
  | nil => exact .inl (by simpa [Memory.write] using h)
  | cons d m ih =>
    unfold Memory.write at h
    split at h
    · simpa using h
    · split at h
      · exact (List.mem_cons.mp h).imp_right (List.mem_cons_of_mem d)
      · rcases List.mem_cons.mp h with rfl | h
        · exact .inr List.mem_cons_self
        · exact (ih h).imp_right (List.mem_cons_of_mem d)

/-- A write within the array keeps every listed slot within it. -/
theorem write_bounded {m : Memory} {i n : Nat} {v : Byte} (hi : i < n) (hm : ∀ c ∈ m, c.1 < n) :
    ∀ c ∈ Memory.write m i v, c.1 < n := fun c hc => by
  rcases mem_write hc with rfl | h
  · exact hi
  · exact hm c h

theorem wf_cons (c : Host.Cell) (m : Memory) :
    Memory.wf (c :: m) = true ↔ (∀ d, m.head? = some d → c.1 < d.1) ∧ Memory.wf m = true := by
  cases m <;> simp [Memory.wf]

/-- The first slot after a write is the slot written or the first slot before it. -/
theorem head_write {m : Memory} {i : Nat} {v : Byte} {d : Host.Cell} (h : (Memory.write m i v).head? = some d) :
    d = (i, v) ∨ m.head? = some d := by
  cases m with
  | nil => exact .inl (by simpa [Memory.write] using h.symm)
  | cons c m =>
    unfold Memory.write at h
    split at h
    · exact .inl (by simpa using h.symm)
    · split at h
      · exact .inl (by simpa using h.symm)
      · exact .inr (by simpa using h)

/-- A write keeps the canonical form. -/
theorem write_wf {m : Memory} {i : Nat} {v : Byte} (h : Memory.wf m = true) :
    Memory.wf (Memory.write m i v) = true := by
  induction m with
  | nil => rfl
  | cons c m ih =>
    obtain ⟨hc, hm⟩ := (wf_cons c m).mp h
    unfold Memory.write
    split
    · next hlt => exact (wf_cons _ _).mpr ⟨fun d hd => by simp at hd; subst hd; exact hlt, h⟩
    · split
      · next he => exact (wf_cons _ _).mpr ⟨fun d hd => he ▸ hc d hd, hm⟩
      · refine (wf_cons _ _).mpr ⟨fun d hd => ?_, ih hm⟩
        rcases head_write hd with rfl | hd
        · show c.1 < i
          omega
        · exact hc d hd

/-- At power-on nothing is listed in either block. -/
theorem reset_storage_wf (k : InstName) : Memory.wf (State.reset.block k).storage = true := by cases k <;> rfl

end Sys2Proof.Machine
end

