-- ==== Sys2Proof/Laws/State.lean ====
section
/-! SUPPORT. The laws of tables, one lemma per accessor and field for every update of the state, and the get and
set lemmas of blocks, responses and contexts, so that no later proof unfolds a record update. -/

namespace Sys2Proof.Machine

/-! ### Tables -/

section tables
variable {κ α : Type} [DecidableEq κ]

@[simp] theorem entryAt_setEntry_same (d : α) (k : κ) (x : α) (l : List (κ × α)) :
    entryAt d k (setEntry k x l) = x := by
  induction l with
  | nil => simp [setEntry, entryAt]
  | cons p rest ih => by_cases h : p.1 = k <;> simp [setEntry, entryAt, h, ih]

theorem entryAt_setEntry_ne (d : α) {k j : κ} (x : α) (l : List (κ × α)) (h : j ≠ k) :
    entryAt d j (setEntry k x l) = entryAt d j l := by
  induction l with
  | nil => simp [setEntry, entryAt, Ne.symm h]
  | cons p rest ih =>
    by_cases hp : p.1 = k
    · simp [setEntry, entryAt, hp, Ne.symm h]
    · simp only [setEntry, if_neg hp, entryAt, ih]

/-- Writing an entry twice is writing it once. -/
@[simp] theorem setEntry_setEntry (k : κ) (x y : α) (l : List (κ × α)) :
    setEntry k y (setEntry k x l) = setEntry k y l := by
  induction l with
  | nil => simp [setEntry]
  | cons p rest ih => by_cases h : p.1 = k <;> simp [setEntry, h, ih]

/-- Replacing an entry keeps the names. -/
theorem names_setEntry {k : κ} {l : List (κ × α)} (x : α) (h : k ∈ l.map Prod.fst) :
    (setEntry k x l).map Prod.fst = l.map Prod.fst := by
  induction l with
  | nil => simp at h
  | cons p rest ih =>
    by_cases hp : p.1 = k
    · simp [setEntry, hp]
    · have : k ∈ rest.map Prod.fst := by
        rcases List.mem_cons.mp h with e | e
        · exact absurd e.symm hp
        · exact e
      simp [setEntry, hp, ih this]

/-- An entry after a write is the one written or one from before. -/
theorem mem_setEntry {k : κ} {x : α} {l : List (κ × α)} {p : κ × α} (h : p ∈ setEntry k x l) :
    p = (k, x) ∨ p ∈ l := by
  induction l with
  | nil => exact .inl (by simpa [setEntry] using h)
  | cons q rest ih =>
    unfold setEntry at h
    split at h
    · exact (List.mem_cons.mp h).imp_right (List.mem_cons_of_mem q)
    · rcases List.mem_cons.mp h with rfl | h
      · exact .inr List.mem_cons_self
      · exact (ih h).imp_right (List.mem_cons_of_mem q)

/-- The entry written is there. -/
theorem setEntry_mem (k : κ) (x : α) (l : List (κ × α)) : (k, x) ∈ setEntry k x l := by
  induction l with
  | nil => simp [setEntry]
  | cons p rest ih => by_cases h : p.1 = k <;> simp [setEntry, h, ih]

/-- A name reads as its entry, or it has none and reads as the default. -/
theorem entryAt_cases (d : α) (k : κ) (l : List (κ × α)) :
    (k, entryAt d k l) ∈ l ∨ (k ∉ l.map Prod.fst ∧ entryAt d k l = d) := by
  induction l with
  | nil => exact .inr ⟨by simp, rfl⟩
  | cons p rest ih =>
    by_cases h : p.1 = k
    · subst h; left; simp [entryAt]
    · rcases ih with ih | ⟨ih, e⟩
      · left; simp only [entryAt, if_neg h]; exact List.mem_cons_of_mem _ ih
      · right; simp only [entryAt, if_neg h, List.map_cons, List.mem_cons, not_or]
        exact ⟨⟨Ne.symm h, ih⟩, e⟩

end tables

/-! ### Blocks, responses and contexts -/

@[simp] theorem block_setBlock_same (s : State) (k : InstName) (x : Block) : (s.setBlock k x).block k = x :=
  entryAt_setEntry_same _ k x _
theorem block_setBlock_ne (s : State) {k j : InstName} (x : Block) (h : j ≠ k) :
    (s.setBlock k x).block j = s.block j :=
  entryAt_setEntry_ne _ x _ h
@[simp] theorem get_set_same (r : Responses) (a : Agent) (v : Option Byte) : (r.set a v).get a = v := by
  cases a <;> rfl
theorem get_set_ne (r : Responses) {a b : Agent} (v : Option Byte) (h : b ≠ a) : (r.set a v).get b = r.get b := by
  cases a <;> cases b <;> first | rfl | exact absurd rfl h
@[simp] theorem set_set (r : Responses) (a : Agent) (v w : Option Byte) : (r.set a v).set a w = r.set a w := by
  cases a <;> rfl
@[simp] theorem resp_setResp_same (s : State) (k : InstName) (a : Agent) (v : Option Byte) :
    (s.setResp k a v).resp k a = v := by
  simp [State.setResp, State.resp]
theorem resp_setResp_ne (s : State) {k j : InstName} {a b : Agent} (v : Option Byte)
    (h : ¬(j = k ∧ b = a)) : (s.setResp k a v).resp j b = s.resp j b := by
  by_cases hj : j = k
  · subst hj
    simp only [State.setResp, State.resp, entryAt_setEntry_same]
    exact get_set_ne _ v fun e => h ⟨rfl, e⟩
  · simp only [State.setResp, State.resp, entryAt_setEntry_ne _ _ _ hj]
@[simp] theorem ctx_setCtx_same (s : State) (c : Context) (x : CtxState) : (s.setCtx c x).ctx c = x :=
  entryAt_setEntry_same _ c x _
theorem ctx_setCtx_ne (s : State) {c d : Context} (x : CtxState) (h : d ≠ c) :
    (s.setCtx c x).ctx d = s.ctx d :=
  entryAt_setEntry_ne _ x _ h

/-- Answering twice, and writing a block twice, is doing the second. -/
@[simp] theorem setResp_setResp (s : State) (k : InstName) (a : Agent) (v w : Option Byte) :
    (s.setResp k a v).setResp k a w = s.setResp k a w := by
  simp [State.setResp]
@[simp] theorem setBlock_setBlock (s : State) (k : InstName) (x y : Block) :
    (s.setBlock k x).setBlock k y = s.setBlock k y := by
  simp [State.setBlock]

/-! ### An update leaves the other accessors and fields alone -/

@[simp] theorem resp_setBlock (s : State) (k : InstName) (x : Block) (j : InstName) (d : Agent) : (s.setBlock k x).resp j d = s.resp j d := rfl
@[simp] theorem ctx_setBlock (s : State) (k : InstName) (x : Block) (d : Context) : (s.setBlock k x).ctx d = s.ctx d := rfl
@[simp] theorem wiring_setBlock (s : State) (k : InstName) (x : Block) : (s.setBlock k x).wiring = s.wiring := rfl
@[simp] theorem resps_setBlock (s : State) (k : InstName) (x : Block) : (s.setBlock k x).resps = s.resps := rfl
@[simp] theorem ctxs_setBlock (s : State) (k : InstName) (x : Block) : (s.setBlock k x).ctxs = s.ctxs := rfl
@[simp] theorem txn_setBlock (s : State) (k : InstName) (x : Block) : (s.setBlock k x).txn = s.txn := rfl
@[simp] theorem txArmed_setBlock (s : State) (k : InstName) (x : Block) : (s.setBlock k x).txArmed = s.txArmed := rfl
@[simp] theorem wire_setBlock (s : State) (k : InstName) (x : Block) : (s.setBlock k x).wire = s.wire := rfl
@[simp] theorem schedule_setBlock (s : State) (k : InstName) (x : Block) : (s.setBlock k x).schedule = s.schedule := rfl
@[simp] theorem draws_setBlock (s : State) (k : InstName) (x : Block) : (s.setBlock k x).draws = s.draws := rfl
@[simp] theorem picks_setBlock (s : State) (k : InstName) (x : Block) : (s.setBlock k x).picks = s.picks := rfl
@[simp] theorem block_setResp (s : State) (k : InstName) (a : Agent) (v : Option Byte) (j : InstName) : (s.setResp k a v).block j = s.block j := rfl
@[simp] theorem ctx_setResp (s : State) (k : InstName) (a : Agent) (v : Option Byte) (d : Context) : (s.setResp k a v).ctx d = s.ctx d := rfl
@[simp] theorem wiring_setResp (s : State) (k : InstName) (a : Agent) (v : Option Byte) : (s.setResp k a v).wiring = s.wiring := rfl
@[simp] theorem blocks_setResp (s : State) (k : InstName) (a : Agent) (v : Option Byte) : (s.setResp k a v).blocks = s.blocks := rfl
@[simp] theorem ctxs_setResp (s : State) (k : InstName) (a : Agent) (v : Option Byte) : (s.setResp k a v).ctxs = s.ctxs := rfl
@[simp] theorem txn_setResp (s : State) (k : InstName) (a : Agent) (v : Option Byte) : (s.setResp k a v).txn = s.txn := rfl
@[simp] theorem txArmed_setResp (s : State) (k : InstName) (a : Agent) (v : Option Byte) : (s.setResp k a v).txArmed = s.txArmed := rfl
@[simp] theorem wire_setResp (s : State) (k : InstName) (a : Agent) (v : Option Byte) : (s.setResp k a v).wire = s.wire := rfl
@[simp] theorem schedule_setResp (s : State) (k : InstName) (a : Agent) (v : Option Byte) : (s.setResp k a v).schedule = s.schedule := rfl
@[simp] theorem draws_setResp (s : State) (k : InstName) (a : Agent) (v : Option Byte) : (s.setResp k a v).draws = s.draws := rfl
@[simp] theorem picks_setResp (s : State) (k : InstName) (a : Agent) (v : Option Byte) : (s.setResp k a v).picks = s.picks := rfl
@[simp] theorem block_setCtx (s : State) (c : Context) (x : CtxState) (j : InstName) : (s.setCtx c x).block j = s.block j := rfl
@[simp] theorem resp_setCtx (s : State) (c : Context) (x : CtxState) (j : InstName) (d : Agent) : (s.setCtx c x).resp j d = s.resp j d := rfl
@[simp] theorem wiring_setCtx (s : State) (c : Context) (x : CtxState) : (s.setCtx c x).wiring = s.wiring := rfl
@[simp] theorem blocks_setCtx (s : State) (c : Context) (x : CtxState) : (s.setCtx c x).blocks = s.blocks := rfl
@[simp] theorem resps_setCtx (s : State) (c : Context) (x : CtxState) : (s.setCtx c x).resps = s.resps := rfl
@[simp] theorem txn_setCtx (s : State) (c : Context) (x : CtxState) : (s.setCtx c x).txn = s.txn := rfl
@[simp] theorem txArmed_setCtx (s : State) (c : Context) (x : CtxState) : (s.setCtx c x).txArmed = s.txArmed := rfl
@[simp] theorem wire_setCtx (s : State) (c : Context) (x : CtxState) : (s.setCtx c x).wire = s.wire := rfl
@[simp] theorem schedule_setCtx (s : State) (c : Context) (x : CtxState) : (s.setCtx c x).schedule = s.schedule := rfl
@[simp] theorem draws_setCtx (s : State) (c : Context) (x : CtxState) : (s.setCtx c x).draws = s.draws := rfl
@[simp] theorem picks_setCtx (s : State) (c : Context) (x : CtxState) : (s.setCtx c x).picks = s.picks := rfl
@[simp] theorem block_setSchedule (s : State) (l : List Move) (j : InstName) : (s.setSchedule l).block j = s.block j := rfl
@[simp] theorem resp_setSchedule (s : State) (l : List Move) (j : InstName) (d : Agent) : (s.setSchedule l).resp j d = s.resp j d := rfl
@[simp] theorem ctx_setSchedule (s : State) (l : List Move) (d : Context) : (s.setSchedule l).ctx d = s.ctx d := rfl
@[simp] theorem wiring_setSchedule (s : State) (l : List Move) : (s.setSchedule l).wiring = s.wiring := rfl
@[simp] theorem blocks_setSchedule (s : State) (l : List Move) : (s.setSchedule l).blocks = s.blocks := rfl
@[simp] theorem resps_setSchedule (s : State) (l : List Move) : (s.setSchedule l).resps = s.resps := rfl
@[simp] theorem ctxs_setSchedule (s : State) (l : List Move) : (s.setSchedule l).ctxs = s.ctxs := rfl
@[simp] theorem txn_setSchedule (s : State) (l : List Move) : (s.setSchedule l).txn = s.txn := rfl
@[simp] theorem txArmed_setSchedule (s : State) (l : List Move) : (s.setSchedule l).txArmed = s.txArmed := rfl
@[simp] theorem wire_setSchedule (s : State) (l : List Move) : (s.setSchedule l).wire = s.wire := rfl
@[simp] theorem schedule_setSchedule (s : State) (l : List Move) : (s.setSchedule l).schedule = l := rfl
@[simp] theorem draws_setSchedule (s : State) (l : List Move) : (s.setSchedule l).draws = s.draws := rfl
@[simp] theorem picks_setSchedule (s : State) (l : List Move) : (s.setSchedule l).picks = s.picks := rfl
@[simp] theorem block_setArmed (s : State) (b : Bool) (j : InstName) : (s.setArmed b).block j = s.block j := rfl
@[simp] theorem resp_setArmed (s : State) (b : Bool) (j : InstName) (d : Agent) : (s.setArmed b).resp j d = s.resp j d := rfl
@[simp] theorem ctx_setArmed (s : State) (b : Bool) (d : Context) : (s.setArmed b).ctx d = s.ctx d := rfl
@[simp] theorem wiring_setArmed (s : State) (b : Bool) : (s.setArmed b).wiring = s.wiring := rfl
@[simp] theorem blocks_setArmed (s : State) (b : Bool) : (s.setArmed b).blocks = s.blocks := rfl
@[simp] theorem resps_setArmed (s : State) (b : Bool) : (s.setArmed b).resps = s.resps := rfl
@[simp] theorem ctxs_setArmed (s : State) (b : Bool) : (s.setArmed b).ctxs = s.ctxs := rfl
@[simp] theorem txn_setArmed (s : State) (b : Bool) : (s.setArmed b).txn = s.txn := rfl
@[simp] theorem txArmed_setArmed (s : State) (b : Bool) : (s.setArmed b).txArmed = b := rfl
@[simp] theorem wire_setArmed (s : State) (b : Bool) : (s.setArmed b).wire = s.wire := rfl
@[simp] theorem schedule_setArmed (s : State) (b : Bool) : (s.setArmed b).schedule = s.schedule := rfl
@[simp] theorem draws_setArmed (s : State) (b : Bool) : (s.setArmed b).draws = s.draws := rfl
@[simp] theorem picks_setArmed (s : State) (b : Bool) : (s.setArmed b).picks = s.picks := rfl
@[simp] theorem block_setWire (s : State) (l : List Byte) (j : InstName) : (s.setWire l).block j = s.block j := rfl
@[simp] theorem resp_setWire (s : State) (l : List Byte) (j : InstName) (d : Agent) : (s.setWire l).resp j d = s.resp j d := rfl
@[simp] theorem ctx_setWire (s : State) (l : List Byte) (d : Context) : (s.setWire l).ctx d = s.ctx d := rfl
@[simp] theorem wiring_setWire (s : State) (l : List Byte) : (s.setWire l).wiring = s.wiring := rfl
@[simp] theorem blocks_setWire (s : State) (l : List Byte) : (s.setWire l).blocks = s.blocks := rfl
@[simp] theorem resps_setWire (s : State) (l : List Byte) : (s.setWire l).resps = s.resps := rfl
@[simp] theorem ctxs_setWire (s : State) (l : List Byte) : (s.setWire l).ctxs = s.ctxs := rfl
@[simp] theorem txn_setWire (s : State) (l : List Byte) : (s.setWire l).txn = s.txn := rfl
@[simp] theorem txArmed_setWire (s : State) (l : List Byte) : (s.setWire l).txArmed = s.txArmed := rfl
@[simp] theorem wire_setWire (s : State) (l : List Byte) : (s.setWire l).wire = l := rfl
@[simp] theorem schedule_setWire (s : State) (l : List Byte) : (s.setWire l).schedule = s.schedule := rfl
@[simp] theorem draws_setWire (s : State) (l : List Byte) : (s.setWire l).draws = s.draws := rfl
@[simp] theorem picks_setWire (s : State) (l : List Byte) : (s.setWire l).picks = s.picks := rfl
@[simp] theorem block_countDraw (s : State) (j : InstName) : (s.countDraw).block j = s.block j := rfl
@[simp] theorem resp_countDraw (s : State) (j : InstName) (d : Agent) : (s.countDraw).resp j d = s.resp j d := rfl
@[simp] theorem ctx_countDraw (s : State) (d : Context) : (s.countDraw).ctx d = s.ctx d := rfl
@[simp] theorem wiring_countDraw (s : State) : (s.countDraw).wiring = s.wiring := rfl
@[simp] theorem blocks_countDraw (s : State) : (s.countDraw).blocks = s.blocks := rfl
@[simp] theorem resps_countDraw (s : State) : (s.countDraw).resps = s.resps := rfl
@[simp] theorem ctxs_countDraw (s : State) : (s.countDraw).ctxs = s.ctxs := rfl
@[simp] theorem txn_countDraw (s : State) : (s.countDraw).txn = s.txn := rfl
@[simp] theorem txArmed_countDraw (s : State) : (s.countDraw).txArmed = s.txArmed := rfl
@[simp] theorem wire_countDraw (s : State) : (s.countDraw).wire = s.wire := rfl
@[simp] theorem schedule_countDraw (s : State) : (s.countDraw).schedule = s.schedule := rfl
@[simp] theorem draws_countDraw (s : State) : (s.countDraw).draws = s.draws + 1 := rfl
@[simp] theorem picks_countDraw (s : State) : (s.countDraw).picks = s.picks := rfl
@[simp] theorem block_countPick (s : State) (j : InstName) : (s.countPick).block j = s.block j := rfl
@[simp] theorem resp_countPick (s : State) (j : InstName) (d : Agent) : (s.countPick).resp j d = s.resp j d := rfl
@[simp] theorem ctx_countPick (s : State) (d : Context) : (s.countPick).ctx d = s.ctx d := rfl
@[simp] theorem wiring_countPick (s : State) : (s.countPick).wiring = s.wiring := rfl
@[simp] theorem blocks_countPick (s : State) : (s.countPick).blocks = s.blocks := rfl
@[simp] theorem resps_countPick (s : State) : (s.countPick).resps = s.resps := rfl
@[simp] theorem ctxs_countPick (s : State) : (s.countPick).ctxs = s.ctxs := rfl
@[simp] theorem txn_countPick (s : State) : (s.countPick).txn = s.txn := rfl
@[simp] theorem txArmed_countPick (s : State) : (s.countPick).txArmed = s.txArmed := rfl
@[simp] theorem wire_countPick (s : State) : (s.countPick).wire = s.wire := rfl
@[simp] theorem schedule_countPick (s : State) : (s.countPick).schedule = s.schedule := rfl
@[simp] theorem draws_countPick (s : State) : (s.countPick).draws = s.draws := rfl
@[simp] theorem picks_countPick (s : State) : (s.countPick).picks = s.picks + 1 := rfl
@[simp] theorem block_present (s : State) (k : InstName) (a : Agent) (w : Cmd) (j : InstName) : (s.present k a w).block j = s.block j := rfl
@[simp] theorem resp_present (s : State) (k : InstName) (a : Agent) (w : Cmd) (j : InstName) (d : Agent) : (s.present k a w).resp j d = s.resp j d := rfl
@[simp] theorem ctx_present (s : State) (k : InstName) (a : Agent) (w : Cmd) (d : Context) : (s.present k a w).ctx d = s.ctx d := rfl
@[simp] theorem wiring_present (s : State) (k : InstName) (a : Agent) (w : Cmd) : (s.present k a w).wiring = s.wiring := rfl
@[simp] theorem blocks_present (s : State) (k : InstName) (a : Agent) (w : Cmd) : (s.present k a w).blocks = s.blocks := rfl
@[simp] theorem resps_present (s : State) (k : InstName) (a : Agent) (w : Cmd) : (s.present k a w).resps = s.resps := rfl
@[simp] theorem ctxs_present (s : State) (k : InstName) (a : Agent) (w : Cmd) : (s.present k a w).ctxs = s.ctxs := rfl
@[simp] theorem txn_present (s : State) (k : InstName) (a : Agent) (w : Cmd) : (s.present k a w).txn = ⟨k, a, w⟩ := rfl
@[simp] theorem txArmed_present (s : State) (k : InstName) (a : Agent) (w : Cmd) : (s.present k a w).txArmed = s.txArmed := rfl
@[simp] theorem wire_present (s : State) (k : InstName) (a : Agent) (w : Cmd) : (s.present k a w).wire = s.wire := rfl
@[simp] theorem schedule_present (s : State) (k : InstName) (a : Agent) (w : Cmd) : (s.present k a w).schedule = s.schedule := rfl
@[simp] theorem draws_present (s : State) (k : InstName) (a : Agent) (w : Cmd) : (s.present k a w).draws = s.draws := rfl
@[simp] theorem picks_present (s : State) (k : InstName) (a : Agent) (w : Cmd) : (s.present k a w).picks = s.picks := rfl

/-! ### The block of the transaction under way -/

@[simp] theorem cur_setCur (s : State) (x : Block) : (s.setCur x).cur = x := by
  simp [State.cur, State.setCur]
@[simp] theorem resp_setCur (s : State) (y : Block) (j : InstName) (d : Agent) : (s.setCur y).resp j d = s.resp j d := rfl
@[simp] theorem ctx_setCur (s : State) (y : Block) (d : Context) : (s.setCur y).ctx d = s.ctx d := rfl
@[simp] theorem wiring_setCur (s : State) (y : Block) : (s.setCur y).wiring = s.wiring := rfl
@[simp] theorem resps_setCur (s : State) (y : Block) : (s.setCur y).resps = s.resps := rfl
@[simp] theorem ctxs_setCur (s : State) (y : Block) : (s.setCur y).ctxs = s.ctxs := rfl
@[simp] theorem txn_setCur (s : State) (y : Block) : (s.setCur y).txn = s.txn := rfl
@[simp] theorem txArmed_setCur (s : State) (y : Block) : (s.setCur y).txArmed = s.txArmed := rfl
@[simp] theorem wire_setCur (s : State) (y : Block) : (s.setCur y).wire = s.wire := rfl
@[simp] theorem schedule_setCur (s : State) (y : Block) : (s.setCur y).schedule = s.schedule := rfl
@[simp] theorem draws_setCur (s : State) (y : Block) : (s.setCur y).draws = s.draws := rfl
@[simp] theorem picks_setCur (s : State) (y : Block) : (s.setCur y).picks = s.picks := rfl
theorem block_setCur_ne (s : State) (x : Block) {k : InstName} (h : k ≠ s.txn.inst) :
    (s.setCur x).block k = s.block k :=
  block_setBlock_ne s x h
@[simp] theorem cur_present (s : State) (k : InstName) (a : Agent) (w : Cmd) : (s.present k a w).cur = s.block k := rfl

/-! ### Invariants over the tables, by name -/

/-- A block at power-on meets the invariant. -/
theorem powerOn_inv (k : InstName) (c : Capacity) : (Block.powerOn k c).Inv :=
  ⟨rfl, fun _ h => (List.not_mem_nil h).elim, nofun⟩

/-- Every name reads as a block that meets the invariant. -/
theorem State.Inv.block {s : State} (h : s.Inv) (k : InstName) : (s.block k).Inv := by
  rcases entryAt_cases (Block.powerOn k (Config.capacity k)) k s.blocks with hm | ⟨_, e⟩
  · exact h _ hm
  · rw [State.block, e]; exact powerOn_inv _ _

/-- A context that has no entry has no program. -/
theorem mem_ctxs_of_prog {s : State} {c : Context} (h : (s.ctx c).prog ≠ .done) : c ∈ s.ctxs.map Prod.fst := by
  rcases entryAt_cases CtxState.idle c s.ctxs with hm | ⟨_, e⟩
  · exact List.mem_map.mpr ⟨_, hm, rfl⟩
  · exact absurd (by rw [State.ctx, e]; rfl) h

/-! ### Wiring -/

/-- A context holds a role where it is the holder, and only there. -/
theorem holds_iff (y : Wiring) (c : Context) (k : InstName) (a : Agent) :
    y.holds c k a = true ↔ y.holder? k a = some c := by
  simp [Wiring.holds]

/-- Each role of each instance of the system has a holder; an instance that the system has not has none. -/
theorem holder_isSome (y : Wiring) (k : InstName) (a : Agent) : (y.holder? k a).isSome = true ↔ k ∈ y.names := by
  induction y with
  | nil => simp [Wiring.holder?, Wiring.names]
  | cons p rest ih =>
    by_cases h : p.1 = k
    · simp [Wiring.holder?, Wiring.names, h]
    · simp only [Wiring.holder?, if_neg h, ih, Wiring.names, List.map_cons, List.mem_cons, Ne.symm h, false_or]

/-- A role has one holder. -/
theorem holds_unique {y : Wiring} {c d : Context} {k : InstName} {a : Agent} (h : y.holds c k a = true)
    (g : y.holds d k a = true) : d = c := by
  rw [holds_iff] at h g
  exact Option.some.inj (g.symm.trans h)

/-- Only an instance of the system has a role to hold. -/
theorem mem_names_of_holds {y : Wiring} {c : Context} {k : InstName} {a : Agent} (h : y.holds c k a = true) :
    k ∈ y.names :=
  (holder_isSome y k a).mp (by rw [(holds_iff _ _ _ _).mp h]; rfl)

end Sys2Proof.Machine
end

