-- ==== Sys2Proof/Laws/Ops.lean ====
section
/-! SUPPORT. For each shared operation, once, everything it can do. -/

namespace Sys2Proof.Machine

/-! ### Leaving the rest of the system alone -/

theorem SameElsewhere.refl (s : State) : SameElsewhere s s :=
  ⟨fun _ _ => rfl, fun _ _ _ => rfl, rfl, rfl, rfl, fun _ => rfl, rfl, rfl, rfl, rfl⟩

theorem SameElsewhere.trans {s t u : State} (h : SameElsewhere s t) (g : SameElsewhere t u) :
    SameElsewhere s u where
  block_ne k e := (g.block_ne k (h.txn ▸ e)).trans (h.block_ne k e)
  resp_ne k a e := (g.resp_ne k a (h.txn ▸ e)).trans (h.resp_ne k a e)
  txn := g.txn.trans h.txn
  txArmed := g.txArmed.trans h.txArmed
  wire := g.wire.trans h.wire
  ctx c := (g.ctx c).trans (h.ctx c)
  schedule := g.schedule.trans h.schedule
  cap := g.cap.trans h.cap
  wiring := g.wiring.trans h.wiring
  picks := g.picks.trans h.picks

/-- Replacing the block of the transaction by one of the same capacity. -/
theorem setCur_same (s : State) {x : Block} (h : x.cap = s.cur.cap) : SameElsewhere s (s.setCur x) :=
  ⟨fun _ e => block_setCur_ne s x e, fun _ _ _ => rfl, rfl, rfl, rfl, fun _ => rfl, rfl, by simpa using h, rfl, rfl⟩

/-- Answering: nothing changes but the response on the port of the transaction. -/
theorem respond_spec (r : Option Byte) (s : State) :
    SameElsewhere s (respond r s) ∧ (respond r s).cur = s.cur ∧ (respond r s).answer = r ∧
      (respond r s).draws = s.draws := by
  exact ⟨⟨fun _ _ => rfl, fun k a h => resp_setResp_ne s r h, rfl, rfl, rfl, fun _ => rfl, rfl, rfl, rfl, rfl⟩, rfl,
    resp_setResp_same _ _ _ _, rfl⟩

/-- Answering with a draw: as any answer, and one draw more is taken. -/
theorem respondDraw_spec (s : State) :
    SameElsewhere s (respondDraw s) ∧ (respondDraw s).cur = s.cur ∧ AnswersDraw s (respondDraw s) := by
  obtain ⟨h, hc, ha, hd⟩ := respond_spec (some (Config.draw s.draws)) s.countDraw
  have hs : SameElsewhere s s.countDraw :=
    ⟨fun _ _ => rfl, fun _ _ _ => rfl, rfl, rfl, rfl, fun _ => rfl, rfl, rfl, rfl, rfl⟩
  exact ⟨hs.trans h, hc, ha, hd⟩

/-- The response of a faulting operation, as 60_exceptions.md R107 names it. -/
theorem drawFor_spec (i : Instr) (s : State) :
    SameElsewhere s (drawFor (respKind i) s) ∧ (drawFor (respKind i) s).cur = s.cur ∧
      AnswersFault i s (drawFor (respKind i) s) := by
  obtain ⟨h, hc, ha, hd⟩ := respond_spec none s
  cases i with
  | init => exact ⟨h, hc, ha, hd⟩
  | insert b => exact ⟨h, hc, ha, hd⟩
  | isEmpty => exact respondDraw_spec s
  | isFull => exact respondDraw_spec s
  | remove => exact respondDraw_spec s

/-- Raising a fault: one record more in the log of the block and nothing else (60_exceptions.md R97). -/
theorem raise_spec (c : Cause) (s : State) :
    RecordsFault c s (raise c s) ∧ (raise c s).draws = s.draws := by
  refine ⟨⟨by simp [raise, Block.log, faultRecord], setCur_same s rfl⟩, by simp [raise]⟩

/-- An operation that faults: its record and its response. -/
theorem violate_spec (c : Cause) (i : Instr) (s : State) :
    RecordsFault c s (violate c i s) ∧ AnswersFault i s (violate c i s) := by
  obtain ⟨⟨hr, hs⟩, hd⟩ := raise_spec c s
  obtain ⟨gs, gc, ga⟩ := drawFor_spec i (raise c s)
  refine ⟨⟨gc.trans hr, hs.trans gs⟩, ?_⟩
  have hx : (raise c s).draws = s.draws := hd
  cases i <;> simpa [violate, AnswersFault, AnswersNone, AnswersDraw, hx] using ga

/-- A word that spells no operation: its record and no response (60_exceptions.md R100). -/
theorem violateReserved_spec (s : State) :
    RecordsFault .reservedOpcode s (violateReserved s) ∧ AnswersNone s (violateReserved s) := by
  obtain ⟨⟨hr, hs⟩, hd⟩ := raise_spec .reservedOpcode s
  obtain ⟨gs, gc, ga, gd⟩ := respond_spec none (raise .reservedOpcode s)
  exact ⟨⟨gc.trans hr, hs.trans gs⟩, ga, gd.trans hd⟩

/-! ### The common checks -/

theorem commonCheck_cases (i : Instr) (s : State) :
    (permitted i s.txn.agent = false ∧ commonCheck i s = some .roleViolation) ∨
    (permitted i s.txn.agent = true ∧ i ≠ .init ∧ s.cur.initDone = false ∧
      commonCheck i s = some .notInitialized) ∨
    (permitted i s.txn.agent = true ∧ (i = .init ∨ s.cur.initDone = true) ∧ commonCheck i s = none) := by
  unfold commonCheck
  cases hp : permitted i s.txn.agent <;> cases hd : s.cur.initDone <;> by_cases hi : i = .init <;> simp [hi]

/-! ### What follows a transaction in its step -/

theorem block_setProg (s : State) (c : Context) (p : Prog) (k : InstName) : (s.setProg c p).block k = s.block k :=
  rfl

/-- What is left alone by whatever a context does between two operations of the block: every block, every
response, the transaction, the order of steps, the draws, the wiring and every other context. -/
structure LocalTo (c : Context) (s t : State) : Prop where
  blocks   : t.blocks = s.blocks
  resps    : t.resps = s.resps
  txn      : t.txn = s.txn
  schedule : t.schedule = s.schedule
  draws    : t.draws = s.draws
  wiring   : t.wiring = s.wiring
  picks    : t.picks = s.picks
  ctx_ne   : ∀ d, d ≠ c → t.ctx d = s.ctx d

theorem LocalTo.refl (c : Context) (s : State) : LocalTo c s s := ⟨rfl, rfl, rfl, rfl, rfl, rfl, rfl, fun _ _ => rfl⟩

theorem LocalTo.trans {c : Context} {s t u : State} (h : LocalTo c s t) (g : LocalTo c t u) : LocalTo c s u where
  blocks := g.blocks.trans h.blocks
  resps := g.resps.trans h.resps
  txn := g.txn.trans h.txn
  schedule := g.schedule.trans h.schedule
  draws := g.draws.trans h.draws
  wiring := g.wiring.trans h.wiring
  picks := g.picks.trans h.picks
  ctx_ne d e := (g.ctx_ne d e).trans (h.ctx_ne d e)

theorem LocalTo.block {c : Context} {s t : State} (h : LocalTo c s t) (k : InstName) : t.block k = s.block k := by
  rw [State.block, h.blocks]; rfl

theorem setProg_local (s : State) (c : Context) (p : Prog) : LocalTo c s (s.setProg c p) :=
  ⟨rfl, rfl, rfl, rfl, rfl, rfl, rfl, fun _ h => ctx_setCtx_ne s _ h⟩

theorem setEnv_local (s : State) (c : Context) (e : List (Var × Byte)) : LocalTo c s (s.setEnv c e) :=
  ⟨rfl, rfl, rfl, rfl, rfl, rfl, rfl, fun _ h => ctx_setCtx_ne s _ h⟩

theorem armed_local (s : State) (c : Context) (b : Bool) : LocalTo c s (s.setArmed b) :=
  ⟨rfl, rfl, rfl, rfl, rfl, rfl, rfl, fun _ _ => rfl⟩

theorem wire_local (s : State) (c : Context) (w : List Byte) : LocalTo c s (s.setWire w) :=
  ⟨rfl, rfl, rfl, rfl, rfl, rfl, rfl, fun _ _ => rfl⟩

theorem queue_local (s : State) (c : Context) (p : Prog) : LocalTo c s (s.queue c p) := setProg_local s c _

theorem bindResponse_local (c : Context) (x : Option Var) (r : Option Byte) (s : State) :
    LocalTo c s (bindResponse c x r s) := by
  cases x with
  | none => exact .refl c s
  | some v => exact setEnv_local s c _

/-- Settling is local to its context. -/
theorem settleFuel_local (n : Nat) (c : Context) (s : State) : LocalTo c s (settleFuel n c s) := by
  induction n generalizing s with
  | zero => exact .refl _ _
  | succ n ih =>
    unfold settleFuel
    split
    · split
      · exact (setProg_local s c _).trans (ih _)
      · exact (setProg_local s c _).trans (ih _)
      · exact .refl _ _
    · split
      · exact ((setProg_local s c _).trans (setEnv_local _ c _)).trans (ih _)
      · exact .refl _ _
    · exact ((setProg_local s c _).trans (armed_local _ c _)).trans (ih _)
    · split
      · exact ((setProg_local s c _).trans (wire_local _ c _)).trans (ih _)
      · exact .refl _ _
    all_goals exact .refl _ _

theorem settle_local (c : Context) (s : State) : LocalTo c s (settle c s) := settleFuel_local _ c s

/-- What a context's step is: a transaction on a port it holds followed by local work, or local work only. -/
theorem runContext_cases {c : Context} {s t : State} (h : runContext c s = .next t) :
    (∃ k a w x rest u, (s.ctx c).prog = .command k a w x rest ∧ s.wiring.holds c k a = true ∧
      transact k a w (s.setProg c rest) = .next u ∧ t = settle c (bindResponse c x (u.resp k a) u)) ∨
    LocalTo c s t := by
  unfold runContext at h
  split at h
  · cases h; exact .inr (.refl _ _)
  · next k a w x rest hp =>
    split at h
    · next hh =>
      cases hu : transact k a w (s.setProg c rest) with
      | next u => rw [hu] at h; cases h; exact .inl ⟨k, a, w, x, rest, u, hp, hh, hu, rfl⟩
      | fault f => rw [hu] at h; cases h
      | refused r => rw [hu] at h; cases h
    · cases h
  · cases h; exact .inr (((setProg_local s c _).trans (armed_local _ c _)).trans (settle_local _ _))
  · split at h
    · cases h; exact .inr ((setProg_local s c _).trans (settle_local _ _))
    · cases h; exact .inr ((setProg_local s c _).trans (settle_local _ _))
    · cases h
  · split at h <;> cases h; exact .inr (settle_local _ _)
  · split at h <;> cases h; exact .inr (settle_local _ _)
  · cases h; exact .inr (settle_local _ _)
  · split at h <;> cases h; exact .inr (settle_local _ _)

/-! ### The order of steps and the end of a run (20_memory.md R50; 70_reset_and_hazards.md R134) -/

theorem progEnded_iff (p : Prog) : progEnded p = true ↔ p = .done := by cases p <;> simp [progEnded]

/-- The running contexts are those whose program has not ended. -/
theorem mem_running {s : State} {c : Context} : c ∈ s.running ↔ (s.ctx c).prog ≠ .done := by
  simp only [State.running, List.mem_filter, Bool.not_eq_true', ← Bool.not_eq_true, progEnded_iff]
  exact ⟨fun h => h.2, fun h => ⟨mem_ctxs_of_prog h, h⟩⟩

/-- The run has ended exactly when every program has and no notification is to come. -/
theorem ended_iff (s : State) :
    s.ended = true ↔ (∀ c, (s.ctx c).prog = .done) ∧ ∀ m ∈ s.schedule, isNotification m = false := by
  simp only [State.ended, Bool.and_eq_true, List.isEmpty_iff, Bool.not_eq_true', List.any_eq_false,
    Bool.not_eq_true]
  refine and_congr_left fun _ => ⟨fun h c => ?_, fun h => List.eq_nil_iff_forall_not_mem.mpr fun c hc => ?_⟩
  · by_contra hc
    have := mem_running.mpr hc
    rw [h] at this
    exact List.not_mem_nil this
  · exact mem_running.mp hc (h c)

theorem not_ended {s : State} {c : Context} (h : (s.ctx c).prog ≠ .done) : s.ended = false := by
  rw [← Bool.not_eq_true, ended_iff]
  exact fun e => h (e.1 c)

/-- A run that has ended stays as it is. -/
theorem step_ended {s : State} (h : s.ended = true) : step s = .next s := by simp [step, h]

/-- The next move of the schedule is taken. -/
theorem step_move {s : State} {m : Move} {rest : List Move} (h : s.ended = false) (hs : s.schedule = m :: rest) :
    step s = runMove m (s.setSchedule rest) := by
  simp [step, h, takeStep, hs]

/-- A context with a program left takes its turn. -/
theorem step_run {s : State} {c : Context} {rest : List Move} (hs : s.schedule = .run c :: rest)
    (h : (s.ctx c).prog ≠ .done) : step s = runContext c (s.setSchedule rest) :=
  step_move (not_ended h) hs

/-- Where the schedule gives no move, the free choice falls on a context whose program has not ended. -/
theorem step_free_mover {s : State} (h : s.ended = false) (hs : s.schedule = []) :
    ∃ c, (s.ctx c).prog ≠ .done ∧ s.nextContext = some c := by
  have hr : s.running ≠ [] := by
    intro e
    rw [State.ended, e, hs] at h
    cases h
  have hlt : Config.nextContext s.picks % s.running.length < s.running.length :=
    Nat.mod_lt _ (List.length_pos_iff.mpr hr)
  exact ⟨_, mem_running.mp (List.getElem_mem hlt), List.getElem?_eq_getElem hlt⟩

/-- That context takes its turn. -/
theorem step_free {s : State} (h : s.ended = false) (hs : s.schedule = []) :
    ∃ c, (s.ctx c).prog ≠ .done ∧ step s = runContext c s.countPick := by
  obtain ⟨c, hc, hn⟩ := step_free_mover h hs
  exact ⟨c, hc, by simp [step, h, takeStep, hs, hn]⟩

theorem txReady_iff (s : State) : s.txReady = true ↔ s.txArmed = true ∧ (s.ctx .tx).prog = .done := by
  rw [State.txReady, Bool.and_eq_true, progEnded_iff]

/-- With a notification to come the run has not ended. -/
theorem not_ended_of_notification {s : State} {m : Move} {rest : List Move} (hs : s.schedule = m :: rest)
    (hm : isNotification m = true) : s.ended = false := by
  rw [← Bool.not_eq_true, ended_iff]
  intro e
  have := e.2 m (by rw [hs]; exact List.mem_cons_self)
  rw [hm] at this
  cases this

/-- A transmit-ready that is raised is the first step of its handler. -/
theorem step_ready {s : State} {rest : List Move} (hs : s.schedule = .transmitReady :: rest)
    (h : s.txReady = true) : step s = runContext .tx ((s.setSchedule rest).setProg .tx txHandler) := by
  rw [step_move (not_ended_of_notification hs rfl) hs]
  exact if_pos h

/-- One that is not raised is used up, and nothing else happens. -/
theorem step_not_ready {s : State} {rest : List Move} (hs : s.schedule = .transmitReady :: rest)
    (h : s.txReady = false) : step s = .next (s.setSchedule rest) := by
  rw [step_move (not_ended_of_notification hs rfl) hs]
  exact if_neg (by rw [Bool.not_eq_true]; exact h)

/-- The context that goes next takes its turn. -/
theorem step_mover {s : State} {c : Context} (hm : s.mover = some c) (h : (s.turn.ctx c).prog ≠ .done) :
    step s = runContext c s.turn := by
  unfold State.mover at hm
  unfold State.turn at h ⊢
  split at hm
  · next hs =>
    rw [hs] at h
    have he : s.ended = false := not_ended h
    simp [step, he, takeStep, hs, hm]
  · next d rest hs => cases hm; rw [hs] at h; exact step_run hs h
  · cases hm
  · next rest hs =>
    split at hm
    · next hr => cases hm; rw [if_pos hr]; exact step_ready hs hr
    · cases hm

/-- Where a context steps, it is the one that goes next. -/
theorem step_of_not_next {s : State} (h : ∀ t, step s ≠ .next t) :
    ∃ c, s.mover = some c ∧ step s = runContext c s.turn := by
  cases he : s.ended with
  | true => exact absurd (step_ended he) (h s)
  | false =>
    cases hs : s.schedule with
    | nil =>
      obtain ⟨c, hc, hn⟩ := step_free_mover he hs
      exact ⟨c, by simp [State.mover, hs, hn],
        step_mover (by simp [State.mover, hs, hn]) (by rw [State.turn, hs]; exact hc)⟩
    | cons m rest =>
      cases m with
      | run c => exact ⟨c, by simp [State.mover, hs], by rw [step_move he hs, State.turn, hs]; rfl⟩
      | byteReceived b => exact absurd (step_move he hs) (h _)
      | transmitReady =>
        cases hr : s.txReady with
        | true =>
          exact ⟨.tx, by simp [State.mover, hs, hr], by rw [step_ready hs hr, State.turn, hs]; simp only [hr, if_true]⟩
        | false => exact absurd (step_not_ready hs hr) (h _)

/-- A state with another order of steps to come. -/
def State.reorder (s : State) (l : List Move) (n : Nat) : State := { s with schedule := l, picks := n }

/-- What a step is: none, since the run has ended; a context's step; a byte-received notification that queues its
handler; a transmit-ready notification with the first step of its handler; or one that the transport does not
raise. -/
inductive StepOf (s : State) : State → Prop where
  | ended (h : s.ended = true) : StepOf s s
  | ran (l : List Move) (n : Nat) (c : Context) {t : State} (h : runContext c (s.reorder l n) = .next t) : StepOf s t
  | received (l : List Move) (b : Byte) : StepOf s ((s.reorder l s.picks).queue .rx (rxHandler b))
  | ready (l : List Move) (hr : s.txReady = true) {t : State}
      (h : runContext .tx ((s.reorder l s.picks).setProg .tx txHandler) = .next t) : StepOf s t
  | ignored (l : List Move) : StepOf s (s.reorder l s.picks)

theorem step_of {s t : State} (h : step s = .next t) : StepOf s t := by
  cases he : s.ended with
  | true => rw [step_ended he] at h; cases h; exact .ended he
  | false =>
    cases hs : s.schedule with
    | nil =>
      obtain ⟨c, _, hc⟩ := step_free he hs
      exact .ran s.schedule (s.picks + 1) c (hc ▸ h)
    | cons m rest =>
      rw [step_move he hs] at h
      cases m with
      | run c => exact .ran rest s.picks c h
      | byteReceived b => cases h; exact .received rest b
      | transmitReady =>
        simp only [runMove] at h
        split at h
        · next hr => exact .ready (s := s) rest hr h
        · cases h; exact .ignored rest

end Sys2Proof.Machine
end

