-- ==== Sys2Proof/Laws/Exec.lean ====
section
/-! SUPPORT. Everything exec and a transaction can do, once: which meaning applies, what it does to the block,
and what it does to the block's contents. -/

namespace Sys2Proof.Machine

/-! ### The outcomes of exec -/

/-- An operation that fails a common check records it and does nothing else. -/
theorem exec_of_check {c : Cause} {i : Instr} {s : State} (h : commonCheck i s = some c) :
    exec i s = .next (violate c i s) := by
  cases i <;> simp [exec, execInit, execIsEmpty, execIsFull, execInsert, execRemove, h]

/-- The common checks pass for a permitted agent of an initialised block, and for the Owner's INIT. -/
theorem check_passes {i : Instr} {s : State} (hp : permitted i s.txn.agent = true)
    (hd : i = .init ∨ s.cur.initDone = true) : commonCheck i s = none := by
  rcases commonCheck_cases i s with ⟨h, _⟩ | ⟨_, h, h', _⟩ | ⟨_, _, h⟩
  · rw [hp] at h; cases h
  · rcases hd with hd | hd
    · exact absurd hd h
    · rw [hd] at h'; cases h'
  · exact h

theorem exec_init {s : State} (ha : s.txn.agent = .owner) :
    exec .init s = .next (respond none (s.setCur s.cur.clear)) := by
  simp only [exec, execInit, check_passes (i := .init) (s := s) (by rw [ha]; rfl) (.inl rfl)]

theorem exec_isEmpty {s : State} (hp : permitted .isEmpty s.txn.agent = true) (hd : s.cur.initDone = true) :
    exec .isEmpty s = .next (respond (some (flagResp (emptyFlag s.cur))) s) := by
  simp only [exec, execIsEmpty, check_passes hp (.inr hd)]

theorem exec_isFull {s : State} (hp : permitted .isFull s.txn.agent = true) (hd : s.cur.initDone = true) :
    exec .isFull s = .next (respond (some (flagResp (fullFlag s.cur))) s) := by
  simp only [exec, execIsFull, check_passes hp (.inr hd)]

theorem exec_insert {s : State} (b : Byte) (ha : s.txn.agent = .producer) (hd : s.cur.initDone = true)
    (hf : s.cur.count.val ≠ s.cur.size) : exec (.insert b) s = .next (respond none (s.setCur (s.cur.push b hf))) := by
  simp only [exec, execInsert, check_passes (i := .insert b) (s := s) (by rw [ha]; rfl) (.inr hd), dif_neg hf]

theorem exec_insert_full {s : State} (b : Byte) (ha : s.txn.agent = .producer) (hd : s.cur.initDone = true)
    (hf : s.cur.count.val = s.cur.size) : exec (.insert b) s = .next (violate .insertWhenFull (.insert b) s) := by
  simp only [exec, execInsert, check_passes (i := .insert b) (s := s) (by rw [ha]; rfl) (.inr hd), dif_pos hf]

theorem exec_remove {s : State} (ha : s.txn.agent = .consumer) (hd : s.cur.initDone = true)
    (h0 : s.cur.count.val ≠ 0) :
    exec .remove s =
      .next (respondSlot (Memory.read s.cur.storage (removeSlot s.cur)) (s.setCur s.cur.pop)) := by
  simp only [exec, execRemove, check_passes (i := .remove) (s := s) (by rw [ha]; rfl) (.inr hd), if_neg h0]

theorem exec_remove_empty {s : State} (ha : s.txn.agent = .consumer) (hd : s.cur.initDone = true)
    (h0 : s.cur.count.val = 0) : exec .remove s = .next (violate .removeWhenEmpty .remove s) := by
  simp only [exec, execRemove, check_passes (i := .remove) (s := s) (by rw [ha]; rfl) (.inr hd), if_pos h0]

/-- Answering with what a slot holds. -/
theorem respondSlot_spec (v : Option Byte) (s : State) :
    SameElsewhere s (respondSlot v s) ∧ (respondSlot v s).cur = s.cur := by
  cases v
  · exact ⟨(respondDraw_spec _).1, (respondDraw_spec _).2.1⟩
  · exact ⟨(respond_spec _ _).1, (respond_spec _ _).2.1⟩

/-- What one operation did: it recorded a fault, or it is one of the five operations run by an agent that may
run it. -/
inductive Ran (i : Instr) (s : State) : State → Prop where
  | faulted (c : Cause) (hc : c ≠ .reservedOpcode) (h : exec i s = .next (violate c i s)) : Ran i s (violate c i s)
  | cleared (hi : i = .init) (ha : s.txn.agent = .owner) : Ran i s (respond none (s.setCur s.cur.clear))
  | saidEmpty (hi : i = .isEmpty) (ha : s.txn.agent = .producer ∨ s.txn.agent = .consumer)
      (hd : s.cur.initDone = true) : Ran i s (respond (some (flagResp (emptyFlag s.cur))) s)
  | saidFull (hi : i = .isFull) (ha : s.txn.agent = .producer ∨ s.txn.agent = .consumer)
      (hd : s.cur.initDone = true) : Ran i s (respond (some (flagResp (fullFlag s.cur))) s)
  | inserted (b : Byte) (hi : i = .insert b) (ha : s.txn.agent = .producer) (hd : s.cur.initDone = true)
      (hf : s.cur.count.val ≠ s.cur.size) : Ran i s (respond none (s.setCur (s.cur.push b hf)))
  | removed (hi : i = .remove) (ha : s.txn.agent = .consumer) (hd : s.cur.initDone = true)
      (h0 : s.cur.count.val ≠ 0) :
      Ran i s (respondSlot (Memory.read s.cur.storage (removeSlot s.cur)) (s.setCur s.cur.pop))

/-- Everything exec can do. It always gives a next state. -/
theorem exec_ran (i : Instr) (s : State) : ∃ t, exec i s = .next t ∧ Ran i s t := by
  rcases commonCheck_cases i s with ⟨_, hc⟩ | ⟨_, _, _, hc⟩ | ⟨hp, hd, _⟩
  · exact ⟨_, exec_of_check hc, .faulted _ nofun (exec_of_check hc)⟩
  · exact ⟨_, exec_of_check hc, .faulted _ nofun (exec_of_check hc)⟩
  · cases i with
    | init =>
      have ha : s.txn.agent = .owner := by cases h : s.txn.agent <;> rw [h] at hp <;> first | rfl | cases hp
      exact ⟨_, exec_init ha, .cleared rfl ha⟩
    | isEmpty =>
      have hd : s.cur.initDone = true := by simpa using hd
      exact ⟨_, exec_isEmpty hp hd, .saidEmpty rfl (by cases h : s.txn.agent <;> simp_all [permitted]) hd⟩
    | isFull =>
      have hd : s.cur.initDone = true := by simpa using hd
      exact ⟨_, exec_isFull hp hd, .saidFull rfl (by cases h : s.txn.agent <;> simp_all [permitted]) hd⟩
    | insert b =>
      have ha : s.txn.agent = .producer := by cases h : s.txn.agent <;> rw [h] at hp <;> first | rfl | cases hp
      have hd : s.cur.initDone = true := by simpa using hd
      by_cases hf : s.cur.count.val = s.cur.size
      · exact ⟨_, exec_insert_full b ha hd hf, .faulted _ nofun (exec_insert_full b ha hd hf)⟩
      · exact ⟨_, exec_insert b ha hd hf, .inserted b rfl ha hd hf⟩
    | remove =>
      have ha : s.txn.agent = .consumer := by cases h : s.txn.agent <;> rw [h] at hp <;> first | rfl | cases hp
      have hd : s.cur.initDone = true := by simpa using hd
      by_cases h0 : s.cur.count.val = 0
      · exact ⟨_, exec_remove_empty ha hd h0, .faulted _ nofun (exec_remove_empty ha hd h0)⟩
      · exact ⟨_, exec_remove ha hd h0, .removed rfl ha hd h0⟩

theorem ran_of_exec {i : Instr} {s t : State} (h : exec i s = .next t) : Ran i s t := by
  obtain ⟨u, hu, hr⟩ := exec_ran i s
  rw [h] at hu
  cases hu
  exact hr

/-- What an operation of agent `a` leaves of its block, and when. `recorded` is a fault of the spec. -/
inductive BlockStep (i : Instr) (a : Agent) (x : Block) : Block → Prop where
  | recorded (r : FaultRecord) : BlockStep i a x (x.log r)
  | cleared (hi : i = .init) (ha : a = .owner) : BlockStep i a x x.clear
  | queried (hi : i = .isEmpty ∨ i = .isFull) (ha : a = .producer ∨ a = .consumer) (hd : x.initDone = true) :
      BlockStep i a x x
  | pushed (b : Byte) (hi : i = .insert b) (ha : a = .producer) (hd : x.initDone = true)
      (hf : x.count.val ≠ x.size) : BlockStep i a x (x.push b hf)
  | popped (hi : i = .remove) (ha : a = .consumer) (hd : x.initDone = true) (h0 : x.count.val ≠ 0) :
      BlockStep i a x x.pop

/-- What an operation does to the system: nothing outside its block and its response, and one of the five
things to its block. -/
theorem exec_effect {i : Instr} {s t : State} (h : exec i s = .next t) :
    SameElsewhere s t ∧ BlockStep i s.txn.agent s.cur t.cur := by
  cases ran_of_exec h with
  | faulted c => exact ⟨(violate_spec c i s).1.2, (violate_spec c i s).1.1 ▸ .recorded _⟩
  | cleared hi ha =>
    obtain ⟨hs, hc, _⟩ := respond_spec none (s.setCur s.cur.clear)
    exact ⟨(setCur_same s (x := s.cur.clear) rfl).trans hs, by rw [hc, cur_setCur]; exact .cleared hi ha⟩
  | saidEmpty hi ha hd =>
    obtain ⟨hs, hc, _⟩ := respond_spec (some (flagResp (emptyFlag s.cur))) s
    exact ⟨hs, by rw [hc]; exact .queried (.inl hi) ha hd⟩
  | saidFull hi ha hd =>
    obtain ⟨hs, hc, _⟩ := respond_spec (some (flagResp (fullFlag s.cur))) s
    exact ⟨hs, by rw [hc]; exact .queried (.inr hi) ha hd⟩
  | inserted b hi ha hd hf =>
    obtain ⟨hs, hc, _⟩ := respond_spec none (s.setCur (s.cur.push b hf))
    exact ⟨(setCur_same s (x := s.cur.push b hf) rfl).trans hs, by rw [hc, cur_setCur]; exact .pushed b hi ha hd hf⟩
  | removed hi ha hd h0 =>
    obtain ⟨hs, hc⟩ := respondSlot_spec (Memory.read s.cur.storage (removeSlot s.cur)) (s.setCur s.cur.pop)
    exact ⟨(setCur_same s (x := s.cur.pop) rfl).trans hs, by rw [hc, cur_setCur]; exact .popped hi ha hd h0⟩

/-- What answering, and a faulting operation, write in the tables: the entry of the instance of the transaction. -/
theorem respond_tables (r : Option Byte) (s : State) :
    (respond r s).blocks = s.blocks ∧ ∃ v, (respond r s).resps = setEntry s.txn.inst v s.resps := ⟨rfl, _, rfl⟩

theorem drawFor_tables (kind : RespKind) (s : State) :
    (drawFor kind s).blocks = s.blocks ∧ ∃ v, (drawFor kind s).resps = setEntry s.txn.inst v s.resps := by
  cases kind <;> exact ⟨rfl, _, rfl⟩

theorem respondSlot_tables (v : Option Byte) (s : State) :
    (respondSlot v s).blocks = s.blocks ∧ ∃ r, (respondSlot v s).resps = setEntry s.txn.inst r s.resps := by
  cases v <;> exact ⟨rfl, _, rfl⟩

/-- What an operation writes in the tables: at most the entry of its own instance in each. -/
theorem exec_tables {i : Instr} {s t : State} (h : exec i s = .next t) :
    (t.blocks = s.blocks ∨ t.blocks = setEntry s.txn.inst t.cur s.blocks) ∧
      ∃ r, t.resps = setEntry s.txn.inst r s.resps := by
  cases ran_of_exec h with
  | faulted c =>
    obtain ⟨hb, hr⟩ := drawFor_tables (respKind i) (raise c s)
    exact ⟨.inr (by rw [(violate_spec c i s).1.1]; exact hb), hr⟩
  | cleared =>
    exact ⟨.inr (by rw [(respond_spec _ _).2.1, cur_setCur]; rfl), (respond_tables none (s.setCur s.cur.clear)).2⟩
  | saidEmpty => exact ⟨.inl rfl, (respond_tables _ s).2⟩
  | saidFull => exact ⟨.inl rfl, (respond_tables _ s).2⟩
  | inserted b _ _ _ hf =>
    exact ⟨.inr (by rw [(respond_spec _ _).2.1, cur_setCur]; rfl), (respond_tables none (s.setCur (s.cur.push b hf))).2⟩
  | removed =>
    obtain ⟨hb, hr⟩ := respondSlot_tables (Memory.read s.cur.storage (removeSlot s.cur)) (s.setCur s.cur.pop)
    exact ⟨.inr (by rw [(respondSlot_spec _ _).2, cur_setCur, hb]; rfl), hr⟩

/-! ### A transaction -/

theorem transact_next (k : InstName) (a : Agent) (w : Cmd) (s : State) : ∃ t, transact k a w s = .next t := by
  unfold transact
  split
  · obtain ⟨t, ht, _⟩ := exec_ran ‹_› (s.present k a w)
    exact ⟨t, ht⟩
  · exact ⟨_, rfl⟩

/-- A transaction leaves alone all but its block, its response and the draws. -/
theorem transact_same {k : InstName} {a : Agent} {w : Cmd} {s t : State} (h : transact k a w s = .next t) :
    SameElsewhere (s.present k a w) t := by
  unfold transact at h
  split at h
  · exact (exec_effect h).1
  · cases h; exact (violateReserved_spec _).1.2

/-- The transaction presented is the one under way after it, and its block is the current one. -/
theorem transact_cur {k : InstName} {a : Agent} {w : Cmd} {s t : State} (h : transact k a w s = .next t) :
    t.txn = ⟨k, a, w⟩ ∧ t.block k = t.cur ∧ t.resp k a = t.answer := by
  have hx : t.txn = ⟨k, a, w⟩ := (transact_same h).txn
  exact ⟨hx, by rw [State.cur, hx], by rw [State.answer, hx]⟩

theorem transact_block_ne {k j : InstName} {a : Agent} {w : Cmd} {s t : State} (h : transact k a w s = .next t)
    (hj : j ≠ k) : t.block j = s.block j :=
  (transact_same h).block_ne j hj

theorem transact_ctx {k : InstName} {a : Agent} {w : Cmd} {s t : State} (h : transact k a w s = .next t)
    (c : Context) : t.ctx c = s.ctx c :=
  (transact_same h).ctx c

/-- What a transaction writes in the tables: at most the entry of its own instance in each. -/
theorem transact_tables {k : InstName} {a : Agent} {w : Cmd} {s t : State} (h : transact k a w s = .next t) :
    (t.blocks = s.blocks ∨ t.blocks = setEntry k (t.block k) s.blocks) ∧
      ∃ r, t.resps = setEntry k r s.resps := by
  rw [(transact_cur h).2.1]
  unfold transact at h
  split at h
  · exact exec_tables h
  · cases h
    obtain ⟨hb, hr⟩ := respond_tables none (raise .reservedOpcode (s.present k a w))
    exact ⟨.inr (by rw [(violateReserved_spec _).1.1]; exact hb), hr⟩

/-- What a transaction does to its block: a record, or what the operation of its word does. -/
theorem transact_block {k : InstName} {a : Agent} {w : Cmd} {s t : State} (h : transact k a w s = .next t) :
    (∃ r, t.block k = (s.block k).log r) ∨ ∃ i, decode w = .op i ∧ BlockStep i a (s.block k) (t.block k) := by
  rw [(transact_cur h).2.1]
  unfold transact at h
  split at h
  · next i hi =>
    have := (exec_effect h).2
    rw [cur_present] at this
    exact .inr ⟨i, hi, this⟩
  · cases h
    have := (violateReserved_spec (s.present k a w)).1.1
    rw [cur_present] at this
    exact .inl ⟨_, this⟩

/-! ### Runs -/

theorem runTxns_cons {k : InstName} {x : Txn} {rest : List Txn} {s t : State} {r : Trace}
    (h : transact x.inst x.agent x.word s = .next t) (hr : runTxns k rest t = some r) :
    runTxns k (x :: rest) s =
      some ⟨r.final, insertedBy k x s t ++ r.inserted, removedBy k x s t ++ r.removed⟩ := by
  simp only [runTxns, h, hr]

/-! ### Blocks -/

/-- A record is never lost sight of: the log is another one. -/
theorem log_faults_ne (x : Block) (r : FaultRecord) : (x.log r).faults ≠ x.faults := by simp [Block.log]

/-- The slot of the oldest byte is the slot head. -/
theorem slot_zero (x : Block) : x.slot 0 = Memory.read x.storage x.head.val := by
  rw [Block.slot, Nat.add_zero, Nat.mod_eq_of_lt x.head.isLt]

/-- Taking the oldest byte off shifts the slots by one. -/
theorem slot_pop (x : Block) (n : Nat) : x.pop.slot n = x.slot (n + 1) := by
  show Memory.read x.storage (((x.head.val + 1) % x.size + n) % x.size) =
    Memory.read x.storage ((x.head.val + (n + 1)) % x.size)
  rw [Nat.mod_add_mod, Nat.add_assoc, Nat.add_comm 1 n]

/-- The contents begin with what the slot head holds. -/
theorem contents_pop (x : Block) (h : x.count.val ≠ 0) :
    x.contents = Memory.read x.storage x.head.val :: x.pop.contents := by
  obtain ⟨c, hc⟩ := Nat.exists_eq_succ_of_ne_zero h
  have hp : x.pop.contents = (List.range c).map x.pop.slot := by
    show (List.range (x.count.val - 1)).map _ = _
    rw [hc]; rfl
  rw [hp, Block.contents, hc, List.range_succ_eq_map, List.map_cons, List.map_map, slot_zero]
  exact congrArg _ (List.map_congr_left fun n _ => (slot_pop x n).symm)

/-- The invariant after an INSERT. -/
theorem push_inv {x : Block} {b : Byte} {hf : x.count.val ≠ x.size} (hx : x.Inv) (hd : x.initDone = true) :
    (x.push b hf).Inv := by
  obtain ⟨hw, hb, hi⟩ := hx
  obtain ⟨ht, hs⟩ := hi hd
  refine ⟨write_wf hw, write_bounded x.tail.isLt hb, fun _ => ⟨?_, fun n hn => ?_⟩⟩
  · show (x.tail.val + 1) % x.size = (x.head.val + (x.count.val + 1)) % x.size
    rw [ht, Nat.mod_add_mod]; rfl
  · have hn : n < x.count.val + 1 := hn
    show (Memory.read (Memory.write x.storage x.tail.val b) ((x.head.val + n) % x.size)).isSome = true
    by_cases e : (x.head.val + n) % x.size = x.tail.val
    · rw [e, read_write_same]; rfl
    · rw [read_write_ne _ _ e]
      rcases Nat.lt_succ_iff_lt_or_eq.mp hn with h | h
      · exact hs n h
      · exact absurd (by rw [h, ht]) e

/-- The invariant after a REMOVE. -/
theorem pop_inv {x : Block} (hx : x.Inv) (hd : x.initDone = true) (h0 : x.count.val ≠ 0) : x.pop.Inv := by
  obtain ⟨hw, hb, hi⟩ := hx
  obtain ⟨ht, hs⟩ := hi hd
  refine ⟨hw, hb, fun _ => ⟨?_, fun n hn => ?_⟩⟩
  · show x.tail.val = ((x.head.val + 1) % x.size + (x.count.val - 1)) % x.size
    rw [ht, Nat.mod_add_mod]; congr 1; omega
  · have hn : n < x.count.val - 1 := hn
    rw [slot_pop]
    exact hs (n + 1) (by omega)

/-- The invariant after INIT. -/
theorem clear_inv {x : Block} (hx : x.Inv) : x.clear.Inv :=
  ⟨hx.1, hx.2.1, fun _ => ⟨by simp [Block.clear], fun n hn => absurd hn (Nat.not_lt_zero n)⟩⟩

end Sys2Proof.Machine
end

