-- ==== Sys2Proof/Laws/Agents.lean ====
section
/-! SUPPORT. The contexts' local actions as equations: `settle` always has fuel enough, so each equation gives
its result on what the program begins with. -/

namespace Sys2Proof.Machine

@[simp] theorem ctx_setProg_same (s : State) (c : Context) (p : Prog) :
    (s.setProg c p).ctx c = ⟨(s.ctx c).env, p⟩ := by
  simp [State.setProg]

@[simp] theorem ctx_setEnv_same (s : State) (c : Context) (e : List (Var × Byte)) :
    (s.setEnv c e).ctx c = ⟨e, (s.ctx c).prog⟩ := by
  simp [State.setEnv]

theorem ctx_setProg_ne (s : State) {c d : Context} (p : Prog) (h : d ≠ c) : (s.setProg c p).ctx d = s.ctx d :=
  ctx_setCtx_ne _ _ h

theorem sizeProg_pos (p : Prog) : 0 < sizeProg p := by cases p <;> simp [sizeProg]

theorem sizeProg_append (p q : Prog) : sizeProg (appendProg p q) + 1 = sizeProg p + sizeProg q := by
  induction p <;> simp only [appendProg, sizeProg] at * <;> omega

theorem appendProg_done (p : Prog) : appendProg p .done = p := by
  induction p <;> simp_all [appendProg]

theorem appendProg_assoc (p q r : Prog) : appendProg (appendProg p q) r = appendProg p (appendProg q r) := by
  induction p <;> simp_all [appendProg]

/-- Fuel beyond the size of the program changes nothing. -/
theorem settleFuel_mono {n m : Nat} {c : Context} {s : State} (hm : sizeProg (s.ctx c).prog ≤ m) (h : m ≤ n) :
    settleFuel n c s = settleFuel m c s := by
  induction n generalizing m s with
  | zero => rw [Nat.le_zero.mp h]
  | succ n ih =>
    cases m with
    | zero => exact absurd (sizeProg_pos _) (Nat.not_lt.mpr hm)
    | succ m =>
      have hnm : m ≤ n := Nat.le_of_succ_le_succ h
      cases hp : (s.ctx c).prog <;> rw [hp] at hm <;> simp only [sizeProg] at hm <;> simp only [settleFuel, hp]
      case ifThen e y q r =>
        have hy := sizeProg_append y r
        have hq := sizeProg_append q r
        cases evalExpr (s.ctx c).env e with
        | none => rfl
        | some b =>
          cases b
          · exact ih (by rw [ctx_setProg_same]; dsimp only; have := sizeProg_pos y; omega) hnm
          · exact ih (by rw [ctx_setProg_same]; dsimp only; have := sizeProg_pos q; omega) hnm
      case assign x e r =>
        cases evalExpr (s.ctx c).env e with
        | none => rfl
        | some b => exact ih (by rw [ctx_setEnv_same, ctx_setProg_same]; dsimp only; omega) hnm
      case disarmTx r => exact ih (by rw [ctx_setArmed, ctx_setProg_same]; dsimp only; omega) hnm
      case transmit x r =>
        cases lookupVar (s.ctx c).env x with
        | none => rfl
        | some v => exact ih (by rw [ctx_setWire, ctx_setProg_same]; dsimp only; omega) hnm

theorem settleFuel_enough {n : Nat} {c : Context} {s : State} (h : sizeProg (s.ctx c).prog ≤ n) :
    settleFuel n c s = settle c s :=
  settleFuel_mono le_rfl h

/-- Settling with one step of fuel to spare, to open its first action. -/
theorem settle_succ (c : Context) (s : State) : settle c s = settleFuel (sizeProg (s.ctx c).prog + 1) c s :=
  (settleFuel_enough (Nat.le_succ _)).symm

/-- Where settling stops: the end, a command, a loop or a re-arm. -/
def stopsHere : Prog → Bool
  | .done => true
  | .command _ _ _ _ _ => true
  | .ifThen _ _ _ _ => false
  | .whileDo _ _ _ => true
  | .assign _ _ _ => false
  | .rearmTx _ => true
  | .disarmTx _ => false
  | .transmit _ _ => false

theorem settle_stop {c : Context} {s : State} (h : stopsHere (s.ctx c).prog = true) : settle c s = s := by
  rw [settle_succ]
  cases hp : (s.ctx c).prog <;> rw [hp] at h <;> first | cases h; done | simp only [settleFuel, hp]

theorem settle_ifThen {c : Context} {s : State} {e : Expr} {y n r : Prog} {b : Bool}
    (hp : (s.ctx c).prog = .ifThen e y n r) (he : evalExpr (s.ctx c).env e = some b) :
    settle c s = settle c (s.setProg c (appendProg (if b = true then y else n) r)) := by
  have hy := sizeProg_append y r
  have hn := sizeProg_append n r
  rw [settle_succ, hp]
  simp only [settleFuel, hp, he]
  cases b <;> exact settleFuel_enough (by simp [sizeProg]; omega)

theorem settle_assign {c : Context} {s : State} {x : Var} {e : Expr} {r : Prog} {b : Bool}
    (hp : (s.ctx c).prog = .assign x e r) (he : evalExpr (s.ctx c).env e = some b) :
    settle c s = settle c ((s.setProg c r).setEnv c (bindVar (s.ctx c).env x (some (flagResp b)))) := by
  rw [settle_succ, hp]
  simp only [settleFuel, hp, he]
  exact settleFuel_enough (by simp [sizeProg])

theorem settle_disarmTx {c : Context} {s : State} {r : Prog} (hp : (s.ctx c).prog = .disarmTx r) :
    settle c s = settle c ((s.setProg c r).setArmed false) := by
  rw [settle_succ, hp]
  simp only [settleFuel, hp]
  exact settleFuel_enough (by simp [sizeProg])

theorem settle_transmit {c : Context} {s : State} {x : Var} {r : Prog} {v : Byte}
    (hp : (s.ctx c).prog = .transmit x r) (hx : lookupVar (s.ctx c).env x = some v) :
    settle c s = settle c ((s.setProg c r).setWire (s.wire ++ [v])) := by
  rw [settle_succ, hp]
  simp only [settleFuel, hp, hx]
  exact settleFuel_enough (by simp [sizeProg])

/-- A name just bound reads as what it was bound to. -/
theorem lookupVar_bindVar (env : List (Var × Byte)) (x : Var) (v : Byte) :
    lookupVar (bindVar env x (some v)) x = some v := by
  simp [bindVar, lookupVar]

/-- Every other name reads as before. -/
theorem lookupVar_bindVar_ne (env : List (Var × Byte)) {x y : Var} (r : Option Byte) (h : y ≠ x) :
    lookupVar (bindVar env x r) y = lookupVar env y := by
  have hu : lookupVar (unbindVar env x) y = lookupVar env y := by
    induction env with
    | nil => rfl
    | cons p rest ih =>
      by_cases hp : p.1 = x
      · simp only [unbindVar, lookupVar, if_pos hp, ih, if_neg (hp ▸ Ne.symm h)]
      · simp only [unbindVar, lookupVar, if_neg hp, ih]
  cases r with
  | none => exact hu
  | some v => simp only [bindVar, lookupVar, if_neg (Ne.symm h), hu]

/-- What a context does on a command of a port it holds. -/
theorem runContext_command {c : Context} {s : State} {k : InstName} {a : Agent} {w : Cmd} {x : Option Var}
    {rest : Prog} (hp : (s.ctx c).prog = .command k a w x rest) (hh : s.wiring.holds c k a = true) :
    runContext c s = afterTransaction c k a x (transact k a w (s.setProg c rest)) := by
  unfold runContext
  rw [hp]
  simp only [hh, if_true]

theorem prog_bindResponse (c : Context) (x : Option Var) (r : Option Byte) (s : State) :
    ((bindResponse c x r s).ctx c).prog = (s.ctx c).prog := by
  cases x <;> simp [bindResponse]

/-- A context's step leaves every other context alone. -/
theorem runContext_ctx_ne {c d : Context} {s t : State} (hd : d ≠ c) (h : runContext c s = .next t) :
    t.ctx d = s.ctx d := by
  rcases runContext_cases h with ⟨k, a, w, x, r, u, _, _, hu, hs⟩ | hl
  · rw [hs, ((bindResponse_local c x (u.resp k a) u).trans (settle_local _ _)).ctx_ne d hd, transact_ctx hu,
      ctx_setProg_ne _ _ hd]
  · exact hl.ctx_ne d hd

/-- A property of programs that every local action keeps holds after settling. -/
theorem settleFuel_keeps {P : Prog → Prop} {c : Context}
    (hif : ∀ e y n r, P (.ifThen e y n r) → P (appendProg y r) ∧ P (appendProg n r))
    (has : ∀ x e r, P (.assign x e r) → P r) (hdi : ∀ r, P (.disarmTx r) → P r)
    (htr : ∀ x r, P (.transmit x r) → P r) (n : Nat) {s : State} (hp : P (s.ctx c).prog) :
    P ((settleFuel n c s).ctx c).prog := by
  induction n generalizing s with
  | zero => exact hp
  | succ n ih =>
    have hp0 := hp
    unfold settleFuel
    split
    · next hq =>
      rw [hq] at hp
      split
      · exact ih (by rw [ctx_setProg_same]; exact (hif _ _ _ _ hp).1)
      · exact ih (by rw [ctx_setProg_same]; exact (hif _ _ _ _ hp).2)
      · exact hp0
    · next hq =>
      rw [hq] at hp
      split
      · exact ih (by rw [ctx_setEnv_same, ctx_setProg_same]; exact has _ _ _ hp)
      · exact hp0
    · next hq =>
      rw [hq] at hp
      exact ih (by rw [ctx_setArmed, ctx_setProg_same]; exact hdi _ hp)
    · next hq =>
      rw [hq] at hp
      split
      · exact ih (by rw [ctx_setWire, ctx_setProg_same]; exact htr _ _ hp)
      · exact hp0
    all_goals exact hp0

/-- A property of programs that every action keeps holds after a context's step. -/
theorem runContext_keeps {P : Prog → Prop} {c : Context} (hco : ∀ k a w x r, P (.command k a w x r) → P r)
    (hif : ∀ e y n r, P (.ifThen e y n r) → P (appendProg y r) ∧ P (appendProg n r))
    (has : ∀ x e r, P (.assign x e r) → P r) (hdi : ∀ r, P (.disarmTx r) → P r)
    (htr : ∀ x r, P (.transmit x r) → P r) (hre : ∀ r, P (.rearmTx r) → P r)
    (hwh : ∀ e b r, P (.whileDo e b r) → P r ∧ P (appendProg b (.whileDo e b r))) {s t : State}
    (hp : P (s.ctx c).prog) (h : runContext c s = .next t) : P (t.ctx c).prog := by
  have key : ∀ {u : State}, P (u.ctx c).prog → P ((settle c u).ctx c).prog := fun hu =>
    settleFuel_keeps hif has hdi htr _ hu
  have hp0 := hp
  unfold runContext at h
  split at h
  · cases h; exact hp
  · next k a w x rest hq =>
    rw [hq] at hp
    split at h
    · obtain ⟨u, hu⟩ := transact_next k a w (s.setProg c rest)
      rw [hu] at h
      cases h
      refine key ?_
      rw [prog_bindResponse, transact_ctx hu, ctx_setProg_same]
      exact hco _ _ _ _ _ hp
    · cases h
  · next hq =>
    rw [hq] at hp
    cases h
    exact key (by rw [ctx_setArmed, ctx_setProg_same]; exact hre _ hp)
  · next hq =>
    rw [hq] at hp
    split at h
    · cases h; exact key (by rw [ctx_setProg_same]; exact (hwh _ _ _ hp).2)
    · cases h; exact key (by rw [ctx_setProg_same]; exact (hwh _ _ _ hp).1)
    · cases h
  · split at h <;> cases h; exact key hp0
  · split at h <;> cases h; exact key hp0
  · cases h; exact key hp0
  · split at h <;> cases h; exact key hp0

end Sys2Proof.Machine
end

