-- ==== Sys2Proof/Laws/Flags.lean ====
section
/-! SUPPORT. The flags and the flag response, once. -/

namespace Sys2Proof.Machine

theorem emptyFlag_iff (x : Block) : emptyFlag x = true ↔ x.count.val = 0 := by simp [emptyFlag]

theorem fullFlag_iff (x : Block) : fullFlag x = true ↔ x.count.val = x.size := by simp [fullFlag]

theorem emptyFlag_false_iff (x : Block) : emptyFlag x = false ↔ x.count.val ≠ 0 := by simp [emptyFlag]

theorem fullFlag_false_iff (x : Block) : fullFlag x = false ↔ x.count.val ≠ x.size := by simp [fullFlag]

/-- A flag response is 1 or 0 (30_encoding.md R63). -/
theorem flagResp_eq (f : Bool) : flagResp f = if f = true then 0x01#8 else 0x00#8 := by cases f <;> rfl

/-- An agent reads back the flag that was answered. -/
theorem respFlag_flagResp (f : Bool) : respFlag (flagResp f) = f := by cases f <;> rfl

end Sys2Proof.Machine
end

