-- ==== Sys2Proof/Laws/PerInstr.lean ====
section
/-! SUPPORT. The family Encodes: each operation's canonical word is its row of opcode_table.json, with its
operand in the data field (30_encoding.md R61, R72), one lemma per constructor. -/

namespace Sys2Proof.Laws.Encodes

/-- The word under the table's mask 0x700 is the row's match, and the data field is the operand or zero. -/
def Statement (i : Instr) : Prop :=
  encode i &&& 0x700#11 =
      (match i with
        | .init => 0x100#11
        | .isEmpty => 0x200#11
        | .isFull => 0x300#11
        | .insert _ => 0x400#11
        | .remove => 0x500#11) ∧
    dataField (encode i) =
      match i with
      | .init => 0#8
      | .isEmpty => 0#8
      | .isFull => 0#8
      | .insert b => b
      | .remove => 0#8

theorem init : Statement .init := by unfold Statement; decide

theorem isEmpty : Statement .isEmpty := by unfold Statement; decide

theorem isFull : Statement .isFull := by unfold Statement; decide

theorem insert (b : Byte) : Statement (.insert b) := by
  constructor
  · ext j hj
    simp only [encode, BitVec.getElem_and, BitVec.getElem_or, BitVec.getElem_setWidth]
    interval_cases j <;> simp
  · ext j hj
    simp only [encode, dataField, BitVec.getElem_extractLsb', BitVec.getLsbD_or, BitVec.getLsbD_setWidth]
    interval_cases j <;> simp

theorem remove : Statement .remove := by unfold Statement; decide

end Sys2Proof.Laws.Encodes
end

