-- ==== Sys2Proof/Tests/Slice0.lean ====
section
/-! SUPPORT. Tests of one step each, with the results that spec/95_test_vectors.md gives, the checks of
WellFormed, and for every statement with hypotheses a witness of each of its clauses. -/

namespace Sys2Proof.Tests

open Sys2Proof Sys2Proof.Machine

/-! ### Helpers -/

/-- An initialised block of capacity `p + 1`, as the notation of 95_test_vectors.md writes it. -/
def blk (p h t n : Nat) (m : Memory) : Block where
  cap := ⟨p⟩
  storage := m
  head := ⟨h % (p + 1), Nat.mod_lt _ (Nat.succ_pos _)⟩
  tail := ⟨t % (p + 1), Nat.mod_lt _ (Nat.succ_pos _)⟩
  count := ⟨n % (p + 2), Nat.mod_lt _ (Nat.succ_pos _)⟩
  initDone := true
  faults := []

/-- The same before INIT. -/
def raw (p h t n : Nat) : Block := { blk p h t n [] with initDone := false }

/-- Two instances alike, all else as at power-on. -/
def sys (x : Block) : State := { State.reset with blocks := [(.inbound, x), (.outbound, x)] }

/-- A transaction of agent `a` under way on the inbound instance. -/
def facing (a : Agent) (x : Block) : State := (sys x).present .inbound a 0x000#11

/-- Full, partly full and empty blocks with the capacities 4, 3 and 1 of 95_test_vectors.md. -/
def full4 : Block := blk 3 1 1 4 [(0, 0x45#8), (1, 0x42#8), (2, 0x43#8), (3, 0x44#8)]
def three4 : Block := blk 3 0 3 3 [(0, 0x41#8), (1, 0x42#8), (2, 0x43#8)]
def one4 : Block := blk 3 3 0 1 [(3, 0x44#8)]
def empty4 : Block := blk 3 3 3 0 []
def two3 : Block := blk 2 2 1 2 [(0, 0x0C#8), (2, 0x0B#8)]
def full1 : Block := blk 0 0 0 1 [(0, 0x58#8)]
def empty1 : Block := blk 0 0 0 0 []

/-- What a next state shows. -/
def seen {α : Type} (o : Host.Outcome State Fault Refusal) (f : State → α) : Option α :=
  match o with
  | .next t => some (f t)
  | .fault _ => none
  | .refused _ => none

/-- head, tail, count, slots and fault log. -/
structure Shape where
  h : Nat
  t : Nat
  n : Nat
  slots : Memory
  faults : List FaultRecord
  deriving DecidableEq, Repr

def shape (x : Block) : Shape := ⟨x.head.val, x.tail.val, x.count.val, x.storage, x.faults⟩

/-- The inbound block and the response after one transaction on it. -/
def after (a : Agent) (w : Cmd) (x : Block) : Option (Shape × Option Byte) :=
  seen (transact .inbound a w (sys x)) fun t => (shape t.inbound, t.resp .inbound a)

/-- The inbound block and the number of draws taken by one transaction on it. -/
def drew (a : Agent) (w : Cmd) (x : Block) : Option (Shape × Nat) :=
  seen (transact .inbound a w (sys x)) fun t => (shape t.inbound, t.draws)

/-- A system whose next moves and programs are given. -/
def running (x : Block) (l : List Move) (rx tx lp : Prog) : State :=
  { sys x with schedule := l, ctxs := [(.rx, ⟨[], rx⟩), (.tx, ⟨[], tx⟩), (.loop, ⟨[], lp⟩)] }

/-- A system of one instance, held by three contexts of its own, and one of three instances of different C. -/
def oneInst : System := [⟨.other 0, ⟨3⟩, ⟨.mainFlow 0, .interrupt 0, .mainFlow 1⟩⟩]
def threeInst : System :=
  [⟨.other 0, ⟨0⟩, ⟨.mainFlow 0, .interrupt 0, .mainFlow 1⟩⟩, ⟨.other 1, ⟨1⟩, ⟨.mainFlow 0, .mainFlow 1, .interrupt 1⟩⟩,
   ⟨.other 2, ⟨2⟩, ⟨.mainFlow 0, .interrupt 1, .mainFlow 2⟩⟩]

/-- The names of the original system's instances. -/
def two : List InstName := State.reset.wiring.names

def ins (b : Byte) : Txn := ⟨.inbound, .producer, encode (.insert b)⟩
def rem : Txn := ⟨.inbound, .consumer, encode .remove⟩
def askFull : Txn := ⟨.inbound, .producer, encode .isFull⟩
def askEmpty : Txn := ⟨.inbound, .consumer, encode .isEmpty⟩

/-! ### WellFormed: one ill-formed term for each check -/

def goodLine : Line := ⟨some .inbound, .producer, .insert, some (.dec 255), none⟩

theorem test_line_ok : goodLine.wellFormed two = true := by decide
theorem test_line_needs_instance :
    Line.instOk two { goodLine with inst := none } = false ∧
      Line.wellFormed two { goodLine with inst := none } = false ∧
      Line.instOk oneInst.wiring.names { goodLine with inst := none } = true ∧
      Line.instOk two { goodLine with inst := some (.other 0) } = false := by decide
theorem test_system_names :
    System.namesOk (oneInst ++ oneInst) = false ∧ System.wellFormed (oneInst ++ oneInst) = false ∧
      System.wellFormed oneInst = true := by decide
theorem test_system_roles :
    System.rolesOk [⟨.other 0, ⟨3⟩, ⟨.mainFlow 0, .interrupt 0, .interrupt 0⟩⟩] = false ∧
      System.wellFormed [⟨.other 0, ⟨3⟩, ⟨.mainFlow 0, .interrupt 0, .interrupt 0⟩⟩] = false := by decide
theorem test_line_imm_range :
    Line.immOk { goodLine with imm := some (.dec 256) } = false ∧
      Line.immOk { goodLine with imm := some (.hex 0x100) } = false ∧
      Line.wellFormed two { goodLine with imm := some (.hex 0x100) } = false := by decide
theorem test_line_imm_ascii :
    Imm.wellFormed (.chr 'é') = false ∧ Line.immOk { goodLine with imm := some (.chr 'é') } = false := by decide
theorem test_line_imm_missing : Line.immOk { goodLine with imm := none } = false := by decide
theorem test_line_imm_extra :
    Line.immOk ⟨some .inbound, .owner, .init, some (.dec 0), none⟩ = false ∧
      Line.immOk ⟨some .inbound, .consumer, .remove, some (.dec 0), none⟩ = false := by decide
theorem test_line_bind_none :
    Line.bindOk { goodLine with bind := some 0 } = false ∧
      Line.wellFormed two { goodLine with bind := some 0 } = false := by decide
theorem test_prog_port_held : Prog.onHeldPorts State.reset.wiring .tx (lineOf .outbound .producer .isFull none .done) = false := by decide
theorem test_prog_no_poll :
    Prog.wellFormed State.reset.wiring .rx (.whileDo (.var 0) .done .done) = false ∧
      Prog.wellFormed State.reset.wiring .loop (.whileDo (.var 0) .done .done) = true := by decide
theorem test_ill_formed_line_refused : Line.assemble two { goodLine with imm := some (.dec 256) } .done = none := by decide
/-- R70: a quoted character is its ASCII code; P1 of 95_test_vectors.md L3 spells INSERT 'A' as 0x441. -/
theorem test_line_assembles :
    Line.assemble two { goodLine with imm := some (.chr 'A') } .done =
        some (.command .inbound .producer 0x441#11 none .done) ∧
      Line.assemble oneInst.wiring.names { goodLine with inst := none, imm := some (.chr 'A') } .done =
        some (.command (.other 0) .producer 0x441#11 none .done) := by decide

/-! ### Decoding: words written bit by bit as 30_encoding.md R60 and R61 lay them out -/

theorem test_decode_init : decode 0b001_00000000#11 = .op .init ∧ encode .init = 0b001_00000000#11 := by decide
theorem test_decode_isEmpty : decode 0b010_10100101#11 = .op .isEmpty ∧ encode .isEmpty = 0b010_00000000#11 := by decide
theorem test_decode_isFull : decode 0b011_11111111#11 = .op .isFull ∧ encode .isFull = 0b011_00000000#11 := by decide
theorem test_decode_insert :
    decode 0b100_01000001#11 = .op (.insert 0x41#8) ∧ encode (.insert 0x5A#8) = 0b100_01011010#11 := by decide
theorem test_decode_remove : decode 0b101_11000011#11 = .op .remove ∧ encode .remove = 0b101_00000000#11 := by decide
theorem test_decode_reserved :
    decode 0b000_00000000#11 = .invalid (.reservedOpcode 0b000#3) ∧
      decode 0b110_11111111#11 = .invalid (.reservedOpcode 0b110#3) ∧
      decode 0b111_00000000#11 = .invalid (.reservedOpcode 0b111#3) := by decide
theorem test_decode_table :
    decodeTableWord 16 0x441 = some (.insert 0x41#8) ∧ decodeTableWord 16 0x700 = none ∧
      decodeTableWord 16 0x500 = some .remove := by decide

/-! ### One step each, results from 95_test_vectors.md L2 -/

/-- I3: INIT empties a block in use and keeps the slots. -/
theorem test_init_again :
    after .owner 0x100#11 (blk 3 3 1 2 [(0, 0x45#8), (1, 0x42#8), (2, 0x43#8), (3, 0x44#8)]) =
      some (⟨0, 0, 0, [(0, 0x45#8), (1, 0x42#8), (2, 0x43#8), (3, 0x44#8)], []⟩, none) := by decide
/-- I5: the Producer's INIT before any INIT. -/
theorem test_init_role :
    after .producer 0x100#11 (raw 3 2 1 3) =
      some (⟨2, 1, 3, [], [⟨.roleViolation, .producer, 0x100#11, none⟩]⟩, none) := by decide
/-- E3: head = tail does not mean empty. -/
theorem test_isEmpty_full : (after .consumer 0x200#11 (blk 3 1 1 4 [])).map (·.2) = some (some 0x00#8) := by decide
/-- E5: ignored bits, empty. -/
theorem test_isEmpty_empty : (after .consumer 0x2A5#11 (blk 3 0 0 0 [])).map (·.2) = some (some 0x01#8) := by decide
/-- F5. -/
theorem test_isFull_full : (after .producer 0x3FF#11 (blk 3 2 2 4 [])).map (·.2) = some (some 0x01#8) := by decide
/-- F7: not initialised, a draw. -/
theorem test_isFull_uninitialised :
    drew .producer 0x300#11 (raw 3 0 0 4) =
      some (⟨0, 0, 4, [], [⟨.notInitialized, .producer, 0x300#11, none⟩]⟩, 1) := by decide
/-- N2: tail wraps. -/
theorem test_insert_wraps :
    after .producer 0x4FF#11 (blk 3 1 3 2 [(1, 0x11#8), (2, 0x22#8)]) =
      some (⟨1, 0, 3, [(1, 0x11#8), (2, 0x22#8), (3, 0xFF#8)], []⟩, none) := by decide
/-- N6: code 2 beats code 4. -/
theorem test_insert_role_first :
    after .consumer 0x441#11 (blk 3 2 2 4 []) =
      some (⟨2, 2, 4, [], [⟨.roleViolation, .consumer, 0x441#11, some 4⟩]⟩, none) := by decide
/-- M10: head wraps with C = 3. -/
theorem test_remove_wraps :
    after .consumer 0x500#11 (blk 2 2 1 2 [(0, 0x0C#8), (2, 0x0B#8)]) =
      some (⟨0, 1, 1, [(0, 0x0C#8), (2, 0x0B#8)], []⟩, some 0x0B#8) := by decide
/-- M4: a draw, not the stale byte. -/
theorem test_remove_empty :
    drew .consumer 0x500#11 (blk 3 2 2 0 [(1, 0x77#8)]) =
      some (⟨2, 2, 0, [(1, 0x77#8)], [⟨.removeWhenEmpty, .consumer, 0x500#11, some 0⟩]⟩, 1) := by decide
/-- V3: code 1 beats codes 2 and 3. -/
theorem test_reserved_first :
    after .owner 0x7FF#11 (raw 3 0 0 0) =
      some (⟨0, 0, 0, [], [⟨.reservedOpcode, .owner, 0x7FF#11, none⟩]⟩, none) := by decide
/-- P3 step 11: the handler's IS_EMPTY answers 1 and disarms in the same step, which is the step that raises it. -/
theorem test_handler_disarms :
    seen (step { running (blk 1 0 0 0 []) [.transmitReady] .done .done .done with txArmed := true })
      (fun t => (t.txArmed, t.tx.prog)) = some (false, .done) := by decide
/-- P3, "It runs only while `tx_armed = 1`": a second notification after the disarm is not raised, and a byte in the
buffer then stays there. -/
theorem test_no_handler_while_disarmed :
    seen (step (running (blk 1 0 1 1 [(0, 0x48#8)]) [.transmitReady, .run .tx] .done .done .done))
      (fun t => (t.tx.prog, t.wire, t.outbound.count.val)) = some (.done, [], 1) := by decide
/-- R113: a notification does not start a second handler while the first is under way (P3 steps 4 and 5). -/
theorem test_no_second_handler :
    seen (step { running (blk 1 0 1 1 [(0, 0x48#8)]) [.transmitReady, .transmitReady] .done .done .done with
        txArmed := true })
      (fun t => (t.tx.prog, seen (step t) fun u => u.tx.prog)) = some (txSending, some txSending) := by decide
/-- P5 step 5: a byte that arrives at a full buffer is dropped with no INSERT. -/
theorem test_handler_drops :
    seen (step (running (blk 1 0 0 2 [(0, 0x61#8), (1, 0x62#8)]) [.run .rx] (rxHandler 0x63#8) .done .done))
      (fun t => (t.rx.prog, shape t.inbound)) =
        some (.done, ⟨0, 0, 2, [(0, 0x61#8), (1, 0x62#8)], []⟩) := by decide

/-- R45, log 10: an INSERT stays done although its context's next action reads an unbound name; only the
context's own next step faults. -/
theorem test_insert_before_unbound :
    seen (step (running empty4 [.run .rx, .run .rx]
        (lineOf .inbound .producer (.insert 0x41#8) none (.ifThen (.var 9) .done .done .done)) .done .done))
      (fun t => (shape t.inbound, seen (step t) fun u => u.draws)) =
        some (⟨3, 0, 1, [(3, 0x41#8)], []⟩, none) := by decide

/-! ### The host's questions: a placed word runs as the first instruction -/

theorem test_fetch_init :
    seen (step (State.reset.withFetchWord 11 0x100)) (fun t => (t.inbound.initDone, t.inbound.count.val)) =
      some (true, 0) := by decide
theorem test_fetch_remove :
    seen (step (State.reset.withFetchWord 16 0x500)) (fun t => (t.txn, t.inbound.faults)) =
      some (⟨.inbound, .consumer, 0x500#11⟩, [⟨.notInitialized, .consumer, 0x500#11, none⟩]) := by decide

/-! ### Witnesses: states and operands that meet the hypotheses of each statement, clause by clause -/

theorem witness_DecodedWordsEncodeBack :
    decode 0x1FF#11 = .op .init ∧ decode 0x5C3#11 = .op .remove ∧ decode 0x4FF#11 = .op (.insert 0xFF#8) := by decide

/-- The lowest and the highest word of each clause. -/
theorem witness_DecodeFollowsOpcodeMap :
    [0x100#11, 0x1FF#11, 0x200#11, 0x2FF#11, 0x300#11, 0x3FF#11, 0x400#11, 0x4FF#11, 0x500#11, 0x5FF#11].map
        (fun w : Cmd => w.toNat / 256) = [1, 1, 2, 2, 3, 3, 4, 4, 5, 5] ∧
      [0x000#11, 0x0FF#11, 0x600#11, 0x6FF#11, 0x700#11, 0x7FF#11].map (fun w : Cmd => w.toNat / 256) =
        [0, 0, 6, 6, 7, 7] := by decide

theorem witness_ReservedWordsRecordAFault :
    [0x000#11, 0x0FF#11, 0x600#11, 0x6FF#11, 0x700#11, 0x7FF#11].all
      (fun w : Cmd => decide (w.toNat / 256 = 0 ∨ w.toNat / 256 = 6 ∨ w.toNat / 256 = 7)) = true := by decide

/-- Ill formed just above the range; well formed at its two ends and with each mnemonic. -/
theorem witness_AssembledLinesDecode :
    Line.wellFormed two { goodLine with imm := some (.dec 256) } = false ∧
      Line.wellFormed two { goodLine with imm := some (.dec 255) } = true ∧
      Line.wellFormed two { goodLine with imm := some (.hex 0) } = true ∧
      Line.wellFormed two { goodLine with imm := some (.chr 'A') } = true ∧
      Line.wellFormed two ⟨some .inbound, .owner, .init, none, none⟩ = true ∧
      Line.wellFormed two ⟨some .inbound, .consumer, .isEmpty, none, some 0⟩ = true ∧
      Line.wellFormed two ⟨some .outbound, .producer, .isFull, none, some 0⟩ = true ∧
      Line.wellFormed oneInst.wiring.names ⟨none, .consumer, .remove, none, some 7⟩ = true := by decide

theorem witness_InitResetsToEmpty :
    opField 0x1FF#11 = 0b001#3 ∧ (facing .owner (raw 3 2 1 4)).txn.agent = .owner ∧
      (facing .owner full4).txn.agent = .owner ∧ (facing .producer full4).txn.agent ≠ .owner ∧
      (facing .consumer full4).txn.agent ≠ .owner := by decide

/-- Both roles, count at 0, between and C; the Owner; before INIT. -/
theorem witness_IsEmptyReportsCountZero :
    opField 0x2A5#11 = 0b010#3 ∧
      ((facing .producer empty4).txn.agent = .producer ∧ (facing .producer empty4).cur.initDone = true ∧
        (facing .producer empty4).cur.count.val = 0) ∧
      ((facing .consumer full4).txn.agent = .consumer ∧ (facing .consumer full4).cur.initDone = true ∧
        (facing .consumer full4).cur.count.val ≠ 0) ∧
      (facing .owner full4).txn.agent = .owner ∧
      ((facing .consumer (raw 3 0 0 0)).txn.agent = .consumer ∧ (facing .consumer (raw 3 0 0 0)).cur.initDone = false) := by
  decide

theorem witness_IsFullReportsCountC :
    opField 0x3FF#11 = 0b011#3 ∧
      ((facing .producer full4).txn.agent = .producer ∧ (facing .producer full4).cur.initDone = true ∧
        (facing .producer full4).cur.count.val = (facing .producer full4).cur.size) ∧
      ((facing .consumer three4).txn.agent = .consumer ∧ (facing .consumer three4).cur.initDone = true ∧
        (facing .consumer three4).cur.count.val ≠ (facing .consumer three4).cur.size) ∧
      (facing .owner full4).txn.agent = .owner ∧
      ((facing .producer (raw 3 0 0 4)).txn.agent = .producer ∧ (facing .producer (raw 3 0 0 4)).cur.initDone = false) := by
  decide

/-- Completing at count C - 1 with tail at the last slot, and at count 0; each of the faults. -/
theorem witness_InsertStoresAtTail :
    opField 0x4FF#11 = 0b100#3 ∧
      ((facing .producer three4).txn.agent = .producer ∧ (facing .producer three4).cur.initDone = true ∧
        (facing .producer three4).cur.count.val ≠ (facing .producer three4).cur.size ∧
        (facing .producer three4).cur.tail.val + 1 = (facing .producer three4).cur.size) ∧
      ((facing .producer empty1).txn.agent = .producer ∧ (facing .producer empty1).cur.initDone = true ∧
        (facing .producer empty1).cur.count.val ≠ (facing .producer empty1).cur.size) ∧
      (facing .consumer three4).txn.agent ≠ .producer ∧
      ((facing .producer (raw 3 0 0 4)).txn.agent = .producer ∧ (facing .producer (raw 3 0 0 4)).cur.initDone = false) ∧
      ((facing .producer full1).txn.agent = .producer ∧ (facing .producer full1).cur.initDone = true ∧
        (facing .producer full1).cur.count.val = (facing .producer full1).cur.size) := by decide

/-- Completing at count 1 with head at the last slot, and at count C; each of the faults. -/
theorem witness_RemoveTakesFromHead :
    opField 0x5C3#11 = 0b101#3 ∧
      ((facing .consumer one4).txn.agent = .consumer ∧ (facing .consumer one4).cur.initDone = true ∧
        (facing .consumer one4).cur.count.val ≠ 0 ∧
        Memory.read (facing .consumer one4).cur.storage (facing .consumer one4).cur.head.val = some 0x44#8) ∧
      ((facing .consumer full1).txn.agent = .consumer ∧ (facing .consumer full1).cur.initDone = true ∧
        (facing .consumer full1).cur.count.val ≠ 0 ∧
        Memory.read (facing .consumer full1).cur.storage (facing .consumer full1).cur.head.val = some 0x58#8) ∧
      (facing .producer one4).txn.agent ≠ .consumer ∧
      ((facing .consumer (raw 3 0 0 4)).txn.agent = .consumer ∧ (facing .consumer (raw 3 0 0 4)).cur.initDone = false) ∧
      ((facing .consumer empty4).txn.agent = .consumer ∧ (facing .consumer empty4).cur.initDone = true ∧
        (facing .consumer empty4).cur.count.val = 0) := by decide

/-- A REMOVE that takes no draw and one that faults with a draw; a step of the system that faults. -/
theorem witness_DrawsComeOnlyWithAFault :
    ((facing .consumer one4).cur.Inv ∧
        ∃ t, exec .remove (facing .consumer one4) = .next t ∧ t.cur.faults = (facing .consumer one4).cur.faults) ∧
      ((facing .consumer empty4).cur.Inv ∧ ∃ t, exec .remove (facing .consumer empty4) = .next t ∧
        t.cur.faults ≠ (facing .consumer empty4).cur.faults) ∧
      (running empty4 [.run .loop] .done .done (expand (.read 1) 0)).Inv ∧
      ∃ t, step (running empty4 [.run .loop] .done .done (expand (.read 1) 0)) = .next t ∧ t.draws = 1 :=
  ⟨⟨by decide, _, rfl, rfl⟩, ⟨by decide, _, rfl, by decide⟩, by decide, _, rfl, rfl⟩

theorem witness_OnlyListedOperationsWrite :
    (∃ t, exec .init (facing .owner full4) = .next t) ∧ (∃ t, exec .isEmpty (facing .consumer full4) = .next t) ∧
      (∃ t, exec .isFull (facing .producer full4) = .next t) ∧
      (∃ t, exec (.insert 0xFF#8) (facing .producer three4) = .next t) ∧
      ∃ t, exec .remove (facing .consumer one4) = .next t :=
  ⟨⟨_, rfl⟩, ⟨_, rfl⟩, ⟨_, rfl⟩, ⟨_, rfl⟩, ⟨_, rfl⟩⟩

theorem witness_InitAndQueriesAreIdempotent :
    (∃ t, (facing .owner full4).txn.agent = .owner ∧ exec .init (facing .owner full4) = .next t) ∧
      (∃ t, permitted .isEmpty (facing .consumer full4).txn.agent = true ∧
        (facing .consumer full4).cur.initDone = true ∧ exec .isEmpty (facing .consumer full4) = .next t) ∧
      (∃ t, permitted .isFull (facing .producer full1).txn.agent = true ∧
        (facing .producer full1).cur.initDone = true ∧ exec .isFull (facing .producer full1) = .next t) ∧
      (∃ t, exec (.insert 0x00#8) (facing .producer three4) = .next t ∧
        t.cur.faults = (facing .producer three4).cur.faults) ∧
      ∃ t, exec .remove (facing .consumer full1) = .next t ∧ t.cur.faults = (facing .consumer full1).cur.faults :=
  ⟨⟨_, rfl, rfl⟩, ⟨_, rfl, rfl, rfl⟩, ⟨_, rfl, rfl, rfl⟩, ⟨_, rfl, rfl⟩, ⟨_, rfl, rfl⟩⟩

theorem witness_ForbiddenRolesRecordRoleViolation :
    permitted .init (facing .producer full4).txn.agent = false ∧
      permitted .isEmpty (facing .owner full4).txn.agent = false ∧
      permitted .isFull (facing .owner (raw 3 0 0 0)).txn.agent = false ∧
      permitted (.insert 0x41#8) (facing .consumer full4).txn.agent = false ∧
      permitted .remove (facing .producer full4).txn.agent = false := by decide

theorem witness_OperationsBeforeInitAreRecorded :
    ((Instr.isEmpty ≠ .init ∧ permitted .isEmpty (facing .consumer (raw 3 0 0 0)).txn.agent = true) ∧
      (Instr.insert 0x41#8 ≠ .init ∧ permitted (.insert 0x41#8) (facing .producer (raw 3 0 0 0)).txn.agent = true) ∧
      (Instr.remove ≠ .init ∧ permitted .remove (facing .consumer (raw 3 0 0 0)).txn.agent = true)) ∧
      (facing .consumer (raw 3 0 0 0)).cur.initDone = false ∧ (facing .producer (raw 3 0 0 0)).cur.initDone = false := by
  decide

/-- An INSERT by the receiving context, at the wrap of tail. -/
theorem witness_EveryStepKeepsBlockInvariant :
    (running three4 [.run .rx] (lineOf .inbound .producer (.insert 0x44#8) none .done) .done .done).Inv ∧
      ∃ t, step (running three4 [.run .rx] (lineOf .inbound .producer (.insert 0x44#8) none .done) .done .done) =
        .next t := ⟨by decide, _, rfl⟩

/-- A step that adds a record to the log of an initialised block. -/
theorem witness_StepsNeverLoseRecords :
    ∃ t, step (running full4 [.run .rx] (lineOf .inbound .producer (.insert 0x44#8) none .done) .done .done) = .next t ∧
      ((running full4 [.run .rx] (lineOf .inbound .producer (.insert 0x44#8) none .done) .done .done).block
        .inbound).initDone = true ∧ (t.block .inbound).faults = [⟨.insertWhenFull, .producer, 0x444#11, some 4⟩] :=
  ⟨_, rfl, rfl, by decide⟩

theorem witness_EqualIndicesMeanEmptyOrFull :
    (full4.Inv ∧ full4.initDone = true ∧ full4.head.val = full4.tail.val) ∧
      (empty4.Inv ∧ empty4.initDone = true ∧ empty4.head.val = empty4.tail.val) := by decide

/-- A block of each class, and of capacity 1. -/
theorem witness_StateClassesFollowTheTable :
    (facing .owner (raw 3 0 0 4)).cur.stateClass = .uninitialised ∧ (facing .owner empty4).cur.stateClass = .empty ∧
      (facing .owner three4).cur.stateClass = .partiallyFull ∧ (facing .owner full4).cur.stateClass = .full ∧
      (facing .owner full1).cur.stateClass = .full ∧ (facing .owner empty1).cur.stateClass = .empty ∧
      full1.size = 1 := by decide

/-- The same inbound block beside two different outbound blocks. -/
theorem witness_InstancesAreDisjoint :
    (∃ t, transact .inbound .producer 0x441#11 (sys three4) = .next t ∧ InstName.outbound ≠ .inbound) ∧
      ∃ t t', (sys three4).block .inbound = ((sys full1).setBlock .inbound three4).block .inbound ∧
        (sys three4).draws = ((sys full1).setBlock .inbound three4).draws ∧
        transact .inbound .producer 0x441#11 (sys three4) = .next t ∧
        transact .inbound .producer 0x441#11 ((sys full1).setBlock .inbound three4) = .next t' :=
  ⟨⟨_, rfl, nofun⟩, _, _, rfl, rfl, rfl, rfl⟩

/-- From empty, and to full at the wrap of tail. -/
theorem witness_InsertAppendsToContents :
    ((facing .producer three4).cur.Inv ∧ (facing .producer three4).txn.agent = .producer ∧
        (facing .producer three4).cur.initDone = true ∧
        (facing .producer three4).cur.count.val ≠ (facing .producer three4).cur.size) ∧
      (facing .producer empty1).cur.Inv ∧ (facing .producer empty1).txn.agent = .producer ∧
        (facing .producer empty1).cur.initDone = true ∧
        (facing .producer empty1).cur.count.val ≠ (facing .producer empty1).cur.size := by decide

/-- One byte, and two bytes over the wrap with C = 3. -/
theorem witness_RemoveDropsTheOldest :
    ((facing .consumer full1).txn.agent = .consumer ∧ (facing .consumer full1).cur.initDone = true ∧
        (facing .consumer full1).cur.contents = some 0x58#8 :: []) ∧
      (facing .consumer two3).txn.agent = .consumer ∧ (facing .consumer two3).cur.initDone = true ∧
        (facing .consumer two3).cur.contents = some 0x0B#8 :: [some 0x0C#8] := by decide

theorem witness_PublishedBytesAreReadable :
    (facing .consumer two3).cur.Inv ∧ (facing .consumer two3).txn.agent = .consumer ∧
      (facing .consumer two3).cur.initDone = true ∧ (facing .consumer two3).cur.count.val ≠ 0 := by decide

theorem witness_InsertSparesOccupiedSlots :
    two3.Inv ∧ two3.initDone = true ∧ two3.count.val ≠ two3.size ∧ 0 < two3.count.val ∧ 1 < two3.count.val := by decide

/-- A fault, and each operation without one, at the limits of count. -/
theorem witness_CountStaysWithinCapacity :
    (∃ t, exec (.insert 0x41#8) (facing .producer full4) = .next t ∧
        t.cur.faults ≠ (facing .producer full4).cur.faults) ∧
      (∃ t, exec (.insert 0x41#8) (facing .producer three4) = .next t ∧
        t.cur.faults = (facing .producer three4).cur.faults) ∧
      (∃ t, exec .remove (facing .consumer one4) = .next t ∧ t.cur.faults = (facing .consumer one4).cur.faults) ∧
      ∃ t, exec .init (facing .owner full4) = .next t ∧ t.cur.faults = (facing .owner full4).cur.faults :=
  ⟨⟨_, rfl, by decide⟩, ⟨_, rfl, rfl⟩, ⟨_, rfl, rfl⟩, ⟨_, rfl, rfl⟩⟩

/-- The last index, another one, and the powers of two 1 and 4. -/
theorem witness_NextIndexWrapsByMaskOrModulo :
    three4.tail.val = three4.size - 1 ∧ three4.head.val ≠ three4.size - 1 ∧ three4.size = 2 ^ 2 ∧
      full1.tail.val = full1.size - 1 ∧ full1.size = 2 ^ 0 := by decide

theorem witness_QueriesAreOppositeAtCapacityOne :
    ((facing .producer full1).cur.size = 1 ∧ (facing .producer full1).cur.initDone = true ∧
        (facing .producer full1).txn.agent = .producer) ∧
      (facing .consumer empty1).cur.size = 1 ∧ (facing .consumer empty1).cur.initDone = true ∧
        (facing .consumer empty1).txn.agent = .consumer := by decide

/-- Both queries; X1 of 95_test_vectors.md, one byte below full, full, and C = 1. -/
theorem witness_RacingQueryAnswersForItsOwnStep :
    (Instr.isEmpty = .isEmpty ∨ Instr.isEmpty = .isFull) ∧ (Instr.isFull = .isEmpty ∨ Instr.isFull = .isFull) ∧
      ((sys empty4).block .inbound).initDone = true ∧ ((sys three4).block .inbound).initDone = true ∧
      ((sys full4).block .outbound).initDone = true ∧ ((sys full1).block .outbound).initDone = true := by decide

/-- Two INSERTs and two REMOVEs from empty; an INIT from power-on. -/
theorem witness_FifoOrderUnderEveryInterleaving :
    ((sys empty4).block .inbound).Inv ∧ ((sys empty4).block .inbound).initDone = true ∧
      (∀ x ∈ [ins 0x41#8, ins 0x42#8, rem, rem],
        ¬(x.inst = .inbound ∧ x.agent = .owner ∧ decode x.word = .op .init)) ∧
      ((sys (raw 3 2 1 3)).block .inbound).Inv ∧ decode 0x1FF#11 = .op .init := by decide

/-- Exactly C = 1 byte, and two bytes interleaved with C = 4. -/
theorem witness_RoundTripReturnsTheSequence :
    (((sys empty1).block .inbound).Inv ∧ ((sys empty1).block .inbound).initDone = true ∧
        ((sys empty1).block .inbound).count.val = 0 ∧ balanced .inbound [ins 0x58#8, rem] 0 = true ∧
        (insertBytes .inbound [ins 0x58#8, rem]).length ≤ ((sys empty1).block .inbound).size) ∧
      ((sys empty4).block .inbound).Inv ∧ ((sys empty4).block .inbound).initDone = true ∧
        ((sys empty4).block .inbound).count.val = 0 ∧
        balanced .inbound [ins 0x41#8, rem, ins 0x42#8, rem] 0 = true ∧
        (insertBytes .inbound [ins 0x41#8, rem, ins 0x42#8, rem]).length ≤ ((sys empty4).block .inbound).size := by
  decide

/-- X7 of 95_test_vectors.md: a REMOVE follows the Producer's check. -/
theorem witness_ProducersCheckStaysValid :
    ((sys three4).block .inbound).initDone = true ∧ decode 0x300#11 = .op .isFull ∧
      (∃ t, transact .inbound .producer 0x300#11 (sys three4) = .next t ∧ t.resp .inbound .producer = some 0x00#8) ∧
      ∀ x ∈ [rem], ¬(x.inst = .inbound ∧ x.agent = .producer ∧ ∃ b, decode x.word = .op (.insert b)) := by
  refine ⟨by decide, by decide, ⟨_, rfl, by decide⟩, fun x hx h => ?_⟩
  rw [List.mem_singleton.mp hx] at h
  exact absurd h.2.1 (by decide)

theorem witness_ConsumersCheckStaysValidWithoutInit :
    ((sys one4).block .inbound).initDone = true ∧ decode 0x200#11 = .op .isEmpty ∧
      (∃ t, transact .inbound .consumer 0x200#11 (sys one4) = .next t ∧ t.resp .inbound .consumer = some 0x00#8) ∧
      (∀ x ∈ [ins 0x41#8], ¬(x.inst = .inbound ∧ x.agent = .consumer ∧ decode x.word = .op .remove)) ∧
      ∀ x ∈ [ins 0x41#8], ¬(x.inst = .inbound ∧ x.agent = .owner ∧ decode x.word = .op .init) :=
  ⟨by decide, by decide, ⟨_, rfl, by decide⟩, by decide, by decide⟩

/-- A dutiful run from an empty block: each side checks and acts. -/
theorem witness_PreCheckingCallersNeverFault :
    ((sys empty1).block .inbound).initDone = true ∧ dutifulRun .inbound [askFull, ins 0x58#8, askEmpty, rem]
      ⟨false, false⟩ (sys empty1) :=
  ⟨by decide, ⟨by decide, by decide, by decide, by decide, trivial⟩⟩

/-- The same with both checks already made. -/
theorem witness_PreCheckingCallersNeverFault_checked :
    ((sys three4).block .inbound).count.val < ((sys three4).block .inbound).size ∧
      0 < ((sys three4).block .inbound).count.val ∧
      dutifulRun .inbound [rem, ins 0x58#8] ⟨true, true⟩ (sys three4) :=
  ⟨by decide, by decide, ⟨by decide, by decide, trivial⟩⟩

/-- A transmit-ready that is raised: the first line is its handler's. -/
theorem witness_StepRunsTheDecodedOperation_raised :
    State.mover { running three4 [.transmitReady] .done .done .done with txArmed := true } = some .tx ∧
      ((State.turn { running three4 [.transmitReady] .done .done .done with txArmed := true }).ctx .tx).prog =
        .command .outbound .consumer 0x200#11 (some 0) (.ifThen (.var 0) (.disarmTx .done) txSending .done) ∧
      decode 0x200#11 = .op .isEmpty := by decide

/-- A word of an operation as the last line, and a reserved word. -/
theorem witness_StepRunsTheDecodedOperation :
    ((running three4 [.run .rx] (.command .inbound .producer 0x441#11 none .done) .done .done).mover = some .rx ∧
      ((running three4 [.run .rx] (.command .inbound .producer 0x441#11 none .done) .done .done).turn.ctx .rx).prog =
        .command .inbound .producer 0x441#11 none .done) ∧
      (sys three4).wiring.holds .rx .inbound .producer = true ∧ decode 0x441#11 = .op (.insert 0x41#8) ∧
      decode 0x7FF#11 = .invalid (.reservedOpcode 0b111#3) := by decide

theorem witness_SharedRolesAreRefused :
    ((running three4 [.run .rx] (.command .outbound .producer 0x441#11 none .done) .done .done).mover = some .rx ∧
      ((running three4 [.run .rx] (.command .outbound .producer 0x441#11 none .done) .done .done).turn.ctx .rx).prog =
        .command .outbound .producer 0x441#11 none .done ∧
      (sys three4).wiring.holds .rx .outbound .producer = false) ∧
      step (running three4 [.run .rx] (.command .outbound .producer 0x441#11 none .done) .done .done) =
        .refused .roleNotHeld := ⟨by decide, rfl⟩

/-- An `if`, a loop, a result and a transmission that read a name to which nothing is bound. -/
theorem witness_OnlyUnboundReadsFault :
    ((running three4 [.run .rx] (.ifThen (.var 9) .done .done .done) .done .done).mover = some .rx ∧
        ((running three4 [.run .rx] (.ifThen (.var 9) .done .done .done) .done .done).turn.ctx .rx).readsUnbound = true) ∧
      CtxState.readsUnbound ⟨[(1, 0x01#8)], .whileDo (.var 9) .done .done⟩ = true ∧
      CtxState.readsUnbound ⟨[(1, 0x01#8)], .assign 1 (.not (.var 9)) .done⟩ = true ∧
      CtxState.readsUnbound ⟨[(1, 0x01#8)], .transmit 9 .done⟩ = true ∧
      CtxState.readsUnbound ⟨[(1, 0x01#8)], .transmit 1 .done⟩ = false := by decide

theorem witness_HeldPortsAreKept :
    (running three4 [.run .tx] (rxHandler 0x41#8) txHandler (expand (.write 0x42#8) 0)).onHeldPorts ∧
      (running three4 [.run .tx] (rxHandler 0x41#8) txHandler (expand (.write 0x42#8) 0)).TransportWired ∧
      (running three4 [.run .tx] (rxHandler 0x41#8) txHandler (expand (.write 0x42#8) 0)).wiring.holds .tx .outbound
        .consumer = true ∧
      ∃ t, step (running three4 [.run .tx] (rxHandler 0x41#8) txHandler (expand (.write 0x42#8) 0)) = .next t :=
  ⟨fun c => by cases c <;> rfl, by decide, by decide, _, rfl⟩

/-- The notification; a full buffer; one byte below full. -/
theorem witness_ByteReceivedInsertsOrDrops :
    (running full4 [.byteReceived 0x61#8] .done .done .done).schedule = .byteReceived 0x61#8 :: [] ∧
      ((running full4 [.run .rx, .run .rx] (rxHandler 0x61#8) .done .done).rx.prog = rxHandler 0x61#8 ∧
        (sys full4).wiring.holds .rx .inbound .producer = true ∧
        full4.initDone = true ∧ full4.Inv ∧ full4.count.val = full4.size) ∧
      ((running three4 [.run .rx, .run .rx] (rxHandler 0x61#8) .done .done).schedule =
          .run .rx :: .run .rx :: [] ∧
        three4.initDone = true ∧ three4.Inv ∧ three4.count.val ≠ three4.size) := by decide

/-- The notification while disarmed and while its context is busy; an empty buffer; a full buffer of one byte. -/
theorem witness_TransmitReadySendsOrDisarms :
    ((running empty4 [.transmitReady] .done .done .done).schedule = .transmitReady :: [] ∧
        (running empty4 [.transmitReady] .done .done .done).txArmed = false ∧
        (running empty4 [.transmitReady] .done txSending .done).tx.prog ≠ .done) ∧
      ({ running empty4 [.transmitReady] .done .done .done with txArmed := true }.tx.prog = .done ∧
        (sys empty4).wiring.holds .tx .outbound .consumer = true ∧ empty4.initDone = true ∧
        empty4.count.val = 0) ∧
      ((running full1 [.transmitReady, .run .tx] .done .done .done).schedule = .transmitReady :: .run .tx :: [] ∧
        full1.initDone = true ∧ full1.contents = some 0x58#8 :: []) := by decide

/-- A handler under way with the notification armed; a notification that is raised. -/
theorem witness_HandlerRunsOnlyWhileArmed :
    (HandlerIsArmed { running three4 [.run .tx] (rxHandler 0x41#8) txSending (expand (.write 0x42#8) 0) with
        txArmed := true } ∧
      ∃ t, step { running three4 [.run .tx] (rxHandler 0x41#8) txSending (expand (.write 0x42#8) 0) with
        txArmed := true } = .next t) ∧
      HandlerIsArmed { running three4 [.transmitReady] .done .done .done with txArmed := true } ∧
      State.mover { running three4 [.transmitReady] .done .done .done with txArmed := true } = some .tx ∧
      ((State.turn { running three4 [.transmitReady] .done .done .done with txArmed := true }).ctx .tx).prog ≠ .done :=
  ⟨⟨⟨fun c _ => by cases c <;> rfl, .inr ⟨rfl, rfl⟩⟩, _, rfl⟩,
    ⟨fun c _ => by cases c <;> rfl, .inl rfl⟩, rfl, by decide⟩

theorem witness_WriteInsertsThenRearms :
    (running full4 [.run .loop, .run .loop] .done .done (expand (.write 0x48#8) 0)).schedule =
        .run .loop :: .run .loop :: [] ∧
      (running full4 [.run .loop, .run .loop] .done .done (expand (.write 0x48#8) 0)).loop.prog =
        expand (.write 0x48#8) 0 ∧
      (sys full4).wiring.holds .loop .outbound .producer = true := by decide

/-- CAN_WRITE at the limits of count, CAN_READ likewise, and READ. -/
theorem witness_ControlLoopCallsBindTheirResults :
    ((running full4 [.run .loop] .done .done (expand (.canWrite 1) 0)).schedule = .run .loop :: [] ∧
        (running full4 [.run .loop] .done .done (expand (.canWrite 1) 0)).loop.prog = expand (.canWrite 1) 0 ∧
        (running full4 [.run .loop] .done .done (expand (.canWrite 1) 0)).outbound.initDone = true) ∧
      ((running empty1 [.run .loop] .done .done (expand (.canRead 1) 0)).loop.prog = expand (.canRead 1) 0 ∧
        (running empty1 [.run .loop] .done .done (expand (.canRead 1) 0)).inbound.initDone = true) ∧
      ((running full1 [.run .loop] .done .done (expand (.read 1) 0)).loop.prog = expand (.read 1) 0 ∧
        (running full1 [.run .loop] .done .done (expand (.read 1) 0)).inbound.contents = some 0x58#8 :: []) ∧
      (sys full4).wiring.holds .loop .outbound .producer = true ∧
      (sys full4).wiring.holds .loop .inbound .consumer = true := by
  decide

/-- The Control Loop on an empty inbound buffer and on one of two bytes. -/
theorem witness_TryRemoveTakesOnlyWhatIsThere :
    (((running empty4 [.run .loop] .done .done (expand (.tryRemove .inbound 1 2) 0)).ctx .loop).prog =
          expand (.tryRemove .inbound 1 2) 0 ∧
        (sys empty4).wiring.holds .loop .inbound .consumer = true ∧
        ((running empty4 [.run .loop] .done .done (expand (.tryRemove .inbound 1 2) 0)).block .inbound).initDone = true ∧
        (2 : Var) ≠ 0 ∧ (1 : Var) ≠ 2 ∧ (empty4.count.val = 0)) ∧
      ((running two3 [.run .loop, .run .loop] .done .done (expand (.tryRemove .inbound 1 2) 0)).schedule =
          .run .loop :: .run .loop :: [] ∧
        ((running two3 [.run .loop, .run .loop] .done .done (expand (.tryRemove .inbound 1 2) 0)).block
          .inbound).contents = some 0x0B#8 :: [some 0x0C#8]) := by
  decide

/-- The Control Loop between its INSERT and its re-arm, with a handler under way. -/
theorem witness_NoByteIsStranded :
    NoStrandedByte (running one4 [.run .tx] (rxHandler 0x41#8) txHandler (.rearmTx .done)) ∧
      ∃ t, step (running one4 [.run .tx] (rxHandler 0x41#8) txHandler (.rearmTx .done)) = .next t :=
  ⟨⟨rfl, rfl, fun c h => by cases c <;> first | rfl | exact absurd rfl h, .handler .done .done, fun _ => .inr (.inr rfl)⟩, _, rfl⟩

/-- Systems of one, two and three instances. -/
theorem witness_SystemsAreLaidOutAsGiven :
    oneInst.wellFormed = true ∧ Config.original.wellFormed = true ∧ threeInst.wellFormed = true ∧
      threeInst.length = 3 := by decide

/-- An INIT of the third instance of three, by the context that holds its Owner role. -/
theorem witness_StepsKeepTheSystem :
    (((State.powerOn threeInst).setProg (.mainFlow 0) (lineOf (.other 2) .owner .init none .done)).setSchedule
        [.run (.mainFlow 0)]).Fits ∧
      seen (step (((State.powerOn threeInst).setProg (.mainFlow 0)
          (lineOf (.other 2) .owner .init none .done)).setSchedule [.run (.mainFlow 0)]))
        (fun t => ((t.block (.other 2)).initDone, (t.block (.other 1)).initDone)) = some (true, false) := by decide

/-- R134: programs that have ended end the run, although a context may still be scheduled; a fault recorded. -/
theorem witness_RunsEndWithTheirPrograms :
    (running full4 [.run .rx] .done .done .done).ended = true ∧
      (running full4 [.run .rx] .done .done (.rearmTx .done)).ended = false ∧
      (∀ m ∈ (running full4 [.run .rx] .done .done .done).schedule, ∃ c, m = .run c) ∧
      ({ running full4 [] .done .done (.rearmTx .done) with
        blocks := [(.inbound, full4.log ⟨.insertWhenFull, .producer, 0x441#11, some 4⟩)] } : State).good = false :=
  ⟨by decide, by decide, fun m h => ⟨.rx, List.mem_singleton.1 h⟩, by decide⟩

/-- A notification or a program left keeps the run going, with a schedule and without one. -/
theorem witness_RunsGoOnUntilTheirEnd :
    (running full4 [.byteReceived 0x61#8] .done .done .done).ended = false ∧
      Move.byteReceived 0x61#8 ∈ (running full4 [.byteReceived 0x61#8] .done .done .done).schedule ∧
      (running full4 [.transmitReady] .done .done .done).ended = false ∧
      (running full4 [] .done .done (.rearmTx .done)).ended = false := by
  decide

theorem test_run_goes_on_without_schedule :
    (running full4 [] .done .done (.rearmTx .done)).running = [.loop] ∧
      seen (step (running full4 [] .done .done (.rearmTx .done))) (fun t => (t.txArmed, t.ended)) =
        some (true, true) := by
  have h : (running full4 [] .done .done (.rearmTx .done)).mover = some .loop := by
    show [Context.loop][Config.nextContext 0 % 1]? = _
    rw [Nat.mod_one]; rfl
  refine ⟨by decide, ?_⟩
  rw [step_mover h (by decide)]
  decide

/-- The two handlers and a WRITE have no loop. -/
theorem witness_LoopFreeRunsEnd :
    ∀ c, ((running three4 [.run .tx] (rxHandler 0x41#8) txHandler (expand (.write 0x42#8) 0)).ctx c).prog.loopFree =
      true := fun c => by cases c <;> rfl

end Sys2Proof.Tests
end

section
/-! PROOFS of the family 00_scope.md: systems as they are laid out, what every step keeps of a system, and where a
draw may be taken. -/

namespace Sys2Proof.Machine

/-! ### The next index (00_scope.md R8) -/

theorem nextIndex_val (x : Block) (i : Fin x.size) : (nextIndex x i).val = (i.val + 1) % x.size := rfl

/-- Settles O33: the sum stays below C but at C - 1, and the remainder by a power of two is a mask. -/
theorem nextIndexWrapsByMaskOrModulo : Obligations.NextIndexWrapsByMaskOrModulo := by
  intro x i
  have hi : i.val < x.size := i.isLt
  simp only [nextIndex_val]
  refine ⟨fun h => ?_, fun h => Nat.mod_eq_of_lt (by omega), fun n hn => ?_⟩
  · have hC : i.val + 1 = x.size := by omega
    rw [hC, Nat.mod_self]
  · have hmask : (i.val + 1) &&& (2 ^ n - 1) = (i.val + 1) % 2 ^ n := Nat.and_two_pow_sub_one_eq_mod _ n
    rw [← hn] at hmask
    exact hmask.symm

/-! ### Tables and wirings with one entry per name -/

/-- Where no name comes twice, a name reads as its entry. -/
theorem entryAt_of_mem {κ α : Type} [DecidableEq κ] (d : α) {k : κ} {x : α} {l : List (κ × α)}
    (hn : (l.map Prod.fst).Nodup) (h : (k, x) ∈ l) : entryAt d k l = x := by
  induction l with
  | nil => exact absurd h List.not_mem_nil
  | cons q rest ih =>
    obtain ⟨hq, hrest⟩ := List.nodup_cons.mp hn
    rcases List.mem_cons.mp h with rfl | h
    · exact if_pos rfl
    · have hne : q.1 ≠ k := fun e => hq (e ▸ List.mem_map_of_mem h)
      exact (if_neg hne).trans (ih hrest h)

/-- The holders of one role are a table by instance. -/
theorem holder?_eq_entryAt (y : Wiring) (k : InstName) (a : Agent) :
    y.holder? k a = entryAt none k (y.map fun p => (p.1, some (p.2.holder a))) := by
  induction y with
  | nil => rfl
  | cons p rest ih => simp only [Wiring.holder?, List.map_cons, entryAt, ih]

/-- Where no instance comes twice, each role is held by the holder listed for it. -/
theorem holder?_of_mem {y : Wiring} {p : InstName × Roles} (a : Agent) (hn : y.names.Nodup) (h : p ∈ y) :
    y.holder? p.1 a = some (p.2.holder a) := by
  rw [holder?_eq_entryAt]
  refine entryAt_of_mem none ?_ (List.mem_map.mpr ⟨p, h, rfl⟩)
  rw [List.map_map]; exact hn

/-! ### Systems at power-on (00_scope.md R11) -/

/-- A well-formed system names no instance twice. -/
theorem names_nodup_of_wellFormed {y : System} (h : y.wellFormed = true) : (y.map fun p => p.name).Nodup :=
  of_decide_eq_true (Bool.and_eq_true_iff.mp h).1

theorem names_wiring (y : System) : y.wiring.names = y.map fun p => p.name := List.map_map

/-- At power-on each instance has one block and one record of responses. -/
theorem powerOn_fits (y : System) : (State.powerOn y).Fits := by
  simp only [State.Fits, State.powerOn, names_wiring, List.map_map]
  exact ⟨rfl, rfl⟩

/-- The block laid out for an instance is a block at power-on with the C given for it. -/
theorem block_powerOn {y : System} {p : InstanceParams} (h : y.wellFormed = true) (hp : p ∈ y) :
    (State.powerOn y).block p.name = Block.powerOn p.name p.cap := by
  have hn : ((State.powerOn y).blocks.map Prod.fst).Nodup := by
    rw [(powerOn_fits y).1]
    exact names_wiring y ▸ names_nodup_of_wellFormed h
  exact entryAt_of_mem _ hn (List.mem_map.mpr ⟨p, hp, rfl⟩)

/-- A context holds a role of an instance exactly where it is the holder given for it. -/
theorem holds_wiring_iff {y : System} {p : InstanceParams} (h : y.wellFormed = true) (hp : p ∈ y) (c : Context)
    (a : Agent) : y.wiring.holds c p.name a = true ↔ c = p.roles.holder a := by
  have hn : y.wiring.names.Nodup := names_wiring y ▸ names_nodup_of_wellFormed h
  have hh : y.wiring.holder? p.name a = some (p.roles.holder a) :=
    holder?_of_mem a hn (List.mem_map.mpr ⟨p, hp, rfl⟩)
  rw [holds_iff, hh, Option.some.injEq, eq_comm]

/-- Settles O53: the tables at power-on list the parameters given, and no name comes twice. -/
theorem systemsAreLaidOutAsGiven : Obligations.SystemsAreLaidOutAsGiven := by
  refine ⟨fun y hy => ⟨List.length_map _, powerOn_fits y, fun p hp => ⟨p.cap.size_pos, ?_, ?_⟩⟩, rfl, by decide, rfl⟩
  · rw [block_powerOn hy hp]; rfl
  · exact holds_wiring_iff hy hp

/-! ### What one step does to the system -/

/-- The instances, their holders, their blocks and responses, and the number of draws are the same. -/
structure SameSystem (s t : State) : Prop where
  wiring : t.wiring = s.wiring
  blocks : t.blocks = s.blocks
  resps  : t.resps = s.resps
  draws  : t.draws = s.draws

theorem SameSystem.refl (s : State) : SameSystem s s := ⟨rfl, rfl, rfl, rfl⟩

theorem SameSystem.trans {s t u : State} (h : SameSystem s t) (g : SameSystem t u) : SameSystem s u :=
  ⟨g.wiring.trans h.wiring, g.blocks.trans h.blocks, g.resps.trans h.resps, g.draws.trans h.draws⟩

theorem SameSystem.block {s t : State} (h : SameSystem s t) (k : InstName) : t.block k = s.block k := by
  rw [State.block, h.blocks]; rfl

theorem SameSystem.fits_iff {s t : State} (h : SameSystem s t) : t.Fits ↔ s.Fits := by
  simp only [State.Fits, h.wiring, h.blocks, h.resps]

theorem LocalTo.sameSystem {c : Context} {s t : State} (h : LocalTo c s t) : SameSystem s t :=
  ⟨h.wiring, h.blocks, h.resps, h.draws⟩

theorem reorder_sameSystem (s : State) (l : List Move) (n : Nat) : SameSystem s (s.reorder l n) :=
  ⟨rfl, rfl, rfl, rfl⟩

/-- What a step does to the system: nothing, or one transaction on a port of one of its instances. -/
inductive SystemStep (s t : State) : Prop where
  | quiet (h : SameSystem s t)
  | transacted {k : InstName} {a : Agent} {w : Cmd} {u v : State} (hk : k ∈ s.wiring.names)
      (before : SameSystem s u) (h : transact k a w u = .next v) (after : SameSystem v t)

/-- A context's step, from a state `s` of the system `s₀`. -/
theorem runContext_systemStep {c : Context} {s₀ s t : State} (h₀ : SameSystem s₀ s)
    (h : runContext c s = .next t) : SystemStep s₀ t := by
  rcases runContext_cases h with ⟨k, a, w, x, rest, u, _, hh, hu, rfl⟩ | hl
  · exact .transacted (h₀.wiring ▸ mem_names_of_holds hh) (h₀.trans (setProg_local s c rest).sameSystem) hu
      ((bindResponse_local c x _ u).trans (settle_local c _)).sameSystem
  · exact .quiet (h₀.trans hl.sameSystem)

theorem step_systemStep {s t : State} (h : step s = .next t) : SystemStep s t := by
  cases step_of h with
  | ended => exact .quiet (.refl s)
  | ran l n c hc => exact runContext_systemStep (reorder_sameSystem s l n) hc
  | received l b => exact .quiet ((reorder_sameSystem s l _).trans (queue_local _ .rx _).sameSystem)
  | ready l _ hc =>
    exact runContext_systemStep ((reorder_sameSystem s l _).trans (setProg_local _ .tx _).sameSystem) hc
  | ignored l => exact .quiet (reorder_sameSystem s l _)

/-! ### The instances and their holders stay (00_scope.md R10, R11) -/

/-- A transaction on an instance of the system keeps one block and one record of responses per instance. -/
theorem transact_fits {k : InstName} {a : Agent} {w : Cmd} {s t : State} (hk : k ∈ s.wiring.names)
    (h : transact k a w s = .next t) (hs : s.Fits) : t.Fits := by
  obtain ⟨hb, r, hr⟩ := transact_tables h
  obtain ⟨hblocks, hresps⟩ := hs
  have hw : t.wiring = s.wiring := (transact_same h).wiring
  constructor
  · rw [hw, ← hblocks]
    rcases hb with hb | hb
    · rw [hb]
    · rw [hb, names_setEntry _ (hblocks ▸ hk)]
  · rw [hw, ← hresps, hr, names_setEntry _ (hresps ▸ hk)]

/-- Settles O54: a step writes no wiring, and in the tables only the entry of an instance that has one. -/
theorem stepsKeepTheSystem : Obligations.StepsKeepTheSystem := by
  intro s t h
  cases step_systemStep h with
  | quiet hl => exact ⟨hl.wiring, hl.fits_iff.mpr⟩
  | transacted hk before hu after =>
    refine ⟨after.wiring.trans ((transact_same hu).wiring.trans before.wiring), fun hs => ?_⟩
    exact after.fits_iff.mpr (transact_fits (before.wiring ▸ hk) hu (before.fits_iff.mpr hs))

/-! ### No record is lost (60_exceptions.md R98) -/

/-- From block `x` to block `y` the capacity stayed, init_done was not cleared, and the log has at most one record
more, at its end. -/
structure Block.Keeps (x y : Block) : Prop where
  cap      : y.cap = x.cap
  initDone : x.initDone = true → y.initDone = true
  faults   : y.faults = x.faults ∨ ∃ r, y.faults = x.faults ++ [r]

theorem Block.Keeps.refl (x : Block) : x.Keeps x := ⟨rfl, id, .inl rfl⟩

theorem log_keeps (x : Block) (r : FaultRecord) : x.Keeps (x.log r) := ⟨rfl, id, .inr ⟨r, rfl⟩⟩

theorem BlockStep.keeps {i : Instr} {a : Agent} {x y : Block} (h : BlockStep i a x y) : x.Keeps y := by
  cases h with
  | recorded r => exact log_keeps x r
  | cleared => exact ⟨rfl, fun _ => rfl, .inl rfl⟩
  | queried => exact .refl x
  | pushed => exact ⟨rfl, id, .inl rfl⟩
  | popped => exact ⟨rfl, id, .inl rfl⟩

theorem transact_keeps {k : InstName} {a : Agent} {w : Cmd} {s t : State} (h : transact k a w s = .next t)
    (j : InstName) : (s.block j).Keeps (t.block j) := by
  by_cases hj : j = k
  · subst hj
    rcases transact_block h with ⟨r, hr⟩ | ⟨i, _, hb⟩
    · rw [hr]; exact log_keeps _ r
    · exact hb.keeps
  · rw [transact_block_ne h hj]; exact .refl _

theorem step_keeps {s t : State} (h : step s = .next t) (k : InstName) : (s.block k).Keeps (t.block k) := by
  cases step_systemStep h with
  | quiet hl => rw [hl.block]; exact .refl _
  | transacted _ before hu after => rw [after.block, ← before.block]; exact transact_keeps hu k

/-- Settles O24, from what a transaction can do to a block. -/
theorem stepsNeverLoseRecords : Obligations.StepsNeverLoseRecords := by
  intro s t k h
  obtain ⟨hcap, hinit, hfaults⟩ := step_keeps h k
  exact ⟨hcap, hinit, hfaults⟩

/-! ### Draws (00_scope.md R14; 10_state.md R36) -/

/-- An operation recorded one fault and gave a fault's answer. -/
def FaultAnswered (i : Instr) (s t : State) : Prop :=
  (∃ r, t.cur.faults = s.cur.faults ++ [r]) ∧ AnswersFault i s t

/-- An operation recorded no fault and took no draw, and where it is a REMOVE it answered the byte of a written
slot. -/
def Undrawn (i : Instr) (s t : State) : Prop :=
  t.cur.faults = s.cur.faults ∧ t.draws = s.draws ∧
    (i = .remove → (Memory.read s.cur.storage s.cur.head.val).isSome = true ∧
      t.answer = Memory.read s.cur.storage s.cur.head.val)

theorem FaultAnswered.faults_ne {i : Instr} {s t : State} (h : FaultAnswered i s t) :
    t.cur.faults ≠ s.cur.faults := by
  obtain ⟨⟨r, hr⟩, _⟩ := h
  simp [hr]

theorem AnswersFault.draws {i : Instr} {s t : State} (h : AnswersFault i s t) :
    t.draws = s.draws ∨ t.draws = s.draws + 1 := by
  cases i with
  | init => exact .inl h.2
  | insert b => exact .inl h.2
  | isEmpty => exact .inr h.2
  | isFull => exact .inr h.2
  | remove => exact .inr h.2

theorem violate_faultAnswered (c : Cause) (i : Instr) (s : State) : FaultAnswered i s (violate c i s) := by
  obtain ⟨⟨hcur, _⟩, hans⟩ := violate_spec c i s
  exact ⟨⟨_, congrArg Block.faults hcur⟩, hans⟩

/-- An operation that answers and leaves the log of its block, and is no REMOVE, takes no draw. -/
theorem respond_undrawn {i : Instr} (hi : i ≠ .remove) (r : Option Byte) {s u : State}
    (hf : u.cur.faults = s.cur.faults) (hd : u.draws = s.draws) : Undrawn i s (respond r u) := by
  obtain ⟨_, hcur, _, hdraws⟩ := respond_spec r u
  exact ⟨hcur ▸ hf, hdraws.trans hd, fun h => absurd h hi⟩

/-- In a block that meets the invariant and is not empty the slot head is written (R36). -/
theorem Block.Inv.head_written {x : Block} (hx : x.Inv) (hd : x.initDone = true) (h0 : x.count.val ≠ 0) :
    (Memory.read x.storage x.head.val).isSome = true := by
  obtain ⟨_, _, hi⟩ := hx
  rw [← slot_zero]
  exact (hi hd).2 0 (Nat.pos_of_ne_zero h0)

/-- A REMOVE of a written slot answers its byte and takes no draw. -/
theorem respondSlot_undrawn {s : State} (hw : (Memory.read s.cur.storage s.cur.head.val).isSome = true) :
    Undrawn .remove s (respondSlot (Memory.read s.cur.storage (removeSlot s.cur)) (s.setCur s.cur.pop)) := by
  obtain ⟨v, hv⟩ := Option.isSome_iff_exists.mp hw
  have hslot : Memory.read s.cur.storage (removeSlot s.cur) = some v := hv
  obtain ⟨_, hcur, hans, hdraws⟩ := respond_spec (some v) (s.setCur s.cur.pop)
  rw [hslot]
  refine ⟨?_, hdraws, fun _ => ⟨hw, hans.trans hv.symm⟩⟩
  show (respond _ _).cur.faults = _
  rw [hcur, cur_setCur]; rfl

/-- Under the invariant an operation takes a draw only for a fault that it records. -/
theorem ran_undrawn_or_faultAnswered {i : Instr} {s t : State} (hx : s.cur.Inv) (h : Ran i s t) :
    Undrawn i s t ∨ FaultAnswered i s t := by
  cases h with
  | faulted c => exact .inr (violate_faultAnswered c i s)
  | cleared hi =>
    exact .inl (respond_undrawn (u := s.setCur s.cur.clear) (hi ▸ nofun) _ (by rw [cur_setCur]; rfl) rfl)
  | saidEmpty hi => exact .inl (respond_undrawn (u := s) (hi ▸ nofun) _ rfl rfl)
  | saidFull hi => exact .inl (respond_undrawn (u := s) (hi ▸ nofun) _ rfl rfl)
  | inserted b hi _ _ hf =>
    exact .inl (respond_undrawn (u := s.setCur (s.cur.push b hf)) (hi ▸ nofun) _ (by rw [cur_setCur]; rfl) rfl)
  | removed hi _ hd h0 => subst hi; exact .inl (respondSlot_undrawn (hx.head_written hd h0))

/-- From `s` to `t` no draw was taken, or one with a record in the log of instance `k`. -/
def DrawsWithRecord (k : InstName) (s t : State) : Prop :=
  t.draws = s.draws ∨ (t.draws = s.draws + 1 ∧ ∃ r, (t.block k).faults = (s.block k).faults ++ [r])

theorem transact_drawsWithRecord {k : InstName} {a : Agent} {w : Cmd} {s t : State} (hx : (s.block k).Inv)
    (h : transact k a w s = .next t) : DrawsWithRecord k s t := by
  unfold DrawsWithRecord
  rw [(transact_cur h).2.1]
  unfold transact at h
  split at h
  · rcases ran_undrawn_or_faultAnswered (s := s.present k a w) hx (ran_of_exec h) with ⟨_, hd, _⟩ | ⟨hr, ha⟩
    · exact .inl hd
    · exact ha.draws.imp_right fun hd => ⟨hd, hr⟩
  · cases h; exact .inl (violateReserved_spec (s.present k a w)).2.2

/-- Settles O12: the invariant has the slot head written wherever a REMOVE passes its checks, so only a fault
draws. -/
theorem drawsComeOnlyWithAFault : Obligations.DrawsComeOnlyWithAFault := by
  refine ⟨fun i s hx => ?_, fun s t hx h => ?_⟩
  · obtain ⟨t, ht, hran⟩ := exec_ran i s
    refine ⟨t, ht, ?_⟩
    rcases ran_undrawn_or_faultAnswered hx hran with ⟨hf, hd, hrem⟩ | hfa
    · exact ⟨.inl ⟨hf, hd⟩, fun hi _ => hrem hi⟩
    · exact ⟨.inr hfa, fun _ hf => absurd hf hfa.faults_ne⟩
  · cases step_systemStep h with
    | quiet hl => exact .inl hl.draws
    | transacted _ before hu after =>
      have hd := transact_drawsWithRecord (before.block _ ▸ hx.block _) hu
      rw [DrawsWithRecord, ← after.draws, ← after.block, before.draws, before.block] at hd
      exact hd.imp_right fun ⟨hdraw, r, hr⟩ => ⟨hdraw, _, r, hr⟩

end Sys2Proof.Machine
end

section
/-! PROOFS of the family 10_state.md: the block invariant, the state classes, and which operation writes which
field. -/

namespace Sys2Proof.Machine

/-! ### Power-on (10_state.md R39) -/

/-- Every name reads, at power-on of any system, as a block at power-on. -/
theorem powerOn_block (y : System) (k : InstName) : ∃ c, (State.powerOn y).block k = Block.powerOn k c := by
  rcases entryAt_cases (Block.powerOn k (Config.capacity k)) k (State.powerOn y).blocks with hm | ⟨_, he⟩
  · obtain ⟨p, _, hp⟩ := List.mem_map.mp hm
    obtain ⟨rfl, hblock⟩ := Prod.mk.inj hp
    exact ⟨p.cap, hblock.symm⟩
  · exact ⟨Config.capacity k, he⟩

/-- Settles O20: every block reads as one at power-on, and the log of each entry is empty. -/
theorem powerOnIsUninitialised : Obligations.PowerOnIsUninitialised := by
  refine fun y => ⟨fun k => ?_, List.all_eq_true.mpr fun p hp => ?_, rfl⟩
  · obtain ⟨c, hc⟩ := powerOn_block y k
    rw [hc]
    exact ⟨rfl, rfl, fun _ => rfl, rfl⟩
  · obtain ⟨q, _, rfl⟩ := List.mem_map.mp hp
    rfl

/-- Settles O22: every entry is a block at power-on. -/
theorem powerOnMeetsBlockInvariant : Obligations.PowerOnMeetsBlockInvariant := by
  have hall : ∀ y : System, (State.powerOn y).Inv := fun y p hp => by
    obtain ⟨q, _, rfl⟩ := List.mem_map.mp hp
    exact powerOn_inv q.name q.cap
  exact ⟨hall Config.original, hall⟩

/-! ### Every step keeps the invariant (10_state.md R34, R36) -/

theorem log_inv {x : Block} (r : FaultRecord) (hx : x.Inv) : (x.log r).Inv := hx

/-- Whatever an operation does to its block, it keeps the invariant. -/
theorem BlockStep.inv {i : Instr} {a : Agent} {x y : Block} (h : BlockStep i a x y) (hx : x.Inv) : y.Inv := by
  cases h with
  | recorded r => exact log_inv r hx
  | cleared => exact clear_inv hx
  | queried => exact hx
  | pushed _ _ _ hd => exact push_inv hx hd
  | popped _ _ hd h0 => exact pop_inv hx hd h0

theorem transact_block_inv {k : InstName} {a : Agent} {w : Cmd} {s t : State} (h : transact k a w s = .next t)
    (hx : (s.block k).Inv) : (t.block k).Inv := by
  rcases transact_block h with ⟨r, hr⟩ | ⟨_, _, hb⟩
  · rw [hr]; exact log_inv r hx
  · exact hb.inv hx

/-- A transaction keeps the invariant of the system: it writes the entry of its own instance at most. -/
theorem transact_inv {k : InstName} {a : Agent} {w : Cmd} {s t : State} (h : transact k a w s = .next t)
    (hs : s.Inv) : t.Inv := by
  obtain ⟨hb, _⟩ := transact_tables h
  rcases hb with hb | hb
  · rw [State.Inv, hb]; exact hs
  · intro p hp
    rw [hb] at hp
    rcases mem_setEntry hp with rfl | hp
    · exact transact_block_inv h (hs.block k)
    · exact hs p hp

theorem SameSystem.inv {s t : State} (h : SameSystem s t) (hs : s.Inv) : t.Inv := by
  rw [State.Inv, h.blocks]; exact hs

/-- Settles O23: a step is one transaction at most, and what goes with it writes no block. -/
theorem everyStepKeepsBlockInvariant : Obligations.EveryStepKeepsBlockInvariant := by
  intro s t hs h
  cases step_systemStep h with
  | quiet hl => exact hl.inv hs
  | transacted _ before hu after => exact after.inv (transact_inv hu (before.inv hs))

/-! ### Which operation writes which field (10_state.md R21 to R25) -/

section fields
variable {i : Instr} {a : Agent} {x y : Block}

theorem BlockStep.head_val (h : BlockStep i a x y) :
    y.head.val = x.head.val ∨ (i = .remove ∧ a = .consumer ∧ y.head.val = (x.head.val + 1) % x.size) ∨
      (i = .init ∧ a = .owner ∧ y.head.val = 0) := by
  cases h with
  | popped hi ha => exact .inr (.inl ⟨hi, ha, rfl⟩)
  | cleared hi ha => exact .inr (.inr ⟨hi, ha, rfl⟩)
  | recorded | queried | pushed => exact .inl rfl

theorem BlockStep.tail_val (h : BlockStep i a x y) :
    y.tail.val = x.tail.val ∨
      ((∃ b, i = .insert b) ∧ a = .producer ∧ y.tail.val = (x.tail.val + 1) % x.size) ∨
      (i = .init ∧ a = .owner ∧ y.tail.val = 0) := by
  cases h with
  | pushed b hi ha => exact .inr (.inl ⟨⟨b, hi⟩, ha, rfl⟩)
  | cleared hi ha => exact .inr (.inr ⟨hi, ha, rfl⟩)
  | recorded | queried | popped => exact .inl rfl

theorem BlockStep.count_val (h : BlockStep i a x y) :
    y.count.val = x.count.val ∨ ((∃ b, i = .insert b) ∧ a = .producer ∧ y.count.val = x.count.val + 1) ∨
      (i = .remove ∧ a = .consumer ∧ y.count.val + 1 = x.count.val) ∨
      (i = .init ∧ a = .owner ∧ y.count.val = 0) := by
  cases h with
  | pushed b hi ha => exact .inr (.inl ⟨⟨b, hi⟩, ha, rfl⟩)
  | popped hi ha _ h0 => exact .inr (.inr (.inl ⟨hi, ha, Nat.sub_one_add_one h0⟩))
  | cleared hi ha => exact .inr (.inr (.inr ⟨hi, ha, rfl⟩))
  | recorded | queried => exact .inl rfl

theorem BlockStep.initDone_eq (h : BlockStep i a x y) :
    y.initDone = x.initDone ∨ (i = .init ∧ a = .owner ∧ y.initDone = true) := by
  cases h with
  | cleared hi ha => exact .inr ⟨hi, ha, rfl⟩
  | recorded | queried | pushed | popped => exact .inl rfl

theorem BlockStep.read_storage (h : BlockStep i a x y) (n : Nat) :
    Memory.read y.storage n = Memory.read x.storage n ∨
      (n = x.tail.val ∧ a = .producer ∧ ∃ b, i = .insert b ∧ Memory.read y.storage n = some b) := by
  cases h with
  | pushed b hi ha =>
    by_cases hn : n = x.tail.val
    · exact .inr ⟨hn, ha, b, hi, hn ▸ read_write_same _ _ _⟩
    · exact .inl (read_write_ne _ _ hn)
  | recorded | cleared | queried | popped => exact .inl rfl

end fields

/-- Settles O13, field by field, from what an operation can do to its block. -/
theorem onlyListedOperationsWrite : Obligations.OnlyListedOperationsWrite := by
  intro i s t h
  have hb : BlockStep i s.txn.agent s.cur t.cur := (exec_effect h).2
  exact ⟨hb.head_val, hb.tail_val, hb.count_val, hb.initDone_eq, hb.read_storage⟩

/-! ### Head, tail and count (10_state.md R32, R34) -/

theorem Block.count_le_size (x : Block) : x.count.val ≤ x.size := Nat.lt_succ_iff.mp x.count.isLt

/-- Within one round of C slots, two distances from the same slot reach two slots. -/
theorem index_ne_of_lt (h : Nat) {n m c : Nat} (hnm : n < m) (hm : m < c) : (h + n) % c ≠ (h + m) % c := by
  intro he
  have hmod : n ≡ m [MOD c] := Nat.ModEq.add_left_cancel' h he
  exact hnm.ne (hmod.eq_of_lt_of_lt (hnm.trans hm) hm)

/-- In an initialised block that is not full the slot tail is not occupied. -/
theorem Block.Inv.insertSlot_free {x : Block} (hx : x.Inv) (hd : x.initDone = true) (hf : x.count.val ≠ x.size)
    {n : Nat} (hn : n < x.count.val) : (x.head.val + n) % x.size ≠ insertSlot x := by
  obtain ⟨_, _, hi⟩ := hx
  have htail : insertSlot x = (x.head.val + x.count.val) % x.size := (hi hd).1
  rw [htail]
  exact index_ne_of_lt x.head.val hn (lt_of_le_of_ne x.count_le_size hf)

/-- Settles O31: the slot tail lies count slots on from head, the occupied ones lie closer, and count is below
C. -/
theorem insertSparesOccupiedSlots : Obligations.InsertSparesOccupiedSlots :=
  fun _ hx hd hf _ hn => hx.insertSlot_free hd hf hn

/-- Settles O25: C is not 0; and a block neither empty nor full has head occupied and tail not. -/
theorem equalIndicesMeanEmptyOrFull : Obligations.EqualIndicesMeanEmptyOrFull := by
  refine ⟨fun x => ?_, fun x hx hd he => ?_⟩
  · rw [emptyFlag_iff, fullFlag_iff]
    rintro ⟨h0, hC⟩
    exact x.cap.size_pos.ne (h0.symm.trans hC)
  · rw [emptyFlag_iff, fullFlag_iff]
    by_contra hno
    obtain ⟨h0, hf⟩ := not_or.mp hno
    have hfree := hx.insertSlot_free hd hf (Nat.pos_of_ne_zero h0)
    rw [Nat.add_zero, Nat.mod_eq_of_lt x.head.isLt] at hfree
    exact hfree he

/-! ### What a Consumer finds (20_memory.md R52) -/

/-- Settles O30: the slot head of a block that is not empty is written, and REMOVE answers what it holds. -/
theorem publishedBytesAreReadable : Obligations.PublishedBytesAreReadable := by
  intro s hx ha hd h0
  have hw := hx.head_written hd h0
  obtain ⟨b, hb⟩ := Option.isSome_iff_exists.mp hw
  obtain ⟨_, hdraws, hrem⟩ := respondSlot_undrawn hw
  exact ⟨_, b, exec_remove ha hd h0, ⟨(hrem rfl).2.trans hb, hdraws⟩, hb⟩

/-! ### An operation without a fault

The log of its block is as before, so the operation did to the block what its own row of the table says. -/

section unfaulted
variable {i : Instr} {a : Agent} {x y : Block}

theorem BlockStep.init_cleared (h : BlockStep .init a x y) (hf : y.faults = x.faults) : y = x.clear := by
  cases h with
  | recorded r => exact absurd hf (log_faults_ne x r)
  | cleared => rfl
  | queried hi => rcases hi with hi | hi <;> cases hi
  | pushed _ hi => cases hi
  | popped hi => cases hi

theorem BlockStep.query_kept (h : BlockStep i a x y) (hq : i = .isEmpty ∨ i = .isFull) (hf : y.faults = x.faults) :
    y = x := by
  cases h with
  | recorded r => exact absurd hf (log_faults_ne x r)
  | queried => rfl
  | cleared hi | pushed _ hi | popped hi => subst hi; rcases hq with hq | hq <;> cases hq

theorem BlockStep.insert_pushed {b : Byte} (h : BlockStep (.insert b) a x y) (hf : y.faults = x.faults) :
    x.initDone = true ∧ ∃ hC : x.count.val ≠ x.size, y = x.push b hC := by
  cases h with
  | recorded r => exact absurd hf (log_faults_ne x r)
  | pushed c hi _ hd hC => cases hi; exact ⟨hd, hC, rfl⟩
  | queried hi => rcases hi with hi | hi <;> cases hi
  | cleared hi => cases hi
  | popped hi => cases hi

theorem BlockStep.remove_popped (h : BlockStep .remove a x y) (hf : y.faults = x.faults) :
    x.initDone = true ∧ x.count.val ≠ 0 ∧ y = x.pop := by
  cases h with
  | recorded r => exact absurd hf (log_faults_ne x r)
  | popped _ _ hd h0 => exact ⟨hd, h0, rfl⟩
  | queried hi => rcases hi with hi | hi <;> cases hi
  | cleared hi => cases hi
  | pushed _ hi => cases hi

/-- Only INIT completes without a fault on an uninitialised block. -/
theorem BlockStep.initDone_of_unfaulted (h : BlockStep i a x y) (hi : i ≠ .init) (hf : y.faults = x.faults) :
    x.initDone = true := by
  cases h with
  | recorded r => exact absurd hf (log_faults_ne x r)
  | cleared hc => exact absurd hc hi
  | queried _ _ hd => exact hd
  | pushed _ _ _ hd => exact hd
  | popped _ _ hd => exact hd

end unfaulted

/-! ### The state classes (10_state.md R37) -/

theorem stateClass_uninitialised_iff (x : Block) : x.stateClass = .uninitialised ↔ x.initDone = false := by
  unfold Block.stateClass
  split_ifs with hd
  · exact iff_of_true rfl hd
  all_goals exact iff_of_false nofun hd

/-- An initialised block has the class of its count. -/
theorem stateClass_of_initDone {x : Block} (hd : x.initDone = true) :
    x.stateClass = if x.count.val = 0 then .empty else if x.count.val = x.size then .full else .partiallyFull := by
  rw [Block.stateClass, if_neg (by rw [hd]; exact Bool.noConfusion)]

/-- Every class but uninitialised is that of the count. -/
theorem stateClass_of_ne_uninitialised {x : Block} (h : x.stateClass ≠ .uninitialised) :
    x.stateClass = if x.count.val = 0 then .empty else if x.count.val = x.size then .full else .partiallyFull := by
  rw [ne_eq, stateClass_uninitialised_iff, Bool.not_eq_false] at h
  exact stateClass_of_initDone h

theorem count_of_empty {x : Block} (h : x.stateClass = .empty) : x.count.val = 0 := by
  rw [stateClass_of_ne_uninitialised (h ▸ nofun)] at h
  split_ifs at h with h0
  exact h0

theorem count_of_full {x : Block} (h : x.stateClass = .full) : x.count.val = x.size := by
  rw [stateClass_of_ne_uninitialised (h ▸ nofun)] at h
  split_ifs at h with h0 hC
  exact hC

/-- A partially full block has a count above 0 and below C. -/
theorem count_of_partiallyFull {x : Block} (h : x.stateClass = .partiallyFull) :
    x.count.val ≠ 0 ∧ x.count.val ≠ x.size := by
  rw [stateClass_of_ne_uninitialised (h ▸ nofun)] at h
  split_ifs at h with h0 hC
  exact ⟨h0, hC⟩

theorem stateClass_clear (x : Block) : x.clear.stateClass = .empty := rfl

theorem stateClass_log (x : Block) (r : FaultRecord) : (x.log r).stateClass = x.stateClass := rfl

theorem stateClass_push {x : Block} {b : Byte} {hC : x.count.val ≠ x.size} (hd : x.initDone = true) :
    (x.push b hC).stateClass = if x.count.val + 1 = x.size then .full else .partiallyFull :=
  (stateClass_of_initDone (x := x.push b hC) hd).trans (if_neg (Nat.succ_ne_zero _))

theorem stateClass_pop {x : Block} (hd : x.initDone = true) (h0 : x.count.val ≠ 0) :
    x.pop.stateClass = if x.count.val - 1 = 0 then .empty else .partiallyFull := by
  have hle := x.count_le_size
  have hC : ¬x.count.val - 1 = x.size := by omega
  exact (stateClass_of_initDone (x := x.pop) hd).trans (congrArg _ (if_neg hC))

/-- An operation that adds to the log leaves the class. -/
theorem BlockStep.stateClass_of_faulted {i : Instr} {a : Agent} {x y : Block} (h : BlockStep i a x y)
    (hf : y.faults ≠ x.faults) : y.stateClass = x.stateClass := by
  cases h with
  | recorded r => exact stateClass_log x r
  | cleared | queried | pushed | popped => exact absurd rfl hf

/-- With C = 1 a count is 0 or C. -/
theorem not_partiallyFull_of_size_one {x : Block} (h1 : x.size = 1) : x.stateClass ≠ .partiallyFull := by
  intro h
  obtain ⟨h0, hC⟩ := count_of_partiallyFull h
  have hle := x.count_le_size
  omega

/-- Settles O26: each row from what an operation without a fault does to its block, and the class of that block. -/
theorem stateClassesFollowTheTable : Obligations.StateClassesFollowTheTable := by
  refine ⟨fun i s => ?_, fun _ => not_partiallyFull_of_size_one⟩
  obtain ⟨t, ht, _⟩ := exec_ran i s
  have hb : BlockStep i s.txn.agent s.cur t.cur := (exec_effect ht).2
  have hpos : 0 < s.cur.size := s.cur.cap.size_pos
  refine ⟨t, ht, hb.stateClass_of_faulted, ?_, ?_, ?_, fun hf => ⟨?_, ?_, ?_, ?_, ?_, ?_⟩⟩
  · intro hu hi hf
    have hd := hb.initDone_of_unfaulted hi hf
    rw [(stateClass_uninitialised_iff _).mp hu] at hd
    cases hd
  · rintro hfull ⟨b, rfl⟩ hf
    obtain ⟨_, hC, _⟩ := hb.insert_pushed hf
    exact hC (count_of_full hfull)
  · rintro hempty rfl hf
    obtain ⟨_, h0, _⟩ := hb.remove_popped hf
    exact h0 (count_of_empty hempty)
  · rintro rfl
    rw [hb.init_cleared hf, stateClass_clear]
  · intro hq
    rw [hb.query_kept hq hf]
  · rintro hempty ⟨b, rfl⟩
    obtain ⟨hd, hC, hy⟩ := hb.insert_pushed hf
    rw [hy, stateClass_push hd, count_of_empty hempty]
    exact if_congr eq_comm rfl rfl
  · rintro _ ⟨b, rfl⟩
    obtain ⟨hd, hC, hy⟩ := hb.insert_pushed hf
    rw [hy, stateClass_push hd]
  · rintro _ rfl
    obtain ⟨hd, h0, hy⟩ := hb.remove_popped hf
    rw [hy, stateClass_pop hd h0]
  · rintro hfull rfl
    obtain ⟨hd, h0, hy⟩ := hb.remove_popped hf
    rw [hy, stateClass_pop hd h0, count_of_full hfull]
    exact if_congr (by omega) rfl rfl

end Sys2Proof.Machine
end

section
/-! PROOFS of the family 20_memory.md: the order of bytes under every interleaving, what a transaction depends on,
repeated and racing operations, and which steps fault or go on. -/

namespace Sys2Proof.Machine

/-! ### The contents of a block (20_memory.md R51) -/

theorem contents_clear (x : Block) : x.clear.contents = [] := rfl

theorem contents_log (x : Block) (r : FaultRecord) : (x.log r).contents = x.contents := rfl

/-- An INSERT leaves the slots of the bytes held as they are. -/
theorem Block.Inv.slot_push {x : Block} {b : Byte} {hC : x.count.val ≠ x.size} (hx : x.Inv) (hd : x.initDone = true)
    {n : Nat} (hn : n < x.count.val) : (x.push b hC).slot n = x.slot n :=
  read_write_ne x.storage b (hx.insertSlot_free hd hC hn)

/-- The byte of an INSERT is in the slot behind the bytes held. -/
theorem Block.Inv.slot_push_count {x : Block} {b : Byte} {hC : x.count.val ≠ x.size} (hx : x.Inv)
    (hd : x.initDone = true) : (x.push b hC).slot x.count.val = some b := by
  obtain ⟨_, _, hi⟩ := hx
  have htail : (x.head.val + x.count.val) % x.size = insertSlot x := (hi hd).1.symm
  show Memory.read (Memory.write x.storage (insertSlot x) b) ((x.head.val + x.count.val) % x.size) = some b
  rw [htail, read_write_same]

/-- An INSERT appends its byte to the contents. -/
theorem Block.Inv.contents_push {x : Block} {b : Byte} {hC : x.count.val ≠ x.size} (hx : x.Inv)
    (hd : x.initDone = true) : (x.push b hC).contents = x.contents ++ [some b] := by
  have hheld : (List.range x.count.val).map (x.push b hC).slot = x.contents :=
    List.map_congr_left fun n hn => hx.slot_push hd (List.mem_range.mp hn)
  show (List.range (x.count.val + 1)).map (x.push b hC).slot = _
  rw [List.range_succ, List.map_append, hheld, List.map_singleton, hx.slot_push_count hd]

/-! ### What one transaction inserts and removes -/

section seen
variable {k : InstName} {x : Txn} {s t : State}

theorem insertedBy_elsewhere (hk : x.inst ≠ k) : insertedBy k x s t = [] := if_neg fun h => hk h.1

theorem removedBy_elsewhere (hk : x.inst ≠ k) : removedBy k x s t = [] := if_neg fun h => hk h.1

theorem insertedBy_faulted (hf : (t.block k).faults ≠ (s.block k).faults) : insertedBy k x s t = [] :=
  if_neg fun h => hf h.2

theorem removedBy_faulted (hf : (t.block k).faults ≠ (s.block k).faults) : removedBy k x s t = [] :=
  if_neg fun h => hf h.2

theorem insertedBy_insert {b : Byte} (hk : x.inst = k) (hf : (t.block k).faults = (s.block k).faults)
    (hw : decode x.word = .op (.insert b)) : insertedBy k x s t = [b] := by
  rw [insertedBy, if_pos ⟨hk, hf⟩, hw]

theorem removedBy_remove (hk : x.inst = k) (hf : (t.block k).faults = (s.block k).faults)
    (hw : decode x.word = .op .remove) : removedBy k x s t = [t.resp k x.agent] := by
  rw [removedBy, if_pos ⟨hk, hf⟩, hw]

/-- Only a word that decodes to INSERT inserts. -/
theorem insertedBy_of_not_insert {i : Instr} (hw : decode x.word = .op i) (hi : ∀ b, i ≠ .insert b) :
    insertedBy k x s t = [] := by
  unfold insertedBy
  split_ifs
  · split
    · next b hb => exact absurd (Decoded.op.inj (hw.symm.trans hb)) (hi b)
    · rfl
  · rfl

/-- Only a word that decodes to REMOVE removes. -/
theorem removedBy_of_not_remove {i : Instr} (hw : decode x.word = .op i) (hi : i ≠ .remove) :
    removedBy k x s t = [] := by
  unfold removedBy
  split_ifs
  · split
    · next hb => exact absurd (Decoded.op.inj (hw.symm.trans hb)) hi
    · rfl
  · rfl

end seen

/-! ### The contents along a run (20_memory.md R51) -/

theorem transact_of_decode {k : InstName} {a : Agent} {w : Cmd} {i : Instr} (s : State) (hw : decode w = .op i) :
    transact k a w s = exec i (s.present k a w) := by
  rw [transact, hw]

/-- A transaction on any instance keeps the invariant of each block. -/
theorem transact_inv_at {j k : InstName} {a : Agent} {w : Cmd} {s t : State} (h : transact j a w s = .next t)
    (hx : (s.block k).Inv) : (t.block k).Inv := by
  by_cases hk : k = j
  · subst hk; exact transact_block_inv h hx
  · rw [transact_block_ne h hk]; exact hx

/-- Under the invariant a REMOVE that records no fault answers what the slot head holds. -/
theorem transact_remove_resp {k : InstName} {a : Agent} {w : Cmd} {s t : State} (hx : (s.block k).Inv)
    (hw : decode w = .op .remove) (h : transact k a w s = .next t)
    (hf : (t.block k).faults = (s.block k).faults) :
    t.resp k a = Memory.read (s.block k).storage (s.block k).head.val := by
  obtain ⟨_, hcur, hans⟩ := transact_cur h
  rw [transact_of_decode s hw] at h
  rw [hcur] at hf
  rw [hans]
  rcases ran_undrawn_or_faultAnswered (s := s.present k a w) hx (ran_of_exec h) with ⟨_, _, hrem⟩ | hfa
  · exact (hrem rfl).2
  · exact absurd hf hfa.faults_ne

/-- A transaction takes its answer from the front of the contents and puts its byte at their end. -/
def Queues (k : InstName) (x : Txn) (s t : State) : Prop :=
  (s.block k).contents ++ (insertedBy k x s t).map some = removedBy k x s t ++ (t.block k).contents

/-- A transaction that neither inserts nor removes, and leaves the contents. -/
theorem queues_of_kept {k : InstName} {x : Txn} {s t : State} (hi : insertedBy k x s t = [])
    (hr : removedBy k x s t = []) (hc : (t.block k).contents = (s.block k).contents) : Queues k x s t := by
  rw [Queues, hi, hr, hc, List.map_nil, List.append_nil, List.nil_append]

/-- One that recorded a fault, and with it nothing else. -/
theorem queues_of_recorded {k : InstName} {x : Txn} {s t : State} {r : FaultRecord}
    (h : t.block k = (s.block k).log r) : Queues k x s t := by
  have hf : (t.block k).faults ≠ (s.block k).faults := h ▸ log_faults_ne _ r
  exact queues_of_kept (insertedBy_faulted hf) (removedBy_faulted hf) (h ▸ contents_log _ r)

/-- Every transaction but the Owner's INIT of the instance does so, under the invariant. -/
theorem transact_queues {k : InstName} {x : Txn} {s t : State} (hx : (s.block k).Inv)
    (hd : (s.block k).initDone = true) (hno : ¬(x.inst = k ∧ x.agent = .owner ∧ decode x.word = .op .init))
    (h : transact x.inst x.agent x.word s = .next t) : Queues k x s t := by
  by_cases hk : x.inst = k
  · subst hk
    rcases transact_block h with ⟨r, hr⟩ | ⟨i, hw, hb⟩
    · exact queues_of_recorded hr
    · generalize hy : t.block x.inst = y at hb
      cases hb with
      | recorded r => exact queues_of_recorded hy
      | cleared hi ha => subst hi; exact absurd ⟨rfl, ha, hw⟩ hno
      | queried hi =>
        have hins : ∀ b, i ≠ .insert b := by rcases hi with rfl | rfl <;> exact nofun
        have hrem : i ≠ .remove := by rcases hi with rfl | rfl <;> exact nofun
        exact queues_of_kept (insertedBy_of_not_insert hw hins) (removedBy_of_not_remove hw hrem) (by rw [hy])
      | pushed b hi =>
        subst hi
        rw [Queues, insertedBy_insert rfl (by rw [hy]; rfl) hw, removedBy_of_not_remove hw nofun, hy,
          hx.contents_push hd]
        rfl
      | popped hi _ _ h0 =>
        subst hi
        have hf : (t.block x.inst).faults = (s.block x.inst).faults := by rw [hy]; rfl
        rw [Queues, insertedBy_of_not_insert hw nofun, removedBy_remove rfl hf hw,
          transact_remove_resp hx hw h hf, hy, contents_pop _ h0, List.map_nil, List.append_nil]
        rfl
  · exact queues_of_kept (insertedBy_elsewhere hk) (removedBy_elsewhere hk)
      (by rw [transact_block_ne h (Ne.symm hk)])

/-- From an initialised block that meets the invariant: what was held and then inserted is what was removed and then
held. -/
theorem runTxns_queues {k : InstName} {ops : List Txn} {s : State} (hx : (s.block k).Inv)
    (hd : (s.block k).initDone = true)
    (hno : ∀ x ∈ ops, ¬(x.inst = k ∧ x.agent = .owner ∧ decode x.word = .op .init)) :
    ∃ r, runTxns k ops s = some r ∧
      (s.block k).contents ++ r.inserted.map some = r.removed ++ (r.final.block k).contents := by
  induction ops generalizing s with
  | nil => exact ⟨⟨s, [], []⟩, rfl, List.append_nil _⟩
  | cons x rest ih =>
    obtain ⟨hnx, hnrest⟩ := List.forall_mem_cons.mp hno
    obtain ⟨t, ht⟩ := transact_next x.inst x.agent x.word s
    obtain ⟨r, hr, hq⟩ := ih (transact_inv_at ht hx) ((transact_keeps ht k).initDone hd) hnrest
    refine ⟨_, runTxns_cons ht hr, ?_⟩
    calc (s.block k).contents ++ (insertedBy k x s t ++ r.inserted).map some
        = (s.block k).contents ++ (insertedBy k x s t).map some ++ r.inserted.map some := by
          rw [List.map_append, List.append_assoc]
      _ = removedBy k x s t ++ ((t.block k).contents ++ r.inserted.map some) := by
          rw [transact_queues hx hd hnx ht, List.append_assoc]
      _ = removedBy k x s t ++ r.removed ++ (r.final.block k).contents := by
          rw [hq, List.append_assoc]

/-- The Owner's INIT leaves its block as INIT leaves one. -/
theorem transact_init {k : InstName} {w : Cmd} (s : State) (hw : decode w = .op .init) :
    ∃ t, transact k .owner w s = .next t ∧ t.block k = (s.block k).clear := by
  have h : transact k .owner w s = .next _ := (transact_of_decode s hw).trans (exec_init rfl)
  refine ⟨_, h, ?_⟩
  rw [(transact_cur h).2.1, (respond_spec _ _).2.1, cur_setCur, cur_present]

/-- Settles O36: by induction over the run, each transaction keeping the balance of the contents; after INIT they
are empty. -/
theorem fifoOrderUnderEveryInterleaving : Obligations.FifoOrderUnderEveryInterleaving := by
  refine ⟨fun k ops s hx hd hno => runTxns_queues hx hd hno, fun k w ops s hx hw hno => ?_⟩
  obtain ⟨t, ht, hclear⟩ := transact_init (k := k) s hw
  obtain ⟨r, hr, hq⟩ := runTxns_queues (s := t) (hclear ▸ clear_inv hx) (hclear ▸ rfl) hno
  rw [hclear, contents_clear, List.nil_append] at hq
  exact ⟨t, r, ht, hr, fun n hn => by rw [hq, List.getElem?_append_left hn]⟩

/-! ### What a transaction depends on (20_memory.md R41) -/

/-- The same transaction on the same block with as many draws taken: all that an operation looks at. -/
structure LooksAlike (s s' : State) : Prop where
  txn   : s.txn = s'.txn
  cur   : s.cur = s'.cur
  draws : s.draws = s'.draws

/-- The same block of the transaction and the same answer to it. -/
def EndsAlike (t t' : State) : Prop := t.cur = t'.cur ∧ t.answer = t'.answer

/-- INSERT after its common checks, on a block known by another name. -/
theorem execInsert_of_cur {s : State} {x : Block} {b : Byte} (hx : s.cur = x)
    (hc : commonCheck (.insert b) s = none) :
    execInsert b s =
      if h : x.count.val = x.size then .next (violate .insertWhenFull (.insert b) s)
      else .next (respond none (s.setCur (x.push b h))) := by
  subst hx
  simp only [execInsert, hc]

/-- REMOVE after its common checks, on a block known by another name. -/
theorem execRemove_of_cur {s : State} {x : Block} (hx : s.cur = x) (hc : commonCheck .remove s = none) :
    execRemove s =
      if x.count.val = 0 then .next (violate .removeWhenEmpty .remove s)
      else .next (respondSlot (Memory.read x.storage (removeSlot x)) (s.setCur x.pop)) := by
  subst hx
  simp only [execRemove, hc]

section alike
variable {s s' : State} (h : LooksAlike s s')
include h

theorem LooksAlike.setCur (x : Block) : LooksAlike (s.setCur x) (s'.setCur x) :=
  ⟨h.txn, by rw [cur_setCur, cur_setCur], h.draws⟩

theorem LooksAlike.raise (c : Cause) : LooksAlike (raise c s) (raise c s') := by
  have hr : faultRecord c s = faultRecord c s' := by rw [faultRecord, faultRecord, h.txn, h.cur]
  rw [Machine.raise, Machine.raise, h.cur, hr]
  exact h.setCur _

theorem LooksAlike.respond (r : Option Byte) : EndsAlike (respond r s) (respond r s') := by
  obtain ⟨_, hcur, hans, _⟩ := respond_spec r s
  obtain ⟨_, hcur', hans', _⟩ := respond_spec r s'
  exact ⟨hcur.trans (h.cur.trans hcur'.symm), hans.trans hans'.symm⟩

theorem LooksAlike.respondDraw : EndsAlike (respondDraw s) (respondDraw s') := by
  have hc : LooksAlike s.countDraw s'.countDraw := ⟨h.txn, h.cur, congrArg (· + 1) h.draws⟩
  rw [Machine.respondDraw, Machine.respondDraw, h.draws]
  exact hc.respond _

theorem LooksAlike.drawFor (kind : RespKind) : EndsAlike (drawFor kind s) (drawFor kind s') := by
  cases kind with
  | none => exact h.respond none
  | flag => exact h.respondDraw
  | byte => exact h.respondDraw

theorem LooksAlike.violate (c : Cause) (i : Instr) : EndsAlike (violate c i s) (violate c i s') :=
  (h.raise c).drawFor (respKind i)

theorem LooksAlike.respondSlot (v : Option Byte) : EndsAlike (respondSlot v s) (respondSlot v s') := by
  cases v with
  | none => exact h.respondDraw
  | some b => exact h.respond (some b)

theorem LooksAlike.commonCheck (i : Instr) : commonCheck i s = commonCheck i s' := by
  rw [Machine.commonCheck, Machine.commonCheck, h.txn, h.cur]

/-- An INSERT that passes the common checks: the same check of count, and the same block after it. -/
theorem LooksAlike.execInsert {b : Byte} {t t' : State} (hc : Machine.commonCheck (.insert b) s = none)
    (ht : execInsert b s = .next t) (ht' : execInsert b s' = .next t') : EndsAlike t t' := by
  rw [execInsert_of_cur rfl hc] at ht
  rw [execInsert_of_cur h.cur.symm (h.commonCheck _ ▸ hc)] at ht'
  split at ht
  · next hC =>
    rw [dif_pos hC] at ht'
    cases ht; cases ht'
    exact h.violate _ _
  · next hC =>
    rw [dif_neg hC] at ht'
    cases ht; cases ht'
    exact (h.setCur _).respond none

/-- A REMOVE that passes them: the same check of count, the same block after it and the same slot read. -/
theorem LooksAlike.execRemove {t t' : State} (hc : Machine.commonCheck .remove s = none)
    (ht : execRemove s = .next t) (ht' : execRemove s' = .next t') : EndsAlike t t' := by
  rw [execRemove_of_cur rfl hc] at ht
  rw [execRemove_of_cur h.cur.symm (h.commonCheck _ ▸ hc)] at ht'
  split at ht
  · next h0 =>
    rw [if_pos h0] at ht'
    cases ht; cases ht'
    exact h.violate _ _
  · next h0 =>
    rw [if_neg h0] at ht'
    cases ht; cases ht'
    exact (h.setCur _).respondSlot _

/-- An operation leaves the same block and gives the same answer where it looks at the same. -/
theorem LooksAlike.exec {i : Instr} {t t' : State} (ht : exec i s = .next t) (ht' : exec i s' = .next t') :
    EndsAlike t t' := by
  have hcc := h.commonCheck i
  cases hc : Machine.commonCheck i s with
  | some c =>
    rw [exec_of_check hc] at ht
    rw [exec_of_check (hcc ▸ hc)] at ht'
    cases ht; cases ht'
    exact h.violate c i
  | none =>
    have hc' : Machine.commonCheck i s' = none := hcc ▸ hc
    cases i with
    | init =>
      simp only [Machine.exec, execInit, hc] at ht
      simp only [Machine.exec, execInit, hc', ← h.cur] at ht'
      cases ht; cases ht'
      exact (h.setCur _).respond none
    | isEmpty =>
      simp only [Machine.exec, execIsEmpty, hc] at ht
      simp only [Machine.exec, execIsEmpty, hc', ← h.cur] at ht'
      cases ht; cases ht'
      exact h.respond _
    | isFull =>
      simp only [Machine.exec, execIsFull, hc] at ht
      simp only [Machine.exec, execIsFull, hc', ← h.cur] at ht'
      cases ht; cases ht'
      exact h.respond _
    | insert b => exact h.execInsert hc ht ht'
    | remove => exact h.execRemove hc ht ht'

end alike

/-- So a transaction depends on its own block, its word and agent, and the number of draws taken. -/
theorem transact_alike {k : InstName} {a : Agent} {w : Cmd} {s s' t t' : State} (hb : s.block k = s'.block k)
    (hd : s.draws = s'.draws) (h : transact k a w s = .next t) (h' : transact k a w s' = .next t') :
    t.block k = t'.block k ∧ t.resp k a = t'.resp k a := by
  have hs : LooksAlike (s.present k a w) (s'.present k a w) := ⟨rfl, hb, hd⟩
  obtain ⟨_, hcur, hans⟩ := transact_cur h
  obtain ⟨_, hcur', hans'⟩ := transact_cur h'
  rw [hcur, hcur', hans, hans']
  cases hw : decode w with
  | op i =>
    rw [transact_of_decode _ hw] at h h'
    exact hs.exec h h'
  | invalid e =>
    simp only [transact, hw] at h h'
    cases h; cases h'
    exact (hs.raise _).respond none

/-- A transaction answers on its own port only. -/
theorem transact_resp_ne {k j : InstName} {a d : Agent} {w : Cmd} {s t : State} (h : transact k a w s = .next t)
    (hne : ¬(j = k ∧ d = a)) : t.resp j d = s.resp j d :=
  (transact_same h).resp_ne j d hne

/-- Settles O27: a transaction writes its own entries, and the meanings of the operations look at the block, the word
and the next draw. -/
theorem instancesAreDisjoint : Obligations.InstancesAreDisjoint :=
  ⟨fun _ _ _ _ _ _ h hj => ⟨transact_block_ne h hj, fun _ => transact_resp_ne h fun e => hj e.1⟩,
    fun _ _ _ _ _ _ _ hb hd h h' => transact_alike hb hd h h'⟩

/-! ### Operations repeated (20_memory.md R47) -/

@[simp] theorem setCur_respond (r : Option Byte) (s : State) (x : Block) :
    (respond r s).setCur x = respond r (s.setCur x) := rfl

@[simp] theorem respond_respond (r v : Option Byte) (s : State) : respond v (respond r s) = respond v s :=
  setResp_setResp s _ _ r v

@[simp] theorem setCur_setCur (s : State) (x y : Block) : (s.setCur x).setCur y = s.setCur y :=
  setBlock_setBlock s _ x y

theorem clear_clear (x : Block) : x.clear.clear = x.clear := rfl

/-- INIT from the state that INIT left gives that state. -/
theorem exec_init_repeat {s t : State} (ha : s.txn.agent = .owner) (h : exec .init s = .next t) :
    exec .init t = .next t := by
  rw [exec_init ha] at h
  cases h
  rw [exec_init (s := respond none (s.setCur _)) ha, (respond_spec _ _).2.1, cur_setCur, clear_clear, setCur_respond,
    setCur_setCur, respond_respond]

/-- A query that its checks let pass answers for the count and does nothing else. -/
theorem exec_query {q : Instr} {s : State} (hq : q = .isEmpty ∨ q = .isFull)
    (hp : permitted q s.txn.agent = true) (hd : s.cur.initDone = true) :
    exec q s = .next (respond (queryAnswer q s.cur.count.val s.cur.size) s) := by
  rcases hq with rfl | rfl
  · rw [exec_isEmpty hp hd]
    simp only [queryAnswer, flagResp_eq, emptyFlag_iff]
  · rw [exec_isFull hp hd]
    simp only [queryAnswer, flagResp_eq, fullFlag_iff]

/-- So repeating it gives the state that it left. -/
theorem exec_query_repeat {q : Instr} {s t : State} (hq : q = .isEmpty ∨ q = .isFull)
    (hp : permitted q s.txn.agent = true) (hd : s.cur.initDone = true) (h : exec q s = .next t) :
    exec q t = .next t := by
  rw [exec_query hq hp hd] at h
  cases h
  have hcur : ∀ r, (respond r s).cur = s.cur := fun r => (respond_spec r s).2.1
  rw [exec_query (s := respond _ s) hq hp (by rw [hcur]; exact hd), hcur, respond_respond]

/-- Settles O14: INIT and the queries answer the same from a block they leave as it is; INSERT and REMOVE move
count. -/
theorem initAndQueriesAreIdempotent : Obligations.InitAndQueriesAreIdempotent := by
  refine ⟨fun _ _ => exec_init_repeat, fun _ _ _ => exec_query_repeat, fun i s t hi h hf => ?_⟩
  have hb : BlockStep i s.txn.agent s.cur t.cur := (exec_effect h).2
  rcases hi with ⟨b, rfl⟩ | rfl
  · obtain ⟨_, _, hy⟩ := hb.insert_pushed hf
    rw [hy]
    exact Nat.succ_ne_self _
  · obtain ⟨_, h0, hy⟩ := hb.remove_popped hf
    rw [hy]
    exact (Nat.sub_one_lt h0).ne

/-! ### Queries that race with an INSERT or a REMOVE (20_memory.md R46) -/

/-- The operation field is what the mask of opcode_table.json keeps of a word. -/
theorem opField_and_mask (w : Cmd) : opField (w &&& 0x700#11) = opField w := by
  ext j hj
  simp only [opField, BitVec.getElem_extractLsb', BitVec.getLsbD_and]
  interval_cases j <;> simp

theorem decode_encode (i : Instr) : decode (encode i) = .op i := by
  cases i with
  | insert b =>
    have hmask : encode (.insert b) &&& 0x700#11 = 0x400#11 := (Laws.Encodes.insert b).1
    have hdata : dataField (encode (.insert b)) = b := (Laws.Encodes.insert b).2
    have hop : opField (encode (.insert b)) = 0b100#3 := by rw [← opField_and_mask, hmask]; decide
    rw [decode, hop, hdata]
    rfl
  | init | isEmpty | isFull | remove => rfl

/-- A query of an initialised block changes nothing of it, takes no draw and answers for its count. -/
theorem transact_query {k : InstName} {q : Instr} {a : Agent} {s : State} (hq : q = .isEmpty ∨ q = .isFull)
    (ha : a = .producer ∨ a = .consumer) (hd : (s.block k).initDone = true) :
    ∃ t, transact k a (encode q) s = .next t ∧ t.block k = s.block k ∧ t.draws = s.draws ∧
      t.resp k a = queryAnswer q (s.block k).count.val (s.block k).size := by
  have hp : permitted q a = true := by rcases hq with rfl | rfl <;> rcases ha with rfl | rfl <;> rfl
  have h := (transact_of_decode s (decode_encode q)).trans (exec_query (s := s.present k a _) hq hp hd)
  obtain ⟨_, hcur, hans⟩ := transact_cur h
  obtain ⟨_, rcur, rans, rdraws⟩ := respond_spec (queryAnswer q _ _) (s.present k a (encode q))
  exact ⟨_, h, hcur.trans rcur, rdraws, hans.trans rans⟩

/-- A query of one agent and any transaction of another, in both orders: each gives one outcome for the block and
the other agent, and the query answers for the count it finds. -/
theorem query_races {k : InstName} {q : Instr} {a b : Agent} {s : State} (w : Cmd) (hq : q = .isEmpty ∨ q = .isFull)
    (ha : a = .producer ∨ a = .consumer) (hab : a ≠ b) (hd : (s.block k).initDone = true) :
    ∃ t u t' u', transact k a (encode q) s = .next t ∧ transact k b w t = .next u ∧
      transact k b w s = .next t' ∧ transact k a (encode q) t' = .next u' ∧
      u.resp k a = queryAnswer q (s.block k).count.val (s.block k).size ∧
      u'.resp k a = queryAnswer q (t'.block k).count.val (s.block k).size ∧
      u.block k = u'.block k ∧ u.resp k b = u'.resp k b := by
  obtain ⟨t, ht, htb, htd, hta⟩ := transact_query hq ha hd
  obtain ⟨u, hu⟩ := transact_next k b w t
  obtain ⟨t', ht'⟩ := transact_next k b w s
  have hkeeps := transact_keeps ht' k
  obtain ⟨u', hu', hub', _, hua'⟩ := transact_query hq ha (hkeeps.initDone hd)
  obtain ⟨hblock, hresp⟩ := transact_alike htb htd hu ht'
  have hsize : (t'.block k).size = (s.block k).size := congrArg Capacity.size hkeeps.cap
  refine ⟨t, u, t', u', ht, hu, ht', hu', ?_, hua'.trans (by rw [hsize]), hblock.trans hub'.symm, ?_⟩
  · rw [transact_resp_ne hu fun e => hab e.2, hta]
  · rw [hresp, transact_resp_ne hu' fun e => hab e.2.symm]

/-- The Producer's INSERT on an initialised block adds one to count, but on a full block. -/
theorem transact_insert_count {k : InstName} {b : Byte} {s t : State} (hd : (s.block k).initDone = true)
    (h : transact k .producer (encode (.insert b)) s = .next t) :
    (t.block k).count.val =
      if (s.block k).count.val = (s.block k).size then (s.block k).count.val else (s.block k).count.val + 1 := by
  rw [(transact_cur h).2.1]
  rw [transact_of_decode s (decode_encode _)] at h
  by_cases hC : (s.block k).count.val = (s.block k).size
  · rw [exec_insert_full b (s := s.present k .producer _) rfl hd hC] at h
    cases h
    rw [if_pos hC, (violate_spec _ _ _).1.1]
    rfl
  · rw [exec_insert b (s := s.present k .producer _) rfl hd hC] at h
    cases h
    rw [if_neg hC, (respond_spec _ _).2.1, cur_setCur]
    rfl

/-- The Consumer's REMOVE on an initialised block takes one from count, but on an empty block. -/
theorem transact_remove_count {k : InstName} {s t : State} (hd : (s.block k).initDone = true)
    (h : transact k .consumer (encode .remove) s = .next t) :
    (t.block k).count.val =
      if (s.block k).count.val = 0 then (s.block k).count.val else (s.block k).count.val - 1 := by
  rw [(transact_cur h).2.1]
  rw [transact_of_decode s (decode_encode _)] at h
  by_cases h0 : (s.block k).count.val = 0
  · rw [exec_remove_empty (s := s.present k .consumer _) rfl hd h0] at h
    cases h
    rw [if_pos h0, (violate_spec _ _ _).1.1]
    rfl
  · rw [exec_remove (s := s.present k .consumer _) rfl hd h0] at h
    cases h
    rw [if_neg h0, (respondSlot_spec _ _).2, cur_setCur]
    rfl

/-- Settles O35: the query leaves what the other operation looks at, and answers for the count it finds. -/
theorem racingQueryAnswersForItsOwnStep : Obligations.RacingQueryAnswersForItsOwnStep := by
  refine fun k q s hq hd => ⟨fun b => ?_, ?_⟩
  · obtain ⟨t, u, t', u', ht, hu, ht', hu', hans, hans', hsame⟩ :=
      query_races (b := .producer) (encode (.insert b)) hq (.inr rfl) nofun hd
    rw [transact_insert_count hd ht'] at hans'
    exact ⟨t, u, t', u', ht, hu, ht', hu', hans, hans', hsame⟩
  · obtain ⟨t, u, t', u', ht, hu, ht', hu', hans, hans', hsame⟩ :=
      query_races (b := .consumer) (encode .remove) hq (.inl rfl) nofun hd
    rw [transact_remove_count hd ht'] at hans'
    exact ⟨t, u, t', u', ht, hu, ht', hu', hans, hans', hsame⟩

/-! ### Which steps fault and which run goes on (20_memory.md R45, R50) -/

/-- A context's step faults exactly where its next action reads an unbound name. -/
theorem runContext_fault_iff (c : Context) (s : State) (f : Fault) :
    runContext c s = .fault f ↔ f = .unboundName ∧ (s.ctx c).readsUnbound = true := by
  cases f
  unfold runContext CtxState.readsUnbound
  cases hp : (s.ctx c).prog with
  | done => simp
  | command k a w x rest =>
    obtain ⟨t, ht⟩ := transact_next k a w (s.setProg c rest)
    dsimp only
    split <;> simp [ht, afterTransaction]
  | rearmTx rest => simp
  | disarmTx rest => simp
  | ifThen e yes no rest => cases he : evalExpr (s.ctx c).env e <;> simp [he]
  | whileDo e body rest => rcases he : evalExpr (s.ctx c).env e with _ | _ | _ <;> simp [he]
  | assign x e rest => cases he : evalExpr (s.ctx c).env e <;> simp [he]
  | transmit x rest => cases he : lookupVar (s.ctx c).env x <;> simp [he]

/-- A context whose next action reads an unbound name has a next action. -/
theorem prog_ne_done_of_readsUnbound {x : CtxState} (h : x.readsUnbound = true) : x.prog ≠ .done := by
  intro hp
  rw [CtxState.readsUnbound, hp] at h
  cases h

/-- Settles O52: a step that is not to a next state is the step of the context that goes next. -/
theorem onlyUnboundReadsFault : Obligations.OnlyUnboundReadsFault := by
  intro s f
  constructor
  · intro h
    obtain ⟨c, hm, hc⟩ := step_of_not_next (s := s) fun t ht => nomatch h.symm.trans ht
    obtain ⟨hf, hr⟩ := (runContext_fault_iff c s.turn f).mp (hc.symm.trans h)
    exact ⟨hf, c, hm, hr⟩
  · rintro ⟨hf, c, hm, hr⟩
    rw [step_mover hm (prog_ne_done_of_readsUnbound hr)]
    exact (runContext_fault_iff c s.turn f).mpr ⟨hf, hr⟩

/-- A notification anywhere in the schedule keeps the run from its end. -/
theorem not_ended_of_mem {s : State} {m : Move} (hm : m ∈ s.schedule) (hn : isNotification m = true) :
    s.ended = false := by
  rw [← Bool.not_eq_true, ended_iff]
  rintro ⟨_, hall⟩
  exact absurd hn (by rw [hall m hm]; exact Bool.noConfusion)

/-- Settles O57, from what a step of a run that has not ended is. -/
theorem runsGoOnUntilTheirEnd : Obligations.RunsGoOnUntilTheirEnd := by
  refine ⟨fun s h => ⟨fun _ _ => step_move h, step_free h⟩, fun s b hm => ?_⟩
  rcases hm with hm | hm
  · exact not_ended_of_mem hm rfl
  · exact not_ended_of_mem hm rfl

end Sys2Proof.Machine
end

section
/-! PROOFS of the family 30_encoding.md: words and the operations they spell, assembler lines, and the commands and
pseudo-instructions of a context's program. -/

namespace Sys2Proof.Machine

/-! ### The two fields of a word (30_encoding.md R60) -/

/-- A word is its operation field above its data field. -/
theorem word_eq_append (w : Cmd) : w = opField w ++ dataField w := by
  ext j hj
  rw [BitVec.getElem_append]
  split
  · simp [dataField, BitVec.getLsbD_eq_getElem hj]
  · simp [opField, show 8 + (j - 8) = j by omega, BitVec.getLsbD_eq_getElem hj]

/-- The mask of opcode_table.json clears the data field and keeps the other. -/
theorem and_mask_eq_append (w : Cmd) : w &&& 0x700#11 = opField w ++ 0x00#8 := by
  have hdata : dataField (w &&& 0x700#11) = 0x00#8 := by
    ext j hj
    simp only [dataField, BitVec.getElem_extractLsb', BitVec.getLsbD_and]
    interval_cases j <;> simp
  rw [word_eq_append (w &&& 0x700#11), opField_and_mask, hdata]

theorem toNat_opField (w : Cmd) : (opField w).toNat = w.toNat / 256 := by
  have := w.isLt
  rw [opField, BitVec.extractLsb'_toNat, Nat.shiftRight_eq_div_pow]
  omega

theorem dataField_eq_ofNat (w : Cmd) : dataField w = BitVec.ofNat 8 (w.toNat % 256) := by
  apply BitVec.eq_of_toNat_eq
  simp [dataField]

theorem opField_eq_of_toNat_div {w : Cmd} {o : BitVec 3} (h : w.toNat / 256 = o.toNat) : opField w = o :=
  BitVec.eq_of_toNat_eq ((toNat_opField w).trans h)

/-- The canonical word of INSERT is its operation field above the byte (R72). -/
theorem encode_insert (b : Byte) : encode (.insert b) = 0b100#3 ++ b := rfl

theorem toNat_encode_insert (b : Byte) : (encode (.insert b)).toNat = 0x400 + b.toNat := by
  rw [encode_insert, BitVec.toNat_append, ← Nat.shiftLeft_add_eq_or_of_lt b.isLt]
  rfl

/-! ### Decoding (30_encoding.md R62, R64) -/

/-- Settles O1: the operation field of a canonical word is its row's, and that of INSERT carries the byte. -/
theorem canonicalWordsDecodeBack : Obligations.CanonicalWordsDecodeBack := decode_encode

/-- What a word that spells an operation has in its fields. -/
theorem fields_of_decode {w : Cmd} {i : Instr} (h : decode w = .op i) :
    (opField w = 0b100#3 ∧ i = .insert (dataField w)) ∨
      (opField w ≠ 0b100#3 ∧ encode i = opField w ++ 0x00#8) := by
  unfold decode at h
  split_ifs at h with h1 h2 h3 h4 h5 <;> cases h
  · exact .inr ⟨by rw [h1]; decide, by rw [h1]; decide⟩
  · exact .inr ⟨by rw [h2]; decide, by rw [h2]; decide⟩
  · exact .inr ⟨by rw [h3]; decide, by rw [h3]; decide⟩
  · exact .inl ⟨h4, rfl⟩
  · exact .inr ⟨h4, by rw [h5]; decide⟩

/-- Settles O2: the canonical word has the operation field of the word, and INSERT's its data field too. -/
theorem decodedWordsEncodeBack : Obligations.DecodedWordsEncodeBack := by
  intro w i h
  rcases fields_of_decode h with ⟨hop, rfl⟩ | ⟨hop, henc⟩
  · rw [if_pos hop, encode_insert, ← hop, ← word_eq_append]
  · rw [if_neg hop, henc, and_mask_eq_append]

/-- Settles O3: the operation field is w / 256 and the data field w mod 256. -/
theorem decodeFollowsOpcodeMap : Obligations.DecodeFollowsOpcodeMap := by
  intro w
  refine ⟨fun h => ?_, fun h => ?_, fun h => ?_, fun h => ?_, fun h => ?_,
    fun h => ⟨.reservedOpcode (opField w), ?_⟩⟩
  · rw [decode, opField_eq_of_toNat_div (o := 0b001#3) h]; rfl
  · rw [decode, opField_eq_of_toNat_div (o := 0b010#3) h]; rfl
  · rw [decode, opField_eq_of_toNat_div (o := 0b011#3) h]; rfl
  · rw [decode, opField_eq_of_toNat_div (o := 0b100#3) h, dataField_eq_ofNat]; rfl
  · rw [decode, opField_eq_of_toNat_div (o := 0b101#3) h]; rfl
  · rcases h with h | h | h
    · rw [decode, opField_eq_of_toNat_div (o := 0b000#3) h]; rfl
    · rw [decode, opField_eq_of_toNat_div (o := 0b110#3) h]; rfl
    · rw [decode, opField_eq_of_toNat_div (o := 0b111#3) h]; rfl

/-- Settles O4, by evaluation of the nine words. -/
theorem sampleWordsDecode : Obligations.SampleWordsDecode := by
  unfold Obligations.SampleWordsDecode
  decide

/-! ### Assembler lines (30_encoding.md R69, R70) -/

/-- A line is for the instance it names, or for the only one. -/
theorem target_eq_some {names : List InstName} {l : Line} {k : InstName} (h : l.target names = some k) :
    k ∈ names ∧ (l.inst = some k ∨ (l.inst = none ∧ names = [k])) := by
  unfold Line.target at h
  split at h
  · next j hj =>
    split_ifs at h with hm
    cases h
    exact ⟨hm, .inl hj⟩
  · next j hj => cases h; exact ⟨List.mem_singleton_self _, .inr ⟨hj, rfl⟩⟩
  · cases h
  · cases h

theorem Imm.value_le {v : Imm} (h : v.wellFormed = true) : v.value ≤ 255 := by
  cases v with
  | hex n => exact of_decide_eq_true h
  | dec n => exact of_decide_eq_true h
  | chr c => exact (of_decide_eq_true h : c.toNat ≤ 127).trans (by decide)

/-- The operation that a mnemonic with its operand spells. -/
inductive Spells : Mnemonic → Option Imm → Instr → Prop where
  | init : Spells .init none .init
  | isEmpty : Spells .isEmpty none .isEmpty
  | isFull : Spells .isFull none .isFull
  | insert {v : Imm} (h : v.wellFormed = true) : Spells .insert (some v) (.insert (BitVec.ofNat 8 v.value))
  | remove : Spells .remove none .remove

/-- A line with an operand where R57 wants one spells an operation. -/
theorem spells_of_immOk {l : Line} (h : l.immOk = true) : ∃ i, l.instr = some i ∧ Spells l.mnemonic l.imm i := by
  unfold Line.instr
  rw [if_pos h]
  unfold Line.immOk at h
  split at h
  · next hm hv => rw [hm, hv]; exact ⟨_, rfl, .insert h⟩
  · cases h
  · next hm hv => rw [hm, hv]; exact ⟨_, rfl, .init⟩
  · next hm hv => rw [hm, hv]; exact ⟨_, rfl, .isEmpty⟩
  · next hm hv => rw [hm, hv]; exact ⟨_, rfl, .isFull⟩
  · next hm hv => rw [hm, hv]; exact ⟨_, rfl, .remove⟩
  all_goals cases h

/-- The canonical word of what a mnemonic spells is the row of R72's table. -/
theorem Spells.word {m : Mnemonic} {o : Option Imm} {i : Instr} (h : Spells m o i) :
    (m = .init → encode i = 0x100#11) ∧ (m = .isEmpty → encode i = 0x200#11) ∧
      (m = .isFull → encode i = 0x300#11) ∧ (m = .remove → encode i = 0x500#11) ∧
      (∀ v, m = .insert → o = some v → v.value ≤ 255 ∧ (encode i).toNat = 0x400 + v.value) := by
  cases h with
  | insert hv =>
    refine ⟨nofun, nofun, nofun, nofun, fun v _ ho => ?_⟩
    cases ho
    have hle := Imm.value_le hv
    rw [toNat_encode_insert, BitVec.toNat_ofNat, Nat.mod_eq_of_lt (by omega)]
    exact ⟨hle, rfl⟩
  | init => exact ⟨fun _ => rfl, nofun, nofun, nofun, nofun⟩
  | isEmpty => exact ⟨nofun, fun _ => rfl, nofun, nofun, nofun⟩
  | isFull => exact ⟨nofun, nofun, fun _ => rfl, nofun, nofun⟩
  | remove => exact ⟨nofun, nofun, nofun, fun _ => rfl, nofun⟩

theorem assemble_illFormed {names : List InstName} {l : Line} (rest : Prog) (h : l.wellFormed names = false) :
    l.assemble names rest = none := by
  simp only [Line.assemble, h]

theorem assemble_wellFormed {names : List InstName} {l : Line} {k : InstName} {i : Instr} (rest : Prog)
    (h : l.wellFormed names = true) (hk : l.target names = some k) (hi : l.instr = some i) :
    l.assemble names rest = some (.command k l.role (encode i) l.bind rest) := by
  simp only [Line.assemble, h, hk, hi]

/-- Settles O6: a well-formed line has a target and spells an operation, and its word is the operation's. -/
theorem assembledLinesDecode : Obligations.AssembledLinesDecode := by
  refine fun names l rest => ⟨assemble_illFormed rest, fun h => ?_⟩
  obtain ⟨⟨hinst, himm⟩, _⟩ : (l.instOk names = true ∧ l.immOk = true) ∧ l.bindOk = true := by
    simpa only [Line.wellFormed, Bool.and_eq_true] using h
  obtain ⟨k, hk⟩ := Option.isSome_iff_exists.mp hinst
  obtain ⟨hmem, htarget⟩ := target_eq_some hk
  obtain ⟨i, hi, hspells⟩ := spells_of_immOk himm
  exact ⟨k, i, encode i, hmem, htarget, hi, rfl, decode_encode i, assemble_wellFormed rest h hk hi, hspells.word⟩

/-! ### A command and its step (30_encoding.md R58; 60_exceptions.md R107) -/

theorem wiring_turn (s : State) : s.turn.wiring = s.wiring := by
  unfold State.turn
  split
  · rfl
  · rfl
  · rfl
  · split <;> rfl

theorem transact_of_invalid {k : InstName} {a : Agent} {w : Cmd} {e : DecodeError} (s : State)
    (hw : decode w = .invalid e) : transact k a w s = .next (violateReserved (s.present k a w)) := by
  rw [transact, hw]

/-- After a transaction whose response is bound to no name, where nothing local follows, nothing is done. -/
theorem afterTransaction_stop {k : InstName} {a : Agent} {w : Cmd} {c : Context} {s : State}
    (h : stopsHere (s.ctx c).prog = true) : afterTransaction c k a none (transact k a w s) = transact k a w s := by
  obtain ⟨t, ht⟩ := transact_next k a w s
  have hstop : stopsHere (t.ctx c).prog = true := by rw [transact_ctx ht]; exact h
  rw [ht]
  exact congrArg _ (settle_stop hstop)

/-- Settles O41: the context that goes next issues its command, and a transaction is exec of the decoded word. -/
theorem stepRunsTheDecodedOperation : Obligations.StepRunsTheDecodedOperation := by
  intro s c k a w x rest hm hp hh
  have hstep : step s = afterTransaction c k a x (transact k a w (s.turn.setProg c rest)) := by
    rw [step_mover hm (by rw [hp]; exact Prog.noConfusion), runContext_command hp (by rw [wiring_turn]; exact hh)]
  refine ⟨fun i hw => ?_, fun e hw => ?_⟩
  · rw [← transact_of_decode _ hw]
    refine ⟨hstep, ?_⟩
    rintro rfl rfl
    rw [hstep, afterTransaction_stop (by rw [ctx_setProg_same]; rfl)]
  · rw [hstep, transact_of_invalid _ hw]

/-! ### What local actions make of a context (30_encoding.md R71) -/

/-- Wherever a context is as `x`, its local actions leave it as `y`. -/
def SettlesTo (x y : CtxState) : Prop := ∀ (c : Context) (s : State), s.ctx c = x → (settle c s).ctx c = y

section settling
variable {env : List (Var × Byte)} {e : Expr} {yes no rest : Prog} {x y : CtxState} {b f : Bool} {v ok tmp : Var}

theorem settlesTo_self (h : stopsHere x.prog = true) : SettlesTo x x := by
  rintro c s rfl
  rw [settle_stop h]

theorem settlesTo_assign (he : evalExpr env e = some b)
    (h : SettlesTo ⟨bindVar env v (some (flagResp b)), rest⟩ y) : SettlesTo ⟨env, .assign v e rest⟩ y := by
  intro c s hs
  rw [settle_assign (congrArg CtxState.prog hs) (by rw [hs]; exact he)]
  exact h c _ (by rw [ctx_setEnv_same, ctx_setProg_same, hs])

theorem settlesTo_ifThen (he : evalExpr env e = some b)
    (h : SettlesTo ⟨env, appendProg (if b = true then yes else no) rest⟩ y) :
    SettlesTo ⟨env, .ifThen e yes no rest⟩ y := by
  intro c s hs
  rw [settle_ifThen (congrArg CtxState.prog hs) (by rw [hs]; exact he)]
  exact h c _ (by rw [ctx_setProg_same, hs])

theorem evalExpr_not_flag (h : lookupVar env tmp = some (flagResp f)) :
    evalExpr env (.not (.var tmp)) = some (!f) := by
  simp only [evalExpr, h, respFlag_flagResp]

/-- The result `ok = !f` with which the table's expansions end, where `tmp` stands for its name `f` or `e`. -/
def negation (ok tmp : Var) : Prog := .assign ok (.not (.var tmp)) .done

/-- What TRY_INSERT and TRY_REMOVE do after their query: the command where the flag is 0, and the result. -/
def attempt (line : Prog) (ok tmp : Var) : Prog := .ifThen (.not (.var tmp)) line .done (negation ok tmp)

theorem expand_canWrite : expand (.canWrite ok) tmp =
    lineOf .outbound .producer .isFull (some tmp) (negation ok tmp) := rfl

theorem expand_canRead : expand (.canRead ok) tmp =
    lineOf .inbound .consumer .isEmpty (some tmp) (negation ok tmp) := rfl

theorem expand_tryInsert (k : InstName) (c : Byte) : expand (.tryInsert k c ok) tmp =
    lineOf k .producer .isFull (some tmp) (attempt (lineOf k .producer (.insert c) none .done) ok tmp) := rfl

theorem expand_tryRemove (k : InstName) : expand (.tryRemove k ok v) tmp =
    lineOf k .consumer .isEmpty (some tmp) (attempt (lineOf k .consumer .remove (some v) .done) ok tmp) := rfl

/-- The result binds the negated flag and ends the program. -/
theorem settlesTo_negation (h : lookupVar env tmp = some (flagResp f)) :
    SettlesTo ⟨env, negation ok tmp⟩ ⟨bindVar env ok (some (flagResp (!f))), .done⟩ :=
  settlesTo_assign (evalExpr_not_flag h) (settlesTo_self rfl)

/-- With the flag at 1 the command is passed over. -/
theorem settlesTo_attempt_skipped {line : Prog} (h : lookupVar env tmp = some (flagResp true)) :
    SettlesTo ⟨env, attempt line ok tmp⟩ ⟨bindVar env ok (some (flagResp false)), .done⟩ :=
  settlesTo_ifThen (evalExpr_not_flag h) (settlesTo_negation h)

/-- With the flag at 0 the command is next, and the result behind it. -/
theorem settlesTo_attempt_taken {k : InstName} {a : Agent} {i : Instr} {bind : Option Var}
    (h : lookupVar env tmp = some (flagResp false)) :
    SettlesTo ⟨env, attempt (lineOf k a i bind .done) ok tmp⟩ ⟨env, lineOf k a i bind (negation ok tmp)⟩ :=
  settlesTo_ifThen (evalExpr_not_flag h) (settlesTo_self rfl)

end settling

/-! ### One line of a program as the next step -/

/-- From `s` the next step gives `t`: the moves `moves` are left, the holders are the same, and context `c` is as
`x`. -/
structure Steps (c : Context) (moves : List Move) (x : CtxState) (s t : State) : Prop where
  step     : step s = .next t
  schedule : t.schedule = moves
  wiring   : t.wiring = s.wiring
  ctx      : t.ctx c = x

/-- What names are bound to after a line that may bind its response. -/
def bindLine (env : List (Var × Byte)) (x : Option Var) (r : Option Byte) : List (Var × Byte) :=
  match x with
  | some v => bindVar env v r
  | none => env

theorem ctx_bindResponse_same (c : Context) (x : Option Var) (r : Option Byte) (s : State) :
    (bindResponse c x r s).ctx c = ⟨bindLine (s.ctx c).env x r, (s.ctx c).prog⟩ := by
  cases x with
  | none => rfl
  | some v => exact ctx_setEnv_same s c _

section line
variable {s : State} {c : Context} {k : InstName} {a : Agent} {i : Instr} {x : Option Var} {rest : Prog}
  {moves : List Move} (hs : s.schedule = .run c :: moves) (hp : (s.ctx c).prog = lineOf k a i x rest)
  (hh : s.wiring.holds c k a = true)
include hs hp hh

theorem step_line :
    step s = afterTransaction c k a x (transact k a (encode i) ((s.setSchedule moves).setProg c rest)) := by
  rw [step_run hs (by rw [hp]; exact Prog.noConfusion)]
  exact runContext_command hp hh

/-- The step of a line, from its transaction and what local actions make of its context. -/
theorem steps_line {t : State} {y : CtxState}
    (ht : transact k a (encode i) ((s.setSchedule moves).setProg c rest) = .next t)
    (hy : SettlesTo ⟨bindLine (s.ctx c).env x (t.resp k a), rest⟩ y) :
    ∃ u, Steps c moves y s u ∧ u.block k = t.block k := by
  have hctx : (bindResponse c x (t.resp k a) t).ctx c = ⟨bindLine (s.ctx c).env x (t.resp k a), rest⟩ := by
    rw [ctx_bindResponse_same, transact_ctx ht, ctx_setProg_same]; rfl
  have hl : LocalTo c t (settle c (bindResponse c x (t.resp k a) t)) :=
    (bindResponse_local c x _ t).trans (settle_local c _)
  refine ⟨_, ⟨(step_line hs hp hh).trans (by rw [ht]; rfl), ?_, ?_, hy c _ hctx⟩, hl.block k⟩
  · exact hl.schedule.trans (transact_same ht).schedule
  · exact hl.wiring.trans (transact_same ht).wiring

end line

/-- The answer of a query is a flag of the block. -/
theorem queryAnswer_isEmpty (x : Block) :
    queryAnswer .isEmpty x.count.val x.size = some (flagResp (emptyFlag x)) := by
  simp only [queryAnswer, flagResp_eq, emptyFlag_iff]

theorem queryAnswer_isFull (x : Block) : queryAnswer .isFull x.count.val x.size = some (flagResp (fullFlag x)) := by
  simp only [queryAnswer, flagResp_eq, fullFlag_iff]

/-- A transaction whose operation writes block `y` and answers `r`. -/
theorem transact_of_exec {k : InstName} {a : Agent} {i : Instr} {s : State} {y : Block} {r : Option Byte}
    (h : exec i (s.present k a (encode i)) = .next (respond r ((s.present k a (encode i)).setCur y))) :
    ∃ t, transact k a (encode i) s = .next t ∧ t.block k = y ∧ t.resp k a = r := by
  have ht := (transact_of_decode s (decode_encode i)).trans h
  obtain ⟨_, hcur, hans⟩ := transact_cur ht
  obtain ⟨_, rcur, rans, _⟩ := respond_spec r ((s.present k a (encode i)).setCur y)
  exact ⟨_, ht, hcur.trans (rcur.trans (cur_setCur _ y)), hans.trans rans⟩

/-- The Producer's INSERT appends its byte to the contents and records nothing. -/
theorem transact_insert {k : InstName} {s : State} (b : Byte) (hx : (s.block k).Inv)
    (hd : (s.block k).initDone = true) (hC : (s.block k).count.val ≠ (s.block k).size) :
    ∃ t, transact k .producer (encode (.insert b)) s = .next t ∧ (t.block k).faults = (s.block k).faults ∧
      (t.block k).contents = (s.block k).contents ++ [some b] := by
  obtain ⟨t, ht, hblock, _⟩ := transact_of_exec (exec_insert (s := s.present k .producer _) b rfl hd hC)
  exact ⟨t, ht, by rw [hblock]; rfl, by rw [hblock]; exact hx.contents_push hd⟩

theorem count_ne_zero_of_contents {x : Block} {v : Option Byte} {l : List (Option Byte)} (h : x.contents = v :: l) :
    x.count.val ≠ 0 := by
  intro h0
  rw [Block.contents, h0] at h
  cases h

/-- The Consumer's REMOVE takes the first of the contents and answers it. -/
theorem transact_remove {k : InstName} {s : State} {b : Byte} {l : List (Option Byte)}
    (hd : (s.block k).initDone = true) (hl : (s.block k).contents = some b :: l) :
    ∃ t, transact k .consumer (encode .remove) s = .next t ∧ (t.block k).contents = l ∧
      t.resp k .consumer = some b := by
  have h0 := count_ne_zero_of_contents hl
  obtain ⟨hread, hpop⟩ := List.cons.inj ((contents_pop _ h0).symm.trans hl)
  have hexec := exec_remove (s := s.present k .consumer (encode .remove)) rfl hd h0
  rw [removeSlot, cur_present, hread] at hexec
  obtain ⟨t, ht, hblock, hresp⟩ := transact_of_exec hexec
  exact ⟨t, ht, hblock ▸ hpop, hresp⟩

section lines
variable {s : State} {c : Context} {k : InstName} {rest : Prog} {moves : List Move} {y : CtxState}
  (hs : s.schedule = .run c :: moves) (hd : (s.block k).initDone = true)
include hs hd

/-- A query's step leaves the block and binds the flag. -/
theorem steps_query {q : Instr} {a : Agent} {tmp : Var} {f : Bool} (hq : q = .isEmpty ∨ q = .isFull)
    (ha : a = .producer ∨ a = .consumer) (hp : (s.ctx c).prog = lineOf k a q (some tmp) rest)
    (hh : s.wiring.holds c k a = true)
    (hf : queryAnswer q (s.block k).count.val (s.block k).size = some (flagResp f))
    (hy : SettlesTo ⟨bindVar (s.ctx c).env tmp (some (flagResp f)), rest⟩ y) :
    ∃ t, Steps c moves y s t ∧ t.block k = s.block k := by
  obtain ⟨t, ht, hb, _, hr⟩ := transact_query (s := (s.setSchedule moves).setProg c rest) hq ha hd
  obtain ⟨u, hu, hub⟩ := steps_line hs hp hh ht (by rw [hr]; exact hf ▸ hy)
  exact ⟨u, hu, hub.trans hb⟩

/-- An INSERT's step on a block that is not full appends the byte. -/
theorem steps_insert {b : Byte} (hp : (s.ctx c).prog = lineOf k .producer (.insert b) none rest)
    (hh : s.wiring.holds c k .producer = true) (hx : (s.block k).Inv)
    (hC : (s.block k).count.val ≠ (s.block k).size) (hy : SettlesTo ⟨(s.ctx c).env, rest⟩ y) :
    ∃ t, Steps c moves y s t ∧ (t.block k).faults = (s.block k).faults ∧
      (t.block k).contents = (s.block k).contents ++ [some b] := by
  obtain ⟨t, ht, hb⟩ := transact_insert (s := (s.setSchedule moves).setProg c rest) b hx hd hC
  obtain ⟨u, hu, hub⟩ := steps_line hs hp hh ht hy
  exact ⟨u, hu, hub ▸ hb⟩

/-- A REMOVE's step takes the first of the contents and binds it. -/
theorem steps_remove {v : Var} {b : Byte} {l : List (Option Byte)}
    (hp : (s.ctx c).prog = lineOf k .consumer .remove (some v) rest) (hh : s.wiring.holds c k .consumer = true)
    (hl : (s.block k).contents = some b :: l)
    (hy : SettlesTo ⟨bindVar (s.ctx c).env v (some b), rest⟩ y) :
    ∃ t, Steps c moves y s t ∧ (t.block k).contents = l := by
  obtain ⟨t, ht, hb, hr⟩ := transact_remove (s := (s.setSchedule moves).setProg c rest) hd hl
  obtain ⟨u, hu, hub⟩ := steps_line hs hp hh ht (by rw [hr]; exact hy)
  exact ⟨u, hu, (congrArg Block.contents hub).trans hb⟩

end lines

/-! ### The pseudo-instructions (30_encoding.md R71) -/

/-- Settles O46: nothing local follows the INSERT, so its step is exec alone; the re-arm is the next step. -/
theorem writeInsertsThenRearms : Obligations.WriteInsertsThenRearms := by
  intro s b tmp moves hs hp hh
  obtain ⟨t, ht⟩ := transact_next .outbound .producer (encode (.insert b))
    ((s.setSchedule (.run .loop :: moves)).setProg .loop (.rearmTx .done))
  have hprog : (t.ctx .loop).prog = .rearmTx .done := by rw [transact_ctx ht, ctx_setProg_same]
  have hstep : step s = .next t := by
    rw [step_line hs hp hh, afterTransaction_stop (by rw [ctx_setProg_same]; rfl), ht]
  have hrearm : step t = .next (((t.setSchedule moves).setProg .loop .done).setArmed true) := by
    rw [step_run (transact_same ht).schedule (by rw [hprog]; exact Prog.noConfusion)]
    unfold runContext
    rw [ctx_setSchedule, hprog]
    exact congrArg _ (settle_stop (by rw [ctx_setArmed, ctx_setProg_same]; rfl))
  refine ⟨t, _, hstep, hrearm, (transact_same ht).txArmed, rfl, ?_, rfl, ?_⟩
  · rw [State.loop, ctx_setArmed, ctx_setProg_same]
  · rw [← transact_of_decode _ (decode_encode _)]
    exact ht

/-- A query with the negation of its flag as the result, as CAN_WRITE and CAN_READ are. -/
theorem step_negatedQuery {s : State} {c : Context} {k : InstName} {q : Instr} {a : Agent} {ok tmp : Var} {f : Bool}
    {moves : List Move} (hq : q = .isEmpty ∨ q = .isFull) (ha : a = .producer ∨ a = .consumer)
    (hs : s.schedule = .run c :: moves) (hp : (s.ctx c).prog = lineOf k a q (some tmp) (negation ok tmp))
    (hh : s.wiring.holds c k a = true) (hd : (s.block k).initDone = true)
    (hf : queryAnswer q (s.block k).count.val (s.block k).size = some (flagResp f)) :
    ∃ t, step s = .next t ∧ (t.ctx c).prog = .done ∧ t.block k = s.block k ∧
      lookupVar (t.ctx c).env ok = some (flagResp (!f)) := by
  obtain ⟨t, ht, hb⟩ := steps_query hs hd hq ha hp hh hf (settlesTo_negation (lookupVar_bindVar _ _ _))
  refine ⟨t, ht.step, by rw [ht.ctx], hb, ?_⟩
  rw [ht.ctx, lookupVar_bindVar]

/-- The response that holds a negated flag (30_encoding.md R63). -/
theorem flagResp_not_of_iff {f : Bool} {p : Prop} [Decidable p] (h : f = true ↔ p) :
    flagResp (!f) = if p then 0x00#8 else 0x01#8 := by
  rw [← if_congr h rfl rfl]
  cases f <;> rfl

/-- Settles O47: the two queries bind the negated flag, and READ is the REMOVE alone. -/
theorem controlLoopCallsBindTheirResults : Obligations.ControlLoopCallsBindTheirResults := by
  refine ⟨fun s ok tmp moves hs hp hh hd => ?_, fun s ok tmp moves hs hp hh hd => ?_,
    fun s v tmp b rest moves hs hp hh hd hl => ?_⟩
  · rw [expand_canWrite] at hp
    rw [← flagResp_not_of_iff (fullFlag_iff s.outbound)]
    exact step_negatedQuery (.inr rfl) (.inl rfl) hs hp hh hd (queryAnswer_isFull _)
  · rw [expand_canRead] at hp
    rw [← flagResp_not_of_iff (emptyFlag_iff s.inbound)]
    exact step_negatedQuery (.inl rfl) (.inr rfl) hs hp hh hd (queryAnswer_isEmpty _)
  · obtain ⟨t, ht, hc⟩ := steps_remove hs hd hp hh hl (settlesTo_self rfl)
    refine ⟨t, ht.step, by rw [State.loop, ht.ctx], hc, ?_⟩
    rw [State.loop, ht.ctx, lookupVar_bindVar]

/-- Settles O48: the query's flag decides whether the REMOVE is passed over or is the next step. -/
theorem tryRemoveTakesOnlyWhatIsThere : Obligations.TryRemoveTakesOnlyWhatIsThere := by
  intro s c k ok v tmp moves hp hh hd hvt hov
  rw [expand_tryRemove] at hp
  refine ⟨fun hs h0 => ?_, fun b rest hs hl => ?_⟩
  · have hf := queryAnswer_isEmpty (s.block k)
    rw [(emptyFlag_iff _).mpr h0] at hf
    obtain ⟨t, ht, hb⟩ := steps_query hs hd (.inl rfl) (.inr rfl) hp hh hf
      (settlesTo_attempt_skipped (lookupVar_bindVar _ _ _))
    refine ⟨t, ht.step, by rw [ht.ctx], hb, ?_⟩
    rw [ht.ctx, lookupVar_bindVar]
    rfl
  · have hf := queryAnswer_isEmpty (s.block k)
    rw [(emptyFlag_false_iff _).mpr (count_ne_zero_of_contents hl)] at hf
    obtain ⟨t, ht, hb⟩ := steps_query hs hd (.inl rfl) (.inr rfl) hp hh hf
      (settlesTo_attempt_taken (lookupVar_bindVar _ _ _))
    obtain ⟨u, hu, hc⟩ := steps_remove ht.schedule (hb ▸ hd) (congrArg CtxState.prog ht.ctx)
      (ht.wiring ▸ hh) (hb ▸ hl) (settlesTo_negation (f := false)
        (by rw [lookupVar_bindVar_ne _ _ hvt.symm, ht.ctx, lookupVar_bindVar]))
    refine ⟨t, u, ht.step, hu.step, by rw [hu.ctx], hc, ?_, ?_⟩
    · rw [hu.ctx, lookupVar_bindVar_ne _ _ hov.symm, lookupVar_bindVar]
    · rw [hu.ctx, lookupVar_bindVar]
      rfl

/-! ### The byte-received notification (60_exceptions.md R114) -/

/-- A turn of a context at the end of its program changes nothing but the order of steps. -/
theorem step_run_done {s : State} {c : Context} {moves : List Move} (hs : s.schedule = .run c :: moves)
    (hp : (s.ctx c).prog = .done) : ∃ t, step s = .next t ∧ t.ctx c = s.ctx c ∧ ∀ k, t.block k = s.block k := by
  cases he : s.ended with
  | true => exact ⟨s, step_ended he, rfl, fun _ => rfl⟩
  | false =>
    refine ⟨s.setSchedule moves, (step_move he hs).trans ?_, rfl, fun _ => rfl⟩
    show runContext c (s.setSchedule moves) = _
    unfold runContext
    rw [ctx_setSchedule, hp]

/-- Settles O44: the query's flag decides whether the INSERT is passed over, and the second move idle, or is the next
step. -/
theorem byteReceivedInsertsOrDrops : Obligations.ByteReceivedInsertsOrDrops := by
  refine ⟨fun s b moves hs => ?_, fun s b moves hs hp hh hd hx => ?_⟩
  · refine ⟨_, step_move (not_ended_of_notification hs rfl) hs, rfl, ?_⟩
    exact congrArg CtxState.prog (ctx_setProg_same _ _ _)
  · rw [rxHandler, expand_tryInsert] at hp
    have hf := queryAnswer_isFull s.inbound
    by_cases hC : s.inbound.count.val = s.inbound.size
    · rw [(fullFlag_iff _).mpr hC] at hf
      obtain ⟨t, ht, hb⟩ := steps_query hs hd (.inr rfl) (.inl rfl) hp hh hf
        (settlesTo_attempt_skipped (lookupVar_bindVar _ _ _))
      obtain ⟨u, hu, huctx, hub⟩ := step_run_done ht.schedule (congrArg CtxState.prog ht.ctx)
      have hblock : u.inbound = s.inbound := (hub .inbound).trans hb
      exact ⟨t, u, ht.step, hu, by rw [State.rx, huctx, ht.ctx], by rw [hblock], fun _ => hblock, absurd hC⟩
    · rw [(fullFlag_false_iff _).mpr hC] at hf
      obtain ⟨t, ht, hb⟩ := steps_query hs hd (.inr rfl) (.inl rfl) hp hh hf
        (settlesTo_attempt_taken (lookupVar_bindVar _ _ _))
      obtain ⟨u, hu, hfaults, hcontents⟩ := steps_insert ht.schedule (hb ▸ hd) (congrArg CtxState.prog ht.ctx)
        (ht.wiring ▸ hh) (hb ▸ hx) (hb ▸ hC) (settlesTo_negation (by rw [ht.ctx, lookupVar_bindVar]))
      rw [hb] at hfaults hcontents
      exact ⟨t, u, ht.step, hu.step, by rw [State.rx, hu.ctx], hfaults, fun h => absurd h hC, fun _ => hcontents⟩

end Sys2Proof.Machine
end

section
/-! PROOFS of the family 40_control.md: INIT, what it leaves of its block and of the system, and INIT as the first
command after power-on. -/

namespace Sys2Proof.Machine

/-! ### The effect of INIT (40_control.md R73) -/

theorem emptyFlag_clear (x : Block) : emptyFlag x.clear = true := rfl

theorem fullFlag_clear (x : Block) : fullFlag x.clear = false := rfl

/-- Every word with INIT's operation field spells INIT, whatever its data field holds (30_encoding.md R62). -/
theorem decode_of_opField_init {w : Cmd} (h : opField w = 0b001#3) : decode w = .op .init := by
  rw [decode, h]; rfl

/-- The Owner's INIT in full: it clears its block, answers nothing and leaves the rest of the system alone. -/
theorem exec_init_spec {s : State} (ha : s.txn.agent = .owner) :
    ∃ t, exec .init s = .next t ∧ SameElsewhere s t ∧ AnswersNone s t ∧ t.cur = s.cur.clear := by
  obtain ⟨hsame, hcur, hanswer, hdraws⟩ := respond_spec none (s.setCur s.cur.clear)
  exact ⟨_, exec_init ha, (setCur_same s (x := s.cur.clear) rfl).trans hsame, ⟨hanswer, hdraws⟩,
    hcur.trans (cur_setCur s _)⟩

theorem permitted_init_of_ne_owner {a : Agent} (ha : a ≠ .owner) : permitted .init a = false := by
  cases a with
  | owner => exact absurd rfl ha
  | producer | consumer => rfl

/-- INIT from another role fails the first of the common checks. -/
theorem exec_init_of_ne_owner {s : State} (ha : s.txn.agent ≠ .owner) :
    exec .init s = .next (violate .roleViolation .init s) :=
  exec_of_check (if_pos (permitted_init_of_ne_owner ha))

/-- Settles O7: the Owner's INIT leaves its block cleared, and another role's fails the role check. -/
theorem initResetsToEmpty : Obligations.InitResetsToEmpty := by
  refine ⟨⟨rfl, fun w hw => decode_of_opField_init hw⟩, fun s ha => ?_, fun s ha => ?_⟩
  · obtain ⟨t, ht, hsame, hanswer, hcur⟩ := exec_init_spec ha
    refine ⟨t, ht, hsame, hanswer, ?_⟩
    rw [hcur]
    exact ⟨rfl, rfl, rfl, rfl, rfl, rfl, emptyFlag_clear _, fullFlag_clear _⟩
  · exact ⟨_, exec_init_of_ne_owner ha, violate_spec .roleViolation .init s⟩

/-! ### INIT as the first command (40_control.md R74) -/

theorem holds_first (p : InstName × Roles) (y : Wiring) (a : Agent) :
    Wiring.holds (p :: y) (p.2.holder a) p.1 a = true := by
  rw [holds_iff]
  exact if_pos rfl

section placed
variable {s : State} {p : InstName × Roles} {y : Wiring} (hw : s.wiring = p :: y)
include hw

/-- INIT is placed as a line of the Owner of the first instance, whose turn is next, and no block changes. -/
theorem placeCommand_init :
    (placeCommand (encode .init) s).schedule = .run p.2.owner :: s.schedule ∧
      ((placeCommand (encode .init) s).ctx p.2.owner).prog =
        lineOf p.1 .owner .init none (s.ctx p.2.owner).prog ∧
      (placeCommand (encode .init) s).wiring = s.wiring ∧
      ∀ k, (placeCommand (encode .init) s).block k = s.block k := by
  rw [placeCommand, hw]
  exact ⟨rfl, congrArg CtxState.prog (ctx_setProg_same s _ _), hw, fun _ => rfl⟩

/-- Where nothing local follows it, the next step of a placed INIT clears the block of the first instance. -/
theorem step_placeCommand_init (hstop : stopsHere (s.ctx p.2.owner).prog = true) :
    ∃ t, step (placeCommand (encode .init) s) = .next t ∧ t.block p.1 = (s.block p.1).clear := by
  obtain ⟨hs, hp, hwiring, hblocks⟩ := placeCommand_init hw
  have hh : s.wiring.holds p.2.owner p.1 .owner = true := by rw [hw]; exact holds_first p y .owner
  obtain ⟨t, ht, hclear⟩ := transact_init _ (decode_encode .init)
  obtain ⟨u, hu, hblock⟩ := steps_line hs hp (hwiring ▸ hh) ht (settlesTo_self hstop)
  exact ⟨u, hu.step, hblock.trans (hclear.trans (congrArg Block.clear (hblocks p.1)))⟩

end placed

/-- Settles O21: at reset every context is idle and inbound is the first instance, so the placed INIT clears its
block. -/
theorem firstInitLeavesPowerOn : Obligations.FirstInitLeavesPowerOn := by
  obtain ⟨t, ht, hclear⟩ := step_placeCommand_init (s := State.reset) rfl rfl
  refine ⟨t, ht, ?_⟩
  rw [State.inbound, hclear]
  exact ⟨rfl, emptyFlag_clear _, fullFlag_clear _, stateClass_clear _⟩

end Sys2Proof.Machine
end

section
/-! PROOFS of the family 41_status.md: the two queries, what they answer and leave alone, and their faults. -/

namespace Sys2Proof.Machine

/-! ### The first two faults of any operation (60_exceptions.md R101, R102) -/

theorem exec_of_not_permitted {i : Instr} {s : State} (hp : permitted i s.txn.agent = false) :
    exec i s = .next (violate .roleViolation i s) :=
  exec_of_check (if_pos hp)

theorem exec_of_not_initDone {i : Instr} {s : State} (hp : permitted i s.txn.agent = true) (hi : i ≠ .init)
    (hd : s.cur.initDone = false) : exec i s = .next (violate .notInitialized i s) := by
  have hpass : permitted i s.txn.agent ≠ false := by rw [hp]; decide
  exact exec_of_check ((if_neg hpass).trans (if_pos ⟨hi, hd⟩))

/-! ### What the two queries have in common (41_status.md R78) -/

theorem decode_of_opField_isEmpty {w : Cmd} (h : opField w = 0b010#3) : decode w = .op .isEmpty := by
  rw [decode, h]; rfl

theorem decode_of_opField_isFull {w : Cmd} (h : opField w = 0b011#3) : decode w = .op .isFull := by
  rw [decode, h]; rfl

section query
variable {q : Instr} {s : State} (hq : q = .isEmpty ∨ q = .isFull)
include hq

theorem permitted_query {a : Agent} (ha : a = .producer ∨ a = .consumer) : permitted q a = true := by
  rcases hq with rfl | rfl <;> rcases ha with rfl | rfl <;> rfl

theorem permitted_query_owner : permitted q .owner = false := by
  rcases hq with rfl | rfl <;> rfl

theorem query_ne_init : q ≠ .init := by
  rcases hq with rfl | rfl <;> nofun

/-- A query of an initialised block in full: it answers for the count and leaves everything else alone. -/
theorem exec_query_spec (ha : s.txn.agent = .producer ∨ s.txn.agent = .consumer) (hd : s.cur.initDone = true) :
    ∃ t, exec q s = .next t ∧ SameElsewhere s t ∧ t.cur = s.cur ∧
      t.answer = queryAnswer q s.cur.count.val s.cur.size ∧ t.draws = s.draws :=
  ⟨_, exec_query hq (permitted_query hq ha) hd, respond_spec _ s⟩

theorem exec_query_owner (ha : s.txn.agent = .owner) :
    ∃ t, exec q s = .next t ∧ RecordsFault .roleViolation s t ∧ AnswersFault q s t :=
  ⟨_, exec_of_not_permitted (ha ▸ permitted_query_owner hq), violate_spec .roleViolation q s⟩

theorem exec_query_uninitialised (ha : s.txn.agent = .producer ∨ s.txn.agent = .consumer)
    (hd : s.cur.initDone = false) :
    ∃ t, exec q s = .next t ∧ RecordsFault .notInitialized s t ∧ AnswersFault q s t :=
  ⟨_, exec_of_not_initDone (permitted_query hq ha) (query_ne_init hq) hd, violate_spec .notInitialized q s⟩

end query

/-! ### IS_EMPTY and IS_FULL (41_status.md R77, R79) -/

/-- Settles O8: the three cases of a query, at IS_EMPTY's answer. -/
theorem isEmptyReportsCountZero : Obligations.IsEmptyReportsCountZero :=
  ⟨⟨rfl, fun _ => decode_of_opField_isEmpty⟩, fun _ => exec_query_spec (.inl rfl),
    fun _ => exec_query_owner (.inl rfl), fun _ => exec_query_uninitialised (.inl rfl)⟩

/-- Settles O9: the three cases of a query, at IS_FULL's answer. -/
theorem isFullReportsCountC : Obligations.IsFullReportsCountC :=
  ⟨⟨rfl, fun _ => decode_of_opField_isFull⟩, fun _ => exec_query_spec (.inr rfl),
    fun _ => exec_query_owner (.inr rfl), fun _ => exec_query_uninitialised (.inr rfl)⟩

/-! ### Capacity one (41_status.md R81) -/

theorem count_of_size_one {x : Block} (h1 : x.size = 1) : x.count.val = 0 ∨ x.count.val = 1 := by
  have hle : x.count.val ≤ x.size := x.count_le_size
  omega

/-- Settles O34: with one slot the count is 0 or 1, and each value is the one that one of the queries asks for. -/
theorem queriesAreOppositeAtCapacityOne : Obligations.QueriesAreOppositeAtCapacityOne := by
  intro s h1 hd ha
  obtain ⟨t, ht, _, _, hempty, _⟩ := exec_query_spec (.inl rfl) ha hd
  obtain ⟨u, hu, _, _, hfull, _⟩ := exec_query_spec (.inr rfl) ha hd
  refine ⟨t, u, ht, hu, ?_⟩
  rw [hempty, hfull, h1]
  rcases count_of_size_one h1 with h | h
  · rw [h]; exact .inl ⟨rfl, rfl⟩
  · rw [h]; exact .inr ⟨rfl, rfl⟩

end Sys2Proof.Machine
end

section
/-! PROOFS of the family 42_data.md: INSERT and REMOVE, what they do to the contents of their block, and the round
trip of a sequence of bytes. -/

namespace Sys2Proof.Machine

/-! ### INSERT (42_data.md R85, R87, R88) -/

theorem decode_of_opField_insert {w : Cmd} (h : opField w = 0b100#3) : decode w = .op (.insert (dataField w)) := by
  rw [decode, h]; rfl

theorem permitted_insert_of_ne_producer {b : Byte} {a : Agent} (ha : a ≠ .producer) :
    permitted (.insert b) a = false := by
  cases a with
  | producer => exact absurd rfl ha
  | owner | consumer => rfl

/-- The Producer's INSERT in full: it pushes its byte, answers nothing and leaves the rest of the system alone. -/
theorem exec_insert_spec {s : State} (b : Byte) (ha : s.txn.agent = .producer) (hd : s.cur.initDone = true)
    (hC : s.cur.count.val ≠ s.cur.size) :
    ∃ t, exec (.insert b) s = .next t ∧ SameElsewhere s t ∧ AnswersNone s t ∧ t.cur = s.cur.push b hC := by
  obtain ⟨hsame, hcur, hanswer, hdraws⟩ := respond_spec none (s.setCur (s.cur.push b hC))
  exact ⟨_, exec_insert b ha hd hC, (setCur_same s (x := s.cur.push b hC) rfl).trans hsame, ⟨hanswer, hdraws⟩,
    hcur.trans (cur_setCur s _)⟩

/-- Settles O10: the Producer's INSERT leaves its block pushed; each fault is the first check that fails. -/
theorem insertStoresAtTail : Obligations.InsertStoresAtTail := by
  refine ⟨⟨fun _ => rfl, fun _ => decode_of_opField_insert⟩, fun b s ha hd hC => ?_, fun b s ha => ?_,
    fun b s ha hd => ?_, fun b s ha hd hC => ?_⟩
  · obtain ⟨t, ht, hsame, hanswer, hcur⟩ := exec_insert_spec b ha hd hC
    refine ⟨t, ht, hsame, hanswer, ?_⟩
    rw [hcur]
    exact ⟨read_write_same _ _ _, fun n hn => read_write_ne _ _ hn, rfl, rfl, rfl, hd, rfl,
      (emptyFlag_false_iff _).mpr (Nat.succ_ne_zero _), fullFlag_iff _⟩
  · exact ⟨_, exec_of_not_permitted (permitted_insert_of_ne_producer ha), violate_spec .roleViolation (.insert b) s⟩
  · exact ⟨_, exec_of_not_initDone (ha ▸ rfl) nofun hd, violate_spec .notInitialized (.insert b) s⟩
  · exact ⟨_, exec_insert_full b ha hd hC, violate_spec .insertWhenFull (.insert b) s⟩

/-- Settles O28: the slot tail is behind the bytes held, and is none of theirs. -/
theorem insertAppendsToContents : Obligations.InsertAppendsToContents := by
  intro b s hx ha hd hC
  obtain ⟨t, ht, _, _, hcur⟩ := exec_insert_spec b ha hd hC
  refine ⟨t, ht, ?_⟩
  rw [hcur]
  exact ⟨hx.contents_push hd, rfl, fun _ hn => hx.slot_push hd hn⟩

/-! ### REMOVE (42_data.md R90, R92, R94) -/

theorem decode_of_opField_remove {w : Cmd} (h : opField w = 0b101#3) : decode w = .op .remove := by
  rw [decode, h]; rfl

theorem permitted_remove_of_ne_consumer {a : Agent} (ha : a ≠ .consumer) : permitted .remove a = false := by
  cases a with
  | consumer => exact absurd rfl ha
  | owner | producer => rfl

/-- The Consumer's REMOVE in full: it pops its block, answers the byte of the slot head where that holds one, and
leaves the rest of the system alone. -/
theorem exec_remove_spec {s : State} (ha : s.txn.agent = .consumer) (hd : s.cur.initDone = true)
    (h0 : s.cur.count.val ≠ 0) :
    ∃ t, exec .remove s = .next t ∧ SameElsewhere s t ∧ t.cur = s.cur.pop ∧
      ∀ v, Memory.read s.cur.storage s.cur.head.val = some v → AnswersByte v s t := by
  obtain ⟨hsame, hcur⟩ := respondSlot_spec (Memory.read s.cur.storage (removeSlot s.cur)) (s.setCur s.cur.pop)
  refine ⟨_, exec_remove ha hd h0, (setCur_same s (x := s.cur.pop) rfl).trans hsame, hcur.trans (cur_setCur s _),
    fun v hv => ?_⟩
  obtain ⟨_, hdraws, hanswer⟩ := respondSlot_undrawn (s := s) (hv ▸ rfl)
  exact ⟨(hanswer rfl).2.trans hv, hdraws⟩

/-- The count is one less than one that was at most C. -/
theorem fullFlag_pop {x : Block} (h0 : x.count.val ≠ 0) : fullFlag x.pop = false := by
  have hle := x.count_le_size
  have hne : x.count.val - 1 ≠ x.size := by omega
  exact (fullFlag_false_iff _).mpr hne

theorem emptyFlag_pop {x : Block} (h0 : x.count.val ≠ 0) : emptyFlag x.pop = true ↔ x.count.val = 1 := by
  have hone : x.count.val - 1 = 0 ↔ x.count.val = 1 := by omega
  exact (emptyFlag_iff _).trans hone

/-- Settles O11: the Consumer's REMOVE leaves its block popped; each fault is the first check that fails. -/
theorem removeTakesFromHead : Obligations.RemoveTakesFromHead := by
  refine ⟨⟨rfl, fun _ => decode_of_opField_remove⟩, fun s v ha hd h0 hv => ?_, fun s ha => ?_,
    fun s ha hd => ?_, fun s ha hd h0 => ?_⟩
  · obtain ⟨t, ht, hsame, hcur, hanswer⟩ := exec_remove_spec ha hd h0
    refine ⟨t, ht, hsame, hanswer v hv, ?_⟩
    rw [hcur]
    exact ⟨rfl, rfl, rfl, rfl, hd, rfl, fullFlag_pop h0, emptyFlag_pop h0⟩
  · exact ⟨_, exec_of_not_permitted (permitted_remove_of_ne_consumer ha), violate_spec .roleViolation .remove s⟩
  · exact ⟨_, exec_of_not_initDone (ha ▸ rfl) nofun hd, violate_spec .notInitialized .remove s⟩
  · exact ⟨_, exec_remove_empty ha hd h0, violate_spec .removeWhenEmpty .remove s⟩

/-- Settles O29: the contents are what the slot head holds and then the contents without it. -/
theorem removeDropsTheOldest : Obligations.RemoveDropsTheOldest := by
  intro s v rest ha hd hc
  have h0 := count_ne_zero_of_contents hc
  obtain ⟨t, ht, _, hcur, hanswer⟩ := exec_remove_spec ha hd h0
  rw [contents_pop _ h0] at hc
  obtain ⟨hv, hrest⟩ := List.cons.inj hc
  exact ⟨t, ht, (hanswer v hv).1, hcur ▸ hrest⟩

/-! ### The bound on count (42_data.md R96) -/

/-- An operation that changes the log adds its record and does nothing else to its block. -/
theorem BlockStep.recorded_of_faulted {i : Instr} {a : Agent} {x y : Block} (h : BlockStep i a x y)
    (hf : y.faults ≠ x.faults) : ∃ r, y = x.log r := by
  cases h with
  | recorded r => exact ⟨r, rfl⟩
  | cleared | queried | pushed | popped => exact absurd rfl hf

/-- Settles O32, from what an operation with a fault and one without do to the block. -/
theorem countStaysWithinCapacity : Obligations.CountStaysWithinCapacity := by
  intro i s t h
  have hb : BlockStep i s.txn.agent s.cur t.cur := (exec_effect h).2
  refine ⟨t.cur.count_le_size, hb.recorded_of_faulted, fun hf => ⟨?_, ?_, ?_⟩⟩
  · rintro b rfl
    obtain ⟨_, hC, hy⟩ := hb.insert_pushed hf
    exact ⟨lt_of_le_of_ne s.cur.count_le_size hC, by rw [hy]; rfl⟩
  · rintro rfl
    obtain ⟨_, h0, hy⟩ := hb.remove_popped hf
    exact ⟨Nat.pos_of_ne_zero h0, by rw [hy]; rfl⟩
  · rintro rfl
    rw [hb.init_cleared hf]; rfl

/-! ### The round trip (42_data.md R95) -/

/-- The Producer's INSERT on an initialised block that is not full pushes its byte. -/
theorem transact_insert_push {k : InstName} {w : Cmd} {b : Byte} {s : State} (hw : decode w = .op (.insert b))
    (hd : (s.block k).initDone = true) (hC : (s.block k).count.val ≠ (s.block k).size) :
    ∃ t, transact k .producer w s = .next t ∧ t.block k = (s.block k).push b hC := by
  obtain ⟨t, ht, _, _, hcur⟩ := exec_insert_spec (s := s.present k .producer w) b rfl hd hC
  have h := (transact_of_decode s hw).trans ht
  exact ⟨t, h, (transact_cur h).2.1.trans hcur⟩

/-- The Consumer's REMOVE on an initialised block that is not empty pops it. -/
theorem transact_remove_pop {k : InstName} {w : Cmd} {s : State} (hw : decode w = .op .remove)
    (hd : (s.block k).initDone = true) (h0 : (s.block k).count.val ≠ 0) :
    ∃ t, transact k .consumer w s = .next t ∧ t.block k = (s.block k).pop := by
  obtain ⟨t, ht, _, hcur, _⟩ := exec_remove_spec (s := s.present k .consumer w) rfl hd h0
  have h := (transact_of_decode s hw).trans ht
  exact ⟨t, h, (transact_cur h).2.1.trans hcur⟩

/-- The first transaction of a balanced run with `d` bytes held: it is elsewhere, or an INSERT of the Producer, or a
REMOVE of the Consumer with a byte to take; and what remains is balanced again. -/
inductive BalancedHead (k : InstName) (x : Txn) (rest : List Txn) (d : Nat) : Prop where
  | elsewhere (hk : x.inst ≠ k) (hb : balanced k rest d = true)
  | inserts (b : Byte) (hk : x.inst = k) (ha : x.agent = .producer) (hw : decode x.word = .op (.insert b))
      (hb : balanced k rest (d + 1) = true)
  | removes (hk : x.inst = k) (ha : x.agent = .consumer) (hw : decode x.word = .op .remove) (h0 : d ≠ 0)
      (hb : balanced k rest (d - 1) = true)

theorem balancedHead_of_cons {k : InstName} {x : Txn} {rest : List Txn} {d : Nat}
    (h : balanced k (x :: rest) d = true) : BalancedHead k x rest d := by
  by_cases hk : x.inst = k
  · simp only [balanced, if_pos hk] at h
    split at h
    · next b hw ha => exact .inserts b hk ha hw h
    · next hw ha => exact .removes hk ha hw (Nat.succ_ne_zero _) h
    · cases h
  · exact .elsewhere hk (by simpa only [balanced, if_neg hk] using h)

/-- The Owner issues nothing on the instance of a balanced run. -/
theorem agent_ne_owner_of_balanced {k : InstName} {ops : List Txn} {d : Nat} (h : balanced k ops d = true) :
    ∀ x ∈ ops, x.inst = k → x.agent ≠ .owner := by
  induction ops generalizing d with
  | nil => exact fun _ hx => absurd hx List.not_mem_nil
  | cons x rest ih =>
    refine List.forall_mem_cons.mpr ?_
    cases balancedHead_of_cons h with
    | elsewhere hk hb => exact ⟨fun e => absurd e hk, ih hb⟩
    | inserts b _ ha _ hb => exact ⟨fun _ => ha ▸ nofun, ih hb⟩
    | removes _ ha _ _ hb => exact ⟨fun _ => ha ▸ nofun, ih hb⟩

theorem insertBytes_elsewhere {k : InstName} {x : Txn} {rest : List Txn} (hk : x.inst ≠ k) :
    insertBytes k (x :: rest) = insertBytes k rest := by
  rw [insertBytes, if_neg hk]

theorem insertBytes_insert {k : InstName} {x : Txn} {rest : List Txn} {b : Byte} (hk : x.inst = k)
    (hw : decode x.word = .op (.insert b)) : insertBytes k (x :: rest) = b :: insertBytes k rest := by
  rw [insertBytes, if_pos hk, hw]

theorem insertBytes_remove {k : InstName} {x : Txn} {rest : List Txn} (hk : x.inst = k)
    (hw : decode x.word = .op .remove) : insertBytes k (x :: rest) = insertBytes k rest := by
  rw [insertBytes, if_pos hk, hw]

/-- Where the first transaction adds nothing to the log, the bytes of the INSERT words begin with what it inserts. -/
theorem insertBytes_cons {k : InstName} {x : Txn} {rest : List Txn} {s t : State}
    (hf : (t.block k).faults = (s.block k).faults) :
    insertBytes k (x :: rest) = insertedBy k x s t ++ insertBytes k rest := by
  by_cases hk : x.inst = k
  · simp only [insertBytes, if_pos hk, insertedBy, if_pos (And.intro hk hf)]
    split <;> rfl
  · rw [insertedBy_elsewhere hk, insertBytes_elsewhere hk, List.nil_append]

/-- Block `x` of instance `k` has the bytes that the REMOVEs of the run take beyond its own, and room for those of
its INSERTs. -/
structure Block.Serves (k : InstName) (ops : List Txn) (x : Block) : Prop where
  initDone : x.initDone = true
  balanced : balanced k ops x.count.val = true
  room     : x.count.val + (insertBytes k ops).length ≤ x.size

/-- A block that serves a run carries out its first transaction without a fault and serves the rest. -/
theorem Block.Serves.transact {k : InstName} {x : Txn} {rest : List Txn} {s : State}
    (h : (s.block k).Serves k (x :: rest)) :
    ∃ t, transact x.inst x.agent x.word s = .next t ∧ (t.block k).faults = (s.block k).faults ∧
      (t.block k).Serves k rest := by
  obtain ⟨hd, hb, hroom⟩ := h
  cases balancedHead_of_cons hb with
  | elsewhere hk hb =>
    obtain ⟨t, ht⟩ := transact_next x.inst x.agent x.word s
    have hblock : t.block k = s.block k := transact_block_ne ht (Ne.symm hk)
    rw [insertBytes_elsewhere hk] at hroom
    exact ⟨t, ht, by rw [hblock], by rw [hblock]; exact ⟨hd, hb, hroom⟩⟩
  | inserts b hk ha hw hb =>
    subst hk
    rw [insertBytes_insert rfl hw, List.length_cons] at hroom
    have hC : (s.block x.inst).count.val ≠ (s.block x.inst).size := by omega
    obtain ⟨t, ht, hblock⟩ := transact_insert_push hw hd hC
    refine ⟨t, ha ▸ ht, by rw [hblock]; rfl, ?_⟩
    rw [hblock]
    exact ⟨hd, hb, (Nat.add_right_comm _ 1 _).trans_le hroom⟩
  | removes hk ha hw h0 hb =>
    subst hk
    rw [insertBytes_remove rfl hw] at hroom
    obtain ⟨t, ht, hblock⟩ := transact_remove_pop hw hd h0
    refine ⟨t, ha ▸ ht, by rw [hblock]; rfl, ?_⟩
    rw [hblock]
    exact ⟨hd, hb, (Nat.add_le_add_right (Nat.sub_le _ 1) _).trans hroom⟩

/-- A run that the block serves inserts every byte it has an INSERT of, adds nothing to the log and leaves the block
empty. -/
theorem Block.Serves.runTxns {k : InstName} {ops : List Txn} {s : State} (h : (s.block k).Serves k ops) :
    ∃ r, runTxns k ops s = some r ∧ r.inserted = insertBytes k ops ∧
      (r.final.block k).faults = (s.block k).faults ∧ (r.final.block k).count.val = 0 := by
  induction ops generalizing s with
  | nil => exact ⟨⟨s, [], []⟩, rfl, rfl, rfl, of_decide_eq_true h.balanced⟩
  | cons x rest ih =>
    obtain ⟨t, ht, hf, hserves⟩ := h.transact
    obtain ⟨r, hr, hins, hfaults, hcount⟩ := ih hserves
    exact ⟨_, runTxns_cons ht hr, by rw [insertBytes_cons hf, hins], hfaults.trans hf, hcount⟩

theorem contents_of_count_zero {x : Block} (h0 : x.count.val = 0) : x.contents = [] := by
  rw [Block.contents, h0, List.range_zero, List.map_nil]

/-- Settles O37: the block serves the run, so every byte is inserted and none is held at the end; and what goes in
comes out in its order. -/
theorem roundTripReturnsTheSequence : Obligations.RoundTripReturnsTheSequence := by
  intro k ops s hx hd h0 hb hC
  have hserves : (s.block k).Serves k ops := ⟨hd, h0 ▸ hb, by rw [h0, Nat.zero_add]; exact hC⟩
  obtain ⟨r, hr, hins, hfaults, hcount⟩ := hserves.runTxns
  obtain ⟨r', hr', hq⟩ := runTxns_queues hx hd fun x hm e => agent_ne_owner_of_balanced hb x hm e.1 e.2.1
  obtain rfl : r = r' := Option.some.inj (hr.symm.trans hr')
  rw [contents_of_count_zero h0, contents_of_count_zero hcount, hins, List.nil_append,
    List.append_nil] at hq
  exact ⟨r, hr, hq.symm, hfaults, hcount⟩

end Sys2Proof.Machine
end

section
/-! PROOFS of the family 60_exceptions.md, the faults: the roles and who holds them, and which cause a transaction
records. -/

namespace Sys2Proof.Machine

/-! ### Roles and their holders (60_exceptions.md R110, R111) -/

theorem permitted_iff (i : Instr) (a : Agent) : permitted i a = true ↔
    ((i = .init ∧ a = .owner) ∨ ((i = .isEmpty ∨ i = .isFull) ∧ (a = .producer ∨ a = .consumer)) ∨
      ((∃ b, i = .insert b) ∧ a = .producer) ∨ (i = .remove ∧ a = .consumer)) := by
  cases i with
  | init | isEmpty | isFull | insert | remove => cases a <;> simp [permitted]

/-- An instance that the system has not has no role to hold. -/
theorem holds_of_not_mem_names {y : Wiring} {k : InstName} (hk : k ∉ y.names) (c : Context) (a : Agent) :
    y.holds c k a = false :=
  Bool.eq_false_of_not_eq_true fun h => hk (mem_names_of_holds h)

/-- In the original system each role is held by the context that R111's table names, and no instance comes third. -/
theorem holds_original_iff (c : Context) (k : InstName) (a : Agent) :
    Config.original.wiring.holds c k a = true ↔ (k = .inbound ∧ c = Roles.holder ⟨.setup, .rx, .loop⟩ a) ∨
      (k = .outbound ∧ c = Roles.holder ⟨.setup, .loop, .tx⟩ a) := by
  have hwf : Config.original.wellFormed = true := by decide
  cases k with
  | inbound => simpa using holds_wiring_iff hwf (p := ⟨.inbound, _, _⟩) List.mem_cons_self c a
  | outbound =>
    simpa using holds_wiring_iff hwf (p := ⟨.outbound, _, _⟩) (List.mem_cons_of_mem _ List.mem_cons_self) c a
  | other n =>
    have hk : InstName.other n ∉ Config.original.wiring.names := by simp [names_wiring, Config.original]
    simp [holds_of_not_mem_names hk]

/-- Settles O19: the two tables row by row; a role of an instance of the system has a holder, and only one. -/
theorem rolesFollowTheTable : Obligations.RolesFollowTheTable := by
  refine ⟨permitted_iff, fun c k a => ?_, fun y k a => ⟨fun hk => ?_, fun hk c => holds_of_not_mem_names hk c a⟩⟩
  · refine (holds_original_iff c k a).trans ?_
    cases a <;> simp [Roles.holder] <;> tauto
  · obtain ⟨c, hc⟩ := Option.isSome_iff_exists.mp ((holder_isSome y k a).mpr hk)
    have hh : y.holds c k a = true := (holds_iff y c k a).mpr hc
    exact ⟨c, hh, fun d hd => holds_unique hh hd⟩

/-! ### Single faults (60_exceptions.md R100 to R102) -/

/-- Settles O5: such a word decodes to no operation. -/
theorem reservedWordsRecordAFault : Obligations.ReservedWordsRecordAFault := by
  intro k a w s hw
  obtain ⟨_, _, _, _, _, hinvalid⟩ := decodeFollowsOpcodeMap w
  obtain ⟨e, he⟩ := hinvalid hw
  exact ⟨_, transact_of_invalid s he, violateReserved_spec (s.present k a w)⟩

/-- Settles O17: the role check comes first. -/
theorem forbiddenRolesRecordRoleViolation : Obligations.ForbiddenRolesRecordRoleViolation :=
  fun i s hp => ⟨_, exec_of_not_permitted hp, violate_spec .roleViolation i s⟩

/-- Settles O18: the check of init_done comes next, and a record made before INIT has no count. -/
theorem operationsBeforeInitAreRecorded : Obligations.OperationsBeforeInitAreRecorded := by
  intro i s hi hp hd
  obtain ⟨hrec, hans⟩ := violate_spec .notInitialized i s
  refine ⟨_, exec_of_not_initDone hp hi hd, hrec, hans, ?_⟩
  rw [hrec.1, hd]
  rfl

/-! ### Any fault (60_exceptions.md R97, R98) -/

/-- After a fault some log is not empty. -/
theorem violate_not_good (c : Cause) (i : Instr) (s : State) : (violate c i s).good = false := by
  obtain ⟨hblocks, _⟩ := drawFor_tables (respKind i) (raise c s)
  have hmem : (s.txn.inst, s.cur.log (faultRecord c s)) ∈ (violate c i s).blocks := by
    rw [violate, hblocks]
    exact setEntry_mem _ _ _
  rw [State.good, List.all_eq_false]
  exact ⟨_, hmem, by simp [Block.log]⟩

/-- An operation records one fault, or leaves the log. -/
theorem Ran.faults_or_violate {i : Instr} {s t : State} (h : Ran i s t) :
    t.cur.faults = s.cur.faults ∨ ∃ c, t = violate c i s := by
  cases h with
  | faulted c => exact .inr ⟨c, rfl⟩
  | saidEmpty | saidFull => exact .inl (congrArg Block.faults (respond_spec _ s).2.1)
  | cleared | inserted => left; rw [(respond_spec _ _).2.1, cur_setCur]; rfl
  | removed => left; rw [(respondSlot_spec _ _).2, cur_setCur]; rfl

/-- Settles O15, from what an operation can do. -/
theorem faultsOnlyAppendARecord : Obligations.FaultsOnlyAppendARecord := by
  intro i s
  obtain ⟨t, ht, hran⟩ := exec_ran i s
  refine ⟨t, ht, hran.faults_or_violate.imp_right ?_⟩
  rintro ⟨c, rfl⟩
  obtain ⟨hrec, hans⟩ := violate_spec c i s
  exact ⟨c, hrec, hans, violate_not_good c i s⟩

/-! ### The lowest cause (60_exceptions.md R99, R107) -/

section applies
variable {i : Instr} {a : Agent} {w : Cmd} {x : Block} (hw : decode w = .op i)
include hw

theorem not_applies_reservedOpcode : ¬Applies .reservedOpcode a w x := by
  rintro ⟨e, he⟩
  cases hw.symm.trans he

theorem applies_roleViolation_iff : Applies .roleViolation a w x ↔ permitted i a = false := by
  simp [Applies, hw]

theorem applies_notInitialized_iff : Applies .notInitialized a w x ↔ i ≠ .init ∧ x.initDone = false := by
  simp [Applies, hw]

theorem applies_insertWhenFull_iff : Applies .insertWhenFull a w x ↔ (∃ b, i = .insert b) ∧ x.count.val = x.size := by
  simp [Applies, hw]

theorem applies_removeWhenEmpty_iff : Applies .removeWhenEmpty a w x ↔ i = .remove ∧ x.count.val = 0 := by
  simp [Applies, hw]

end applies

/-- A cause that applies where none with a lower code does. -/
def Lowest (c : Cause) (a : Agent) (w : Cmd) (x : Block) : Prop :=
  Applies c a w x ∧ ∀ d, Applies d a w x → c.code ≤ d.code

/-- No code lies below 1, and none above 5. -/
theorem lowest_of_lower {c : Cause} {a : Agent} {w : Cmd} {x : Block} (h : Applies c a w x)
    (h1 : 1 < c.code → ¬Applies .reservedOpcode a w x) (h2 : 2 < c.code → ¬Applies .roleViolation a w x)
    (h3 : 3 < c.code → ¬Applies .notInitialized a w x) (h4 : 4 < c.code → ¬Applies .insertWhenFull a w x) :
    Lowest c a w x := by
  refine ⟨h, fun d hd => Nat.not_lt.mp fun hlt => ?_⟩
  cases d with
  | reservedOpcode => exact h1 hlt hd
  | roleViolation => exact h2 hlt hd
  | notInitialized => exact h3 hlt hd
  | insertWhenFull => exact h4 hlt hd
  | removeWhenEmpty => cases c <;> exact absurd hlt (by decide)

/-- What a step from `s` to `t` recorded is what R107 says of the transaction under way. -/
def RecordsLowest (s t : State) : Prop :=
  ((∀ c, ¬Applies c s.txn.agent s.txn.word s.cur) ∧ t.cur.faults = s.cur.faults) ∨
    ∃ c, Lowest c s.txn.agent s.txn.word s.cur ∧ RecordsFault c s t

/-- An operation whose checks all pass records nothing. -/
theorem exec_unfaulted {i : Instr} {s : State} (hp : permitted i s.txn.agent = true)
    (hd : i = .init ∨ s.cur.initDone = true) (hC : ∀ b, i = .insert b → s.cur.count.val ≠ s.cur.size)
    (h0 : i = .remove → s.cur.count.val ≠ 0) : ∃ t, exec i s = .next t ∧ t.cur.faults = s.cur.faults := by
  cases i with
  | init =>
    obtain ⟨t, ht, _, _, hcur⟩ := exec_init_spec (s := s) (by simpa [permitted_iff] using hp)
    exact ⟨t, ht, by rw [hcur]; rfl⟩
  | isEmpty =>
    obtain ⟨t, ht, _, hcur, _⟩ :=
      exec_query_spec (s := s) (.inl rfl) (by simpa [permitted_iff] using hp) (by simpa using hd)
    exact ⟨t, ht, by rw [hcur]⟩
  | isFull =>
    obtain ⟨t, ht, _, hcur, _⟩ :=
      exec_query_spec (s := s) (.inr rfl) (by simpa [permitted_iff] using hp) (by simpa using hd)
    exact ⟨t, ht, by rw [hcur]⟩
  | insert b =>
    obtain ⟨t, ht, _, _, hcur⟩ :=
      exec_insert_spec (s := s) b (by simpa [permitted_iff] using hp) (by simpa using hd) (hC b rfl)
    exact ⟨t, ht, by rw [hcur]; rfl⟩
  | remove =>
    obtain ⟨t, ht, _, hcur, _⟩ :=
      exec_remove_spec (s := s) (by simpa [permitted_iff] using hp) (by simpa using hd) (h0 rfl)
    exact ⟨t, ht, by rw [hcur]; rfl⟩

/-- A fault of the lowest cause is what R107 says. -/
theorem recordsLowest_of_violate {c : Cause} {i : Instr} {s : State} (h : exec i s = .next (violate c i s))
    (hc : Lowest c s.txn.agent s.txn.word s.cur) : ∃ t, exec i s = .next t ∧ RecordsLowest s t :=
  ⟨_, h, .inr ⟨c, hc, (violate_spec c i s).1⟩⟩

/-- The checks of an operation follow the order of the codes. -/
theorem exec_recordsLowest {i : Instr} {s : State} (hw : decode s.txn.word = .op i) :
    ∃ t, exec i s = .next t ∧ RecordsLowest s t := by
  have hres : ¬Applies .reservedOpcode s.txn.agent s.txn.word s.cur := not_applies_reservedOpcode hw
  cases hp : permitted i s.txn.agent with
  | false =>
    have hrole := (applies_roleViolation_iff hw (x := s.cur)).mpr hp
    exact recordsLowest_of_violate (exec_of_not_permitted hp)
      (lowest_of_lower hrole (fun _ => hres) (absurd · (by decide)) (absurd · (by decide)) (absurd · (by decide)))
  | true =>
    have hrole : ¬Applies .roleViolation s.txn.agent s.txn.word s.cur := by
      rw [applies_roleViolation_iff hw, hp]; exact Bool.noConfusion
    by_cases hinit : Applies .notInitialized s.txn.agent s.txn.word s.cur
    · obtain ⟨hi, hd⟩ := (applies_notInitialized_iff hw).mp hinit
      exact recordsLowest_of_violate (exec_of_not_initDone hp hi hd)
        (lowest_of_lower hinit (fun _ => hres) (fun _ => hrole) (absurd · (by decide)) (absurd · (by decide)))
    have hd : i = .init ∨ s.cur.initDone = true := by
      rw [applies_notInitialized_iff hw] at hinit
      simpa [or_iff_not_imp_left] using hinit
    by_cases hfull : Applies .insertWhenFull s.txn.agent s.txn.word s.cur
    · obtain ⟨⟨b, rfl⟩, hC⟩ := (applies_insertWhenFull_iff hw).mp hfull
      exact recordsLowest_of_violate (exec_insert_full b (by simpa [permitted_iff] using hp) (by simpa using hd) hC)
        (lowest_of_lower hfull (fun _ => hres) (fun _ => hrole) (fun _ => hinit) (absurd · (by decide)))
    by_cases hempty : Applies .removeWhenEmpty s.txn.agent s.txn.word s.cur
    · obtain ⟨rfl, h0⟩ := (applies_removeWhenEmpty_iff hw).mp hempty
      exact recordsLowest_of_violate (exec_remove_empty (by simpa [permitted_iff] using hp) (by simpa using hd) h0)
        (lowest_of_lower hempty (fun _ => hres) (fun _ => hrole) (fun _ => hinit) fun _ => hfull)
    obtain ⟨t, ht, hf⟩ := exec_unfaulted hp hd
      (fun b hb hC => hfull ((applies_insertWhenFull_iff hw).mpr ⟨⟨b, hb⟩, hC⟩))
      fun hi h0 => hempty ((applies_removeWhenEmpty_iff hw).mpr ⟨hi, h0⟩)
    refine ⟨t, ht, .inl ⟨fun c => ?_, hf⟩⟩
    cases c with
    | reservedOpcode => exact hres
    | roleViolation => exact hrole
    | notInitialized => exact hinit
    | insertWhenFull => exact hfull
    | removeWhenEmpty => exact hempty

/-- ReservedOpcode has the lowest code of all. -/
theorem transact_recordsLowest (k : InstName) (a : Agent) (w : Cmd) (s : State) :
    ∃ t, transact k a w s = .next t ∧ RecordsLowest (s.present k a w) t := by
  cases hw : decode w with
  | op i =>
    rw [transact_of_decode s hw]
    exact exec_recordsLowest (s := s.present k a w) hw
  | invalid e =>
    refine ⟨_, transact_of_invalid s hw, .inr ⟨.reservedOpcode, ⟨⟨e, hw⟩, fun d _ => ?_⟩,
      (violateReserved_spec (s.present k a w)).1⟩⟩
    cases d <;> decide

/-- Settles O16: the checks of a transaction follow the order of the codes, and the first that fails is recorded. -/
theorem lowestCauseIsRecorded : Obligations.LowestCauseIsRecorded := by
  intro k a w s
  obtain ⟨t, ht, hrec⟩ := transact_recordsLowest k a w s
  refine ⟨t, ht, hrec.imp (fun ⟨hnone, hf⟩ => ⟨hnone, ?_⟩) fun ⟨c, hlow, hr⟩ => ⟨c, hlow.1, hlow.2, hr⟩⟩
  rw [(transact_cur ht).2.1]
  exact hf

end Sys2Proof.Machine
end

section
/-! PROOFS of the family 60_exceptions.md, the contexts: whose ports a program may use, the transmit-ready handler and
its notification enable, and the byte that no step strands. -/

namespace Sys2Proof.Machine

/-! ### What a step is, by the context that goes next -/

/-- A step in terms of `State.mover` and `State.turn`: the handler of a transmit-ready that is raised is already in place
in the turn, so whichever context runs, it runs from there. -/
inductive TurnTaken (s : State) : State → Prop where
  | ended (h : s.ended = true) : TurnTaken s s
  | ran (c : Context) (hm : s.mover = some c) {t : State} (h : runContext c s.turn = .next t) : TurnTaken s t
  | received (b : Byte) (rest : List Move) (hs : s.schedule = .byteReceived b :: rest) :
      TurnTaken s (s.turn.queue .rx (rxHandler b))
  | ignored (rest : List Move) (hs : s.schedule = .transmitReady :: rest) (hr : s.txReady = false) : TurnTaken s s.turn

theorem turn_received {s : State} {b : Byte} {rest : List Move} (hs : s.schedule = .byteReceived b :: rest) :
    s.turn = s.setSchedule rest := by
  rw [State.turn, hs]

theorem turn_not_ready {s : State} {rest : List Move} (hs : s.schedule = .transmitReady :: rest)
    (hr : s.txReady = false) : s.turn = s.setSchedule rest := by
  rw [State.turn, hs]
  exact if_neg (by rw [hr]; exact Bool.noConfusion)

theorem turn_ready {s : State} {rest : List Move} (hs : s.schedule = .transmitReady :: rest)
    (hr : s.txReady = true) : s.turn = (s.setSchedule rest).setProg .tx txHandler := by
  rw [State.turn, hs]
  exact if_pos hr

theorem step_turnTaken {s t : State} (h : step s = .next t) : TurnTaken s t := by
  cases he : s.ended with
  | true => rw [step_ended he] at h; cases h; exact .ended he
  | false =>
    cases hs : s.schedule with
    | nil =>
      obtain ⟨c, hc, hn⟩ := step_free_mover he hs
      have hm : s.mover = some c := by rw [State.mover, hs]; exact hn
      exact .ran c hm ((step_mover hm (by rw [State.turn, hs]; exact hc)).symm.trans h)
    | cons m rest =>
      cases m with
      | run c =>
        rw [step_move he hs] at h
        exact .ran c (by rw [State.mover, hs]) (by rw [State.turn, hs]; exact h)
      | byteReceived b =>
        rw [step_move he hs, ← turn_received hs] at h
        cases h
        exact .received b rest hs
      | transmitReady =>
        cases hr : s.txReady with
        | true =>
          rw [step_ready hs hr, ← turn_ready hs hr] at h
          exact .ran .tx (by rw [State.mover, hs]; exact if_pos hr) h
        | false =>
          rw [step_not_ready hs hr, ← turn_not_ready hs hr] at h
          cases h
          exact .ignored rest hs hr

/-- The turn starts no program but the transmit-ready handler, where that notification is raised. -/
theorem turn_ctx_cases (s : State) :
    (∀ c, s.turn.ctx c = s.ctx c) ∨
      ((∃ rest, s.schedule = .transmitReady :: rest) ∧ s.txReady = true ∧ s.mover = some .tx ∧
        s.turn.tx.prog = txHandler ∧ ∀ c, c ≠ .tx → s.turn.ctx c = s.ctx c) := by
  cases hs : s.schedule with
  | nil => left; intro c; rw [State.turn, hs]; rfl
  | cons m rest =>
    cases m with
    | run d => left; intro c; rw [State.turn, hs]; rfl
    | byteReceived b => left; intro c; rw [turn_received hs]; rfl
    | transmitReady =>
      cases hr : s.txReady with
      | false => left; intro c; rw [turn_not_ready hs hr]; rfl
      | true =>
        right
        rw [turn_ready hs hr]
        exact ⟨⟨rest, rfl⟩, rfl, by rw [State.mover, hs]; exact if_pos hr, by rw [State.tx, ctx_setProg_same],
          fun c hc => ctx_setProg_ne _ _ hc⟩

/-- The turn writes no block and no wiring, and leaves `tx_armed`. -/
theorem turn_frame (s : State) : SameSystem s s.turn ∧ s.turn.txArmed = s.txArmed := by
  unfold State.turn
  split
  · exact ⟨⟨rfl, rfl, rfl, rfl⟩, rfl⟩
  · exact ⟨⟨rfl, rfl, rfl, rfl⟩, rfl⟩
  · exact ⟨⟨rfl, rfl, rfl, rfl⟩, rfl⟩
  · split <;> exact ⟨⟨rfl, rfl, rfl, rfl⟩, rfl⟩

/-! ### What every action keeps of a program -/

/-- A property of programs that is kept by every action, a local one and a step alike. -/
structure KeptByActions (P : Prog → Prop) : Prop where
  command  : ∀ k a w x r, P (.command k a w x r) → P r
  ifThen   : ∀ e y n r, P (.ifThen e y n r) → P (appendProg y r) ∧ P (appendProg n r)
  assign   : ∀ x e r, P (.assign x e r) → P r
  disarmTx : ∀ r, P (.disarmTx r) → P r
  transmit : ∀ x r, P (.transmit x r) → P r
  rearmTx  : ∀ r, P (.rearmTx r) → P r
  whileDo  : ∀ e b r, P (.whileDo e b r) → P r ∧ P (appendProg b (.whileDo e b r))

/-- Such a property, of one context's program, is kept by the step of any context. -/
theorem KeptByActions.runContext {P : Prog → Prop} (hP : KeptByActions P) {c d : Context} {s t : State}
    (h : runContext d s = .next t) (hp : P (s.ctx c).prog) : P (t.ctx c).prog := by
  by_cases hc : c = d
  · subst hc
    exact runContext_keeps hP.command hP.ifThen hP.assign hP.disarmTx hP.transmit hP.rearmTx hP.whileDo hp h
  · rw [runContext_ctx_ne hc h]; exact hp

theorem neverDisarms_append (p q : Prog) :
    neverDisarms (appendProg p q) = (neverDisarms p && neverDisarms q) := by
  induction p <;> simp_all [appendProg, neverDisarms, Bool.and_assoc]

theorem onHeldPorts_append (y : Wiring) (c : Context) (p q : Prog) :
    (appendProg p q).onHeldPorts y c = (p.onHeldPorts y c && q.onHeldPorts y c) := by
  induction p <;> simp_all [appendProg, Prog.onHeldPorts, Bool.and_assoc]

theorem startsWithRearm_append {p : Prog} (q : Prog) (h : startsWithRearm p = true) :
    startsWithRearm (appendProg p q) = true := by
  cases p with
  | rearmTx r => rfl
  | done | command | ifThen | whileDo | assign | disarmTx | transmit => cases h

theorem rearmsEveryWrite_append {p q : Prog} (hp : rearmsEveryWrite p = true) (hq : rearmsEveryWrite q = true) :
    rearmsEveryWrite (appendProg p q) = true := by
  induction p with
  | command k a w x r ih =>
    simp only [appendProg, rearmsEveryWrite, Bool.and_eq_true, Bool.or_eq_true] at hp ⊢
    exact ⟨hp.1.imp_right (startsWithRearm_append q), ih hp.2⟩
  | done | ifThen | whileDo | assign | rearmTx | disarmTx | transmit => simp_all [appendProg, rearmsEveryWrite]

theorem neverDisarms_kept : KeptByActions fun p => neverDisarms p = true := by
  constructor <;> simp_all [neverDisarms, neverDisarms_append]

theorem onHeldPorts_kept (y : Wiring) (c : Context) : KeptByActions fun p => p.onHeldPorts y c = true := by
  constructor <;> simp_all [Prog.onHeldPorts, onHeldPorts_append]

theorem rearmsEveryWrite_kept : KeptByActions fun p => rearmsEveryWrite p = true := by
  constructor <;> simp_all [rearmsEveryWrite, rearmsEveryWrite_append]

/-- A program that keeps the duty to re-arm never disarms. -/
theorem neverDisarms_of_rearmsEveryWrite {p : Prog} (h : rearmsEveryWrite p = true) : neverDisarms p = true := by
  induction p <;> simp_all [rearmsEveryWrite, neverDisarms]

/-! ### The notification enable (60_exceptions.md R116, R117) -/

/-- Local actions of a program that never disarms leave `tx_armed`. -/
theorem settleFuel_txArmed {c : Context} (n : Nat) {s : State} (h : neverDisarms (s.ctx c).prog = true) :
    (settleFuel n c s).txArmed = s.txArmed := by
  induction n generalizing s with
  | zero => rfl
  | succ n ih =>
    cases hp : (s.ctx c).prog <;> rw [hp] at h <;> simp only [settleFuel, hp]
    case ifThen e y q r =>
      obtain ⟨hy, hq⟩ := neverDisarms_kept.ifThen e y q r h
      rcases evalExpr (s.ctx c).env e with _ | _ | _
      · rfl
      · exact ih (by rw [ctx_setProg_same]; exact hq)
      · exact ih (by rw [ctx_setProg_same]; exact hy)
    case assign x e r =>
      cases evalExpr (s.ctx c).env e with
      | none => rfl
      | some b => exact ih (by rw [ctx_setEnv_same, ctx_setProg_same]; exact h)
    case disarmTx r => cases h
    case transmit x r =>
      cases lookupVar (s.ctx c).env x with
      | none => rfl
      | some v => exact ih (by rw [ctx_setWire, ctx_setProg_same]; exact h)

theorem settle_txArmed {c : Context} {s : State} (h : neverDisarms (s.ctx c).prog = true) :
    (settle c s).txArmed = s.txArmed := settleFuel_txArmed _ h

theorem bindResponse_txArmed (c : Context) (x : Option Var) (r : Option Byte) (s : State) :
    (bindResponse c x r s).txArmed = s.txArmed := by
  cases x <;> rfl

/-- The step of a context whose program never disarms arms exactly where its next action is the re-arm. -/
theorem runContext_txArmed {c : Context} {s t : State} (h : neverDisarms (s.ctx c).prog = true)
    (ht : runContext c s = .next t) : t.txArmed = (s.txArmed || startsWithRearm (s.ctx c).prog) := by
  unfold runContext at ht
  cases hp : (s.ctx c).prog with
  | done => rw [hp] at ht; cases ht; simp [startsWithRearm]
  | command k a w x rest =>
    rw [hp] at ht h
    dsimp only at ht
    split at ht
    · obtain ⟨u, hu⟩ := transact_next k a w (s.setProg c rest)
      rw [hu] at ht
      cases ht
      rw [settle_txArmed (by rw [prog_bindResponse, transact_ctx hu, ctx_setProg_same]; exact h),
        bindResponse_txArmed, (transact_same hu).txArmed]
      simp [startsWithRearm, State.setProg]
    · cases ht
  | rearmTx rest =>
    rw [hp] at ht h
    cases ht
    rw [settle_txArmed (by rw [ctx_setArmed, ctx_setProg_same]; exact h)]
    simp [startsWithRearm]
  | whileDo e body rest =>
    obtain ⟨hr, hb⟩ := neverDisarms_kept.whileDo e body rest (hp ▸ h)
    rw [hp] at ht
    dsimp only at ht
    split at ht <;> cases ht
    · rw [settle_txArmed (by rw [ctx_setProg_same]; exact hb)]
      simp [startsWithRearm, State.setProg]
    · rw [settle_txArmed (by rw [ctx_setProg_same]; exact hr)]
      simp [startsWithRearm, State.setProg]
  | disarmTx rest => rw [hp] at h; cases h
  | ifThen | assign | transmit =>
    rw [hp] at ht
    dsimp only at ht
    split at ht <;> cases ht
    rw [settle_txArmed h]
    simp [startsWithRearm]

/-! ### Which steps give a block its first byte -/

/-- An initialised block that is not empty. -/
def Block.HoldsByte (x : Block) : Prop := x.initDone = true ∧ x.count.val ≠ 0

/-- A block that holds a byte held one before, or the Producer has just inserted it. -/
theorem BlockStep.holdsByte {i : Instr} {a : Agent} {x y : Block} (h : BlockStep i a x y) (hy : y.HoldsByte) :
    x.HoldsByte ∨ ((∃ b, i = .insert b) ∧ a = .producer) := by
  obtain ⟨hd, h0⟩ := hy
  cases h with
  | recorded r => exact .inl ⟨hd, h0⟩
  | cleared => exact absurd rfl h0
  | queried => exact .inl ⟨hd, h0⟩
  | pushed b hi ha => exact .inr ⟨⟨b, hi⟩, ha⟩
  | popped _ _ hx hx0 => exact .inl ⟨hx, hx0⟩

theorem isInsertWord_of_decode {w : Cmd} {b : Byte} (h : decode w = .op (.insert b)) : isInsertWord w = true := by
  unfold decode at h
  split_ifs at h with _ _ _ hop <;> cases h
  exact decide_eq_true hop

theorem transact_holdsByte {k j : InstName} {a : Agent} {w : Cmd} {s t : State} (h : transact k a w s = .next t)
    (ht : (t.block j).HoldsByte) :
    (s.block j).HoldsByte ∨ (k = j ∧ a = .producer ∧ isInsertWord w = true) := by
  by_cases hj : j = k
  · subst hj
    rcases transact_block h with ⟨r, hr⟩ | ⟨i, hw, hb⟩
    · rw [hr] at ht; exact .inl ht
    · refine (hb.holdsByte ht).imp_right ?_
      rintro ⟨⟨b, rfl⟩, ha⟩
      exact ⟨rfl, ha, isInsertWord_of_decode hw⟩
  · rw [transact_block_ne h hj] at ht; exact .inl ht

/-- In the step of a context a block comes to hold a byte only by an INSERT on its Producer port. -/
theorem runContext_holdsByte {c : Context} {j : InstName} {s t : State} (h : runContext c s = .next t)
    (ht : (t.block j).HoldsByte) :
    (s.block j).HoldsByte ∨ ∃ w x rest, (s.ctx c).prog = .command j .producer w x rest ∧
      isInsertWord w = true ∧ s.wiring.holds c j .producer = true := by
  rcases runContext_cases h with ⟨k, a, w, x, rest, u, hp, hh, hu, rfl⟩ | hl
  · rw [((bindResponse_local c x _ u).trans (settle_local c _)).block] at ht
    refine (transact_holdsByte hu ht).imp_right ?_
    rintro ⟨rfl, rfl, hw⟩
    exact ⟨w, x, rest, hp, hw, hh⟩
  · rw [hl.block] at ht; exact .inl ht

/-- After a command behind which nothing local follows, the context is at what is behind it. -/
theorem runContext_command_prog {c : Context} {k : InstName} {a : Agent} {w : Cmd} {x : Option Var} {rest : Prog}
    {s t : State} (hp : (s.ctx c).prog = .command k a w x rest) (hh : s.wiring.holds c k a = true)
    (hstop : stopsHere rest = true) (h : runContext c s = .next t) : (t.ctx c).prog = rest := by
  obtain ⟨u, hu⟩ := transact_next k a w (s.setProg c rest)
  rw [runContext_command hp hh, hu] at h
  cases h
  have hrest : ((bindResponse c x (u.resp k a) u).ctx c).prog = rest := by
    rw [prog_bindResponse, transact_ctx hu, ctx_setProg_same]
  rw [settle_stop (by rw [hrest]; exact hstop), hrest]

/-! ### The steps of the transmit-ready handler (60_exceptions.md R115) -/

/-- An operation that has a response answers a byte, with a fault or without. -/
theorem exec_answers {i : Instr} {s t : State} (hi : respKind i ≠ .none) (h : exec i s = .next t) :
    ∃ v, t.answer = some v := by
  cases ran_of_exec h with
  | faulted c =>
    have ha := (violate_spec c i s).2
    cases i with
    | isEmpty | isFull | remove => exact ⟨_, ha.1⟩
    | init | insert => exact absurd rfl hi
  | cleared hi' => subst hi'; exact absurd rfl hi
  | inserted b hi' => subst hi'; exact absurd rfl hi
  | saidEmpty | saidFull =>
    obtain ⟨_, _, hans, _⟩ := respond_spec _ s
    exact ⟨_, hans⟩
  | removed =>
    cases Memory.read s.cur.storage (removeSlot s.cur) with
    | none =>
      obtain ⟨_, _, hans, _⟩ := respondDraw_spec (s.setCur s.cur.pop)
      exact ⟨_, hans⟩
    | some b =>
      obtain ⟨_, _, hans, _⟩ := respond_spec (some b) (s.setCur s.cur.pop)
      exact ⟨b, hans⟩

theorem transact_answers {k : InstName} {a : Agent} {i : Instr} {s t : State} (hi : respKind i ≠ .none)
    (h : transact k a (encode i) s = .next t) : ∃ v, t.resp k a = some v := by
  rw [(transact_cur h).2.2]
  rw [transact_of_decode s (decode_encode i)] at h
  exact exec_answers hi h

/-- What the transmit-ready context does with a byte found, in front of program `p`. -/
def sendThen (p : Prog) : Prog := lineOf .outbound .consumer .remove (some 1) (.transmit 1 p)

/-- What it does with the answer to its query, in front of program `p`. -/
def decideThen (p : Prog) : Prog := .ifThen (.var 0) (.disarmTx .done) txSending p

theorem setProg_setProg (s : State) (c : Context) (p q : Prog) : (s.setProg c p).setProg c q = s.setProg c q := by
  simp [State.setProg, State.setCtx, State.ctx]

/-- A context's step writes no schedule and no wiring. -/
theorem runContext_frame {c : Context} {s t : State} (h : runContext c s = .next t) :
    t.schedule = s.schedule ∧ t.wiring = s.wiring := by
  rcases runContext_cases h with ⟨k, a, w, x, rest, u, _, _, hu, rfl⟩ | hl
  · have hl : LocalTo c u (settle c (bindResponse c x (u.resp k a) u)) :=
      (bindResponse_local c x _ u).trans (settle_local c _)
    exact ⟨hl.schedule.trans (transact_same hu).schedule, hl.wiring.trans (transact_same hu).wiring⟩
  · exact ⟨hl.schedule, hl.wiring⟩

/-- The step of the transmit-ready context at a line that binds its response to `x`: the transaction is answered with a
byte `v`, and from state `b`, in which that is bound, local actions follow. -/
theorem runContext_boundLine {s : State} {i : Instr} {x : Var} {rest : Prog} (hi : respKind i ≠ .none)
    (hp : s.tx.prog = lineOf .outbound .consumer i (some x) rest)
    (hh : s.wiring.holds .tx .outbound .consumer = true) :
    ∃ b v, (∃ u, transact .outbound .consumer (encode i) (s.setProg .tx rest) = .next u ∧
        u.resp .outbound .consumer = some v ∧ b.outbound = u.outbound) ∧
      b.tx = ⟨bindVar s.tx.env x (some v), rest⟩ ∧ b.txArmed = s.txArmed ∧ b.wire = s.wire ∧
      runContext .tx s = .next (settle .tx b) := by
  obtain ⟨u, hu⟩ := transact_next .outbound .consumer (encode i) (s.setProg .tx rest)
  obtain ⟨v, hv⟩ := transact_answers hi hu
  have hctx : u.ctx .tx = ⟨s.tx.env, rest⟩ := by rw [transact_ctx hu, ctx_setProg_same]
  refine ⟨bindResponse .tx (some x) (some v) u, v, ⟨u, hu, hv, rfl⟩, ?_, ?_, ?_, ?_⟩
  · rw [State.tx, ctx_bindResponse_same, hctx]; rfl
  · exact (transact_same hu).txArmed
  · exact (transact_same hu).wire
  · rw [runContext_command hp hh, hu, afterTransaction, hv]

section handler
variable {s : State} {p : Prog} {v : Byte} (hstop : stopsHere p = true)
include hstop

/-- What the answer to the query decides. -/
theorem settle_decideThen (hp : s.tx.prog = decideThen p) (hv : lookupVar s.tx.env 0 = some v) :
    settle .tx s =
      if respFlag v = true then (s.setProg .tx p).setArmed false else s.setProg .tx (sendThen p) := by
  have he : evalExpr (s.ctx .tx).env (.var 0) = some (respFlag v) := by rw [evalExpr, hv]
  rw [settle_ifThen hp he]
  split
  · rw [settle_disarmTx (r := p) (by rw [ctx_setProg_same]; rfl), setProg_setProg]
    exact settle_stop (by rw [ctx_setArmed, ctx_setProg_same]; exact hstop)
  · exact settle_stop (by rw [ctx_setProg_same]; rfl)

theorem settle_transmit_stop (hp : s.tx.prog = .transmit 1 p) (hv : lookupVar s.tx.env 1 = some v) :
    settle .tx s = (s.setProg .tx p).setWire (s.wire ++ [v]) := by
  rw [settle_transmit hp hv]
  exact settle_stop (by rw [ctx_setWire, ctx_setProg_same]; exact hstop)

variable (hh : s.wiring.holds .tx .outbound .consumer = true)
include hh

/-- The handler's query: it disarms where the answer is 1 and else goes on to send; in an initialised block the answer
is the flag. -/
theorem runContext_txHandler (hp : s.tx.prog = appendProg txHandler p) :
    ∃ t v, runContext .tx s = .next t ∧ t.tx.prog = (if respFlag v = true then p else sendThen p) ∧
      t.txArmed = (s.txArmed && !respFlag v) ∧ t.wire = s.wire ∧
      (s.outbound.initDone = true → respFlag v = emptyFlag s.outbound ∧ t.outbound = s.outbound) := by
  obtain ⟨b, v, ⟨u, hu, hv, hout⟩, hctx, harmed, hwire, hrun⟩ :=
    runContext_boundLine (i := .isEmpty) (rest := decideThen p) nofun hp hh
  have hanswer : s.outbound.initDone = true → respFlag v = emptyFlag s.outbound ∧ b.outbound = s.outbound := by
    intro hd
    obtain ⟨u', hu', hblock, _, hresp⟩ := transact_query (s := s.setProg .tx (decideThen p)) (.inl rfl) (.inr rfl) hd
    obtain rfl : u = u' := Host.Outcome.next.inj (hu.symm.trans hu')
    rw [hv, queryAnswer_isEmpty] at hresp
    exact ⟨by rw [Option.some.inj hresp, respFlag_flagResp]; rfl, hout.trans hblock⟩
  rw [settle_decideThen (v := v) hstop (by rw [hctx]) (by rw [hctx, lookupVar_bindVar])] at hrun
  refine ⟨_, v, hrun, ?_⟩
  split
  · next hf =>
    rw [hf] at hanswer ⊢
    exact ⟨by rw [State.tx, ctx_setArmed, ctx_setProg_same], (Bool.and_false _).symm, hwire, hanswer⟩
  · next hf =>
    rw [Bool.eq_false_of_not_eq_true hf] at hanswer ⊢
    exact ⟨by rw [State.tx, ctx_setProg_same], harmed.trans (Bool.and_true _).symm, hwire, hanswer⟩

/-- Its sending: what REMOVE answers is handed to the wire; in an initialised block that is not empty it is the oldest
byte, and the block is without it. -/
theorem runContext_sendThen (hp : s.tx.prog = sendThen p) :
    ∃ t v, runContext .tx s = .next t ∧ t.tx.prog = p ∧ t.txArmed = s.txArmed ∧ t.wire = s.wire ++ [v] ∧
      (s.outbound.initDone = true → ∀ c l, s.outbound.contents = some c :: l →
        v = c ∧ t.outbound.contents = l ∧ t.outbound.faults = s.outbound.faults) := by
  obtain ⟨b, v, ⟨u, hu, hv, hout⟩, hctx, harmed, hwire, hrun⟩ := runContext_boundLine (i := .remove) nofun hp hh
  rw [settle_transmit_stop (v := v) hstop (by rw [hctx]) (by rw [hctx, lookupVar_bindVar])] at hrun
  refine ⟨_, v, hrun, by rw [State.tx, ctx_setWire, ctx_setProg_same], harmed, congrArg (· ++ [v]) hwire,
    fun hd c l hl => ?_⟩
  obtain ⟨u', hu', hcontents, hresp⟩ := transact_remove (s := s.setProg .tx (.transmit 1 p)) hd hl
  obtain ⟨u'', hu'', hpop⟩ := transact_remove_pop (s := s.setProg .tx (.transmit 1 p)) (decode_encode .remove) hd
    (count_ne_zero_of_contents hl)
  obtain rfl : u = u' := Host.Outcome.next.inj (hu.symm.trans hu')
  obtain rfl : u = u'' := Host.Outcome.next.inj (hu.symm.trans hu'')
  refine ⟨Option.some.inj (hv.symm.trans hresp), (congrArg Block.contents hout).trans hcontents, ?_⟩
  exact (congrArg Block.faults hout).trans (by rw [State.outbound, hpop]; rfl)

end handler

/-! ### No byte is stranded (70_reset_and_hazards.md R130) -/

theorem HandlerRest.stopsHere {p : Prog} (h : HandlerRest p) : stopsHere p = true := by
  cases h <;> rfl

/-- A byte in the initialised outbound block has the notification armed, or the Control Loop about to arm it. -/
def Covered (s : State) : Prop :=
  s.outbound.HoldsByte → s.txArmed = true ∨ startsWithRearm s.loop.prog = true

theorem covered_iff (s : State) : Covered s ↔ (s.outbound.initDone = true →
    s.outbound.count.val = 0 ∨ s.txArmed = true ∨ startsWithRearm s.loop.prog = true) := by
  unfold Covered Block.HoldsByte
  tauto

/-- The invariant, with its last clause by name. -/
structure Guarded (s : State) : Prop where
  loop    : s.wiring.holds .loop .outbound .producer = true
  tx      : s.wiring.holds .tx .outbound .consumer = true
  rearms  : ∀ c, c ≠ .tx → rearmsEveryWrite (s.ctx c).prog = true
  handler : HandlerRest s.tx.prog
  covered : Covered s

theorem noStrandedByte_iff (s : State) : NoStrandedByte s ↔ Guarded s := by
  unfold NoStrandedByte
  rw [← covered_iff]
  exact ⟨fun ⟨h1, h2, h3, h4, h5⟩ => ⟨h1, h2, h3, h4, h5⟩, fun ⟨h1, h2, h3, h4, h5⟩ => ⟨h1, h2, h3, h4, h5⟩⟩

theorem stopsHere_of_startsWithRearm {p : Prog} (h : startsWithRearm p = true) : stopsHere p = true := by
  cases p with
  | rearmTx r => rfl
  | done | command | ifThen | whileDo | assign | disarmTx | transmit => cases h

theorem runContext_done {c : Context} {s : State} (hp : (s.ctx c).prog = .done) : runContext c s = .next s := by
  rw [runContext, hp]

/-- The step of any context but the transmit-ready one leaves a byte covered: if its own INSERT put it there, it is the
Control Loop and re-arms next; and none of its steps disarms. -/
theorem Guarded.covered_runContext {c : Context} {s t : State} (hs : Guarded s) (hc : c ≠ .tx)
    (h : runContext c s = .next t) : Covered t := by
  have hrearms := hs.rearms c hc
  have harmed := runContext_txArmed (neverDisarms_of_rearmsEveryWrite hrearms) h
  intro hb
  rcases runContext_holdsByte h hb with hb | ⟨w, x, rest, hp, hw, hh⟩
  · rcases hs.covered hb with ha | hl
    · left; rw [harmed, ha, Bool.true_or]
    · by_cases hcl : c = .loop
      · subst hcl; left; rw [harmed, hl, Bool.or_true]
      · right; rw [State.loop, runContext_ctx_ne (Ne.symm hcl) h]; exact hl
  · obtain rfl : c = .loop := holds_unique hs.loop hh
    right
    have hnext : startsWithRearm rest = true := by
      rw [hp, rearmsEveryWrite, Bool.and_eq_true, hw] at hrearms
      exact hrearms.1
    rw [State.loop, runContext_command_prog hp hh (stopsHere_of_startsWithRearm hnext) h]
    exact hnext

/-- So do the steps of the transmit-ready context: its query disarms only where it finds the block empty. -/
theorem Guarded.handler_runContext {s t : State} (hs : Guarded s) (h : runContext .tx s = .next t) :
    HandlerRest t.tx.prog ∧ (s.outbound.HoldsByte → t.txArmed = s.txArmed) := by
  generalize hq : s.tx.prog = q
  cases hq ▸ hs.handler with
  | done =>
    rw [runContext_done hq] at h
    cases h
    exact ⟨hs.handler, fun _ => rfl⟩
  | handler p hrest =>
    obtain ⟨t', v, ht', hprog, harmed, _, hblock⟩ := runContext_txHandler hrest.stopsHere hs.tx hq
    obtain rfl : t = t' := Host.Outcome.next.inj (h.symm.trans ht')
    refine ⟨?_, fun hb => ?_⟩
    · rw [hprog]
      split
      · exact hrest
      · exact .sending p hrest
    · have hflag : respFlag v = false := (hblock hb.1).1.trans ((emptyFlag_false_iff _).mpr hb.2)
      rw [harmed, hflag, Bool.not_false, Bool.and_true]
  | sending p hrest =>
    obtain ⟨t', v, ht', hprog, harmed, _⟩ := runContext_sendThen hrest.stopsHere hs.tx hq
    obtain rfl : t = t' := Host.Outcome.next.inj (h.symm.trans ht')
    exact ⟨hprog ▸ hrest, fun _ => harmed⟩

theorem Guarded.covered_runContext_tx {s t : State} (hs : Guarded s) (h : runContext .tx s = .next t) :
    Covered t := by
  intro hb
  rcases runContext_holdsByte h hb with hb | ⟨_, _, _, _, _, hh⟩
  · rw [(hs.handler_runContext h).2 hb, State.loop, runContext_ctx_ne (c := .tx) (d := .loop) nofun h]
    exact hs.covered hb
  · exact absurd (holds_unique hs.loop hh) nofun

theorem Guarded.runContext {c : Context} {s t : State} (hs : Guarded s) (h : runContext c s = .next t) :
    Guarded t := by
  obtain ⟨_, hwiring⟩ := runContext_frame h
  refine ⟨hwiring ▸ hs.loop, hwiring ▸ hs.tx, fun d hd => rearmsEveryWrite_kept.runContext h (hs.rearms d hd), ?_, ?_⟩
  · by_cases hc : c = .tx
    · subst hc; exact (hs.handler_runContext h).1
    · rw [State.tx, runContext_ctx_ne (Ne.symm hc) h]; exact hs.handler
  · by_cases hc : c = .tx
    · subst hc; exact hs.covered_runContext_tx h
    · exact hs.covered_runContext hc h

/-- The turn starts at most one whole handler, and only where none is under way. -/
theorem Guarded.turn {s : State} (hs : Guarded s) : Guarded s.turn := by
  obtain ⟨hsame, harmed⟩ := turn_frame s
  have hcovered : s.turn.ctx .loop = s.ctx .loop → Covered s.turn := fun hl => by
    rw [Covered, State.outbound, hsame.block, harmed, State.loop, hl]
    exact hs.covered
  rcases turn_ctx_cases s with hctx | ⟨_, _, _, htx, hctx⟩
  · exact ⟨hsame.wiring ▸ hs.loop, hsame.wiring ▸ hs.tx, fun c hc => hctx c ▸ hs.rearms c hc,
      by rw [State.tx, hctx]; exact hs.handler, hcovered (hctx _)⟩
  · exact ⟨hsame.wiring ▸ hs.loop, hsame.wiring ▸ hs.tx, fun c hc => hctx c hc ▸ hs.rearms c hc,
      by rw [htx]; exact .handler .done .done, hcovered (hctx _ nofun)⟩

/-- Queuing a handler writes it behind the program of its context and leaves every other program. -/
theorem prog_queue (s : State) (c d : Context) (p : Prog) :
    ((s.queue c p).ctx d).prog = if d = c then appendProg (s.ctx d).prog p else (s.ctx d).prog := by
  split
  · next h => rw [h, State.queue, ctx_setProg_same]
  · next h => rw [State.queue, ctx_setProg_ne _ _ h]

/-- The byte-received handler has no outbound command. -/
theorem Guarded.queue {s : State} (hs : Guarded s) (b : Byte) : Guarded (s.queue .rx (rxHandler b)) := by
  refine ⟨hs.loop, hs.tx, fun c hc => ?_, ?_, ?_⟩
  · rw [prog_queue]
    split
    · exact rearmsEveryWrite_append (hs.rearms c hc) rfl
    · exact hs.rearms c hc
  · rw [State.tx, prog_queue, if_neg (by decide)]; exact hs.handler
  · rw [Covered, State.loop, prog_queue, if_neg (by decide)]; exact hs.covered

/-- Settles O49: the context that goes next, a byte received and a turn alike keep the invariant. -/
theorem noByteIsStranded : Obligations.NoByteIsStranded := by
  intro s t hs h
  rw [noStrandedByte_iff] at hs ⊢
  cases step_turnTaken h with
  | ended => exact hs
  | ran c _ hrun => exact hs.turn.runContext hrun
  | received b => exact hs.turn.queue b
  | ignored => exact hs.turn

/-! ### Commands on ports that a context does not hold (60_exceptions.md R111; 70_reset_and_hazards.md R125) -/

/-- A context's step is refused exactly where its next command is on a port it does not hold. -/
theorem runContext_refused_iff (c : Context) (s : State) (r : Refusal) :
    runContext c s = .refused r ↔ r = .roleNotHeld ∧ ∃ k a w x rest,
      (s.ctx c).prog = .command k a w x rest ∧ s.wiring.holds c k a = false := by
  unfold runContext
  cases hp : (s.ctx c).prog with
  | command k a w x rest =>
    obtain ⟨t, ht⟩ := transact_next k a w (s.setProg c rest)
    cases hh : s.wiring.holds c k a with
    | true => simp [ht, hh, afterTransaction]
    | false => simpa [hh] using eq_comm
  | done | rearmTx | disarmTx => simp
  | ifThen e | assign _ e => cases he : evalExpr (s.ctx c).env e <;> simp [he]
  | whileDo e => rcases he : evalExpr (s.ctx c).env e with _ | _ | _ <;> simp [he]
  | transmit x => cases he : lookupVar (s.ctx c).env x <;> simp [he]

/-- A command that is not refused is on a port that the context holds. -/
theorem holds_of_runContext {c : Context} {k : InstName} {a : Agent} {w : Cmd} {x : Option Var} {rest : Prog}
    {s t : State} (hp : (s.ctx c).prog = .command k a w x rest) (h : runContext c s = .next t) :
    s.wiring.holds c k a = true := by
  by_contra hh
  have hr := (runContext_refused_iff c s .roleNotHeld).mpr
    ⟨rfl, k, a, w, x, rest, hp, Bool.eq_false_of_not_eq_true hh⟩
  cases hr.symm.trans h

/-- Settles O42: a step that is refused is the step of the context that goes next. -/
theorem sharedRolesAreRefused : Obligations.SharedRolesAreRefused := by
  refine ⟨fun s c k a w x rest hm hp hh => ?_, fun s r h => ?_⟩
  · rw [step_mover hm (by rw [hp]; exact Prog.noConfusion)]
    exact (runContext_refused_iff c s.turn _).mpr ⟨rfl, k, a, w, x, rest, hp, wiring_turn s ▸ hh⟩
  · obtain ⟨c, hm, hc⟩ := step_of_not_next (s := s) fun t ht => nomatch h.symm.trans ht
    obtain ⟨hr, k, a, w, x, rest, hp, hh⟩ := (runContext_refused_iff c s.turn r).mp (hc.symm.trans h)
    exact ⟨hr, c, k, a, w, x, rest, hm, hp, wiring_turn s ▸ hh⟩

/-! ### Programs that keep to the ports of their contexts (60_exceptions.md R111) -/

/-- The handlers' commands are on one port each. -/
theorem txHandler_onHeldPorts {y : Wiring} (h : y.holds .tx .outbound .consumer = true) :
    txHandler.onHeldPorts y .tx = true := by
  simp [txHandler, txSending, lineOf, Prog.onHeldPorts, h]

theorem rxHandler_onHeldPorts {y : Wiring} (b : Byte) (h : y.holds .rx .inbound .producer = true) :
    (rxHandler b).onHeldPorts y .rx = true := by
  simp [rxHandler, expand, lineOf, Prog.onHeldPorts, h]

/-- The turn keeps to held ports where the transmit-ready handler does, or where it is not started. -/
theorem State.onHeldPorts.turn {s : State} (hs : s.onHeldPorts)
    (htx : s.wiring.holds .tx .outbound .consumer = true ∨ ∀ rest, s.schedule ≠ .transmitReady :: rest) :
    s.turn.onHeldPorts := by
  intro c
  rw [wiring_turn]
  rcases turn_ctx_cases s with hctx | ⟨⟨rest, hsched⟩, _, _, hprog, hctx⟩
  · rw [hctx]; exact hs c
  · by_cases hc : c = .tx
    · subst hc
      have hh := htx.resolve_right fun h => h rest hsched
      exact hprog ▸ txHandler_onHeldPorts hh
    · rw [hctx c hc]; exact hs c

/-- A context that keeps to the ports it holds is not refused. -/
theorem State.onHeldPorts.not_refused {c : Context} {s : State} {r : Refusal} (hs : s.onHeldPorts) :
    runContext c s ≠ .refused r := by
  intro h
  obtain ⟨_, k, a, w, x, rest, hp, hh⟩ := (runContext_refused_iff c s r).mp h
  have hc := hs c
  rw [hp, Prog.onHeldPorts, hh] at hc
  cases hc

theorem State.onHeldPorts.runContext {c : Context} {s t : State} (hs : s.onHeldPorts)
    (h : runContext c s = .next t) : t.onHeldPorts := by
  intro d
  rw [(runContext_frame h).2]
  exact (onHeldPorts_kept s.wiring d).runContext h (hs d)

theorem State.onHeldPorts.queue {c : Context} {p : Prog} {s : State} (hs : s.onHeldPorts)
    (hp : p.onHeldPorts s.wiring c = true) : (s.queue c p).onHeldPorts := by
  intro d
  show ((s.queue c p).ctx d).prog.onHeldPorts s.wiring d = true
  rw [prog_queue]
  split
  · next hd => rw [onHeldPorts_append, hs d, hd, hp]; rfl
  · exact hs d

/-- A notification that comes next is one to come. -/
theorem schedule_ne_of_quiet {s : State} (hq : ∀ m ∈ s.schedule, isNotification m = false) {m : Move}
    (hm : isNotification m = true) (rest : List Move) : s.schedule ≠ m :: rest := by
  intro hs
  have := hq m (by rw [hs]; exact List.mem_cons_self)
  rw [hm] at this
  cases this

/-- Settles O43: the turn, a context's step and a queued handler each keep to held ports. -/
theorem heldPortsAreKept : Obligations.HeldPortsAreKept := by
  refine fun s hs => ⟨fun htx r h => ?_, fun hwired t h => ?_⟩
  · obtain ⟨c, _, hc⟩ := step_of_not_next (s := s) fun t ht => nomatch h.symm.trans ht
    exact (hs.turn htx).not_refused (hc.symm.trans h)
  · have hturn : s.turn.onHeldPorts :=
      hs.turn (hwired.imp (fun hw => hw.2) fun hq => schedule_ne_of_quiet hq rfl)
    cases step_turnTaken h with
    | ended => exact hs
    | ran c _ hrun => exact hturn.runContext hrun
    | received b rest hsched =>
      obtain ⟨hrx, _⟩ := hwired.resolve_right fun hq => schedule_ne_of_quiet hq rfl rest hsched
      exact hturn.queue (wiring_turn s ▸ rxHandler_onHeldPorts b hrx)
    | ignored => exact hturn

/-! ### The transmit-ready notification (60_exceptions.md R115, R116) -/

/-- A transmit-ready that is raised is the handler's query. -/
theorem step_raised {s : State} {moves : List Move} (hs : s.schedule = .transmitReady :: moves)
    (ha : s.txArmed = true) (hp : s.tx.prog = .done) (hh : s.wiring.holds .tx .outbound .consumer = true) :
    ∃ t v, step s = .next t ∧ t.schedule = moves ∧ t.wiring = s.wiring ∧
      t.tx.prog = (if respFlag v = true then .done else txSending) ∧ t.txArmed = !respFlag v ∧ t.wire = s.wire ∧
      (s.outbound.initDone = true → respFlag v = emptyFlag s.outbound ∧ t.outbound = s.outbound) := by
  have hr : s.txReady = true := (txReady_iff s).mpr ⟨ha, hp⟩
  obtain ⟨t, v, hrun, hprog, harmed, hrest⟩ :=
    runContext_txHandler (s := (s.setSchedule moves).setProg .tx txHandler) (p := .done) rfl hh
      (by rw [State.tx, ctx_setProg_same, appendProg_done])
  obtain ⟨hschedule, hwiring⟩ := runContext_frame hrun
  have harmed : t.txArmed = (s.txArmed && !respFlag v) := harmed
  rw [ha, Bool.true_and] at harmed
  exact ⟨t, v, (step_ready hs hr).trans hrun, hschedule, hwiring, hprog, harmed, hrest⟩

/-- Settles O45: the query's flag decides whether the handler disarms at once or sends in its next step. -/
theorem transmitReadySendsOrDisarms : Obligations.TransmitReadySendsOrDisarms := by
  refine ⟨fun s moves hs hno => ?_, fun s moves hs ha hp hh hd h0 => ?_,
    fun s moves v rest hs ha hp hh hd hc => ?_⟩
  · refine step_not_ready hs (Bool.eq_false_of_not_eq_true fun hr => ?_)
    obtain ⟨ha, hp⟩ := (txReady_iff s).mp hr
    exact hno.elim (fun h => by rw [ha] at h; cases h) fun h => h hp
  · obtain ⟨t, f, ht, _, _, hprog, harmed, hwire, hblock⟩ := step_raised hs ha hp hh
    obtain ⟨hflag, hout⟩ := hblock hd
    rw [hflag, (emptyFlag_iff _).mpr h0] at hprog harmed
    exact ⟨t, ht, harmed, hprog, hwire, hout⟩
  · obtain ⟨t, f, ht, hschedule, hwiring, hprog, harmed, hwire, hblock⟩ := step_raised hs ha hp hh
    obtain ⟨hflag, hout⟩ := hblock hd
    rw [hflag, (emptyFlag_false_iff _).mpr (count_ne_zero_of_contents hc)] at hprog harmed
    have hsend : t.tx.prog = sendThen .done := hprog
    obtain ⟨u, b, hu, huprog, huarmed, huwire, hublock⟩ :=
      runContext_sendThen (s := t.setSchedule moves) (p := .done) rfl (hwiring ▸ hh) hsend
    obtain ⟨rfl, hcontents, hfaults⟩ := hublock (hout ▸ hd) v rest (hout ▸ hc)
    have hstep : step t = .next u := (step_run hschedule (by rw [hsend]; exact Prog.noConfusion)).trans hu
    exact ⟨t, u, ht, hstep, huwire.trans (congrArg (· ++ [b]) hwire), huarmed.trans harmed, huprog, hcontents,
      hfaults.trans (congrArg Block.faults hout)⟩

/-! ### The handler runs only while the notification is armed (60_exceptions.md R115, R116) -/

/-- Where the transmit-ready context may be between two steps, and in the turn that starts its handler: with a handler
left the notification is armed. -/
def ArmedInHandler (s : State) : Prop :=
  s.tx.prog = .done ∨ (s.tx.prog = txHandler ∨ s.tx.prog = txSending) ∧ s.txArmed = true

/-- The turn starts a handler only with the notification armed, and then the transmit-ready context goes next. -/
theorem HandlerIsArmed.turn {s : State} (h : HandlerIsArmed s) :
    (∀ c, c ≠ .tx → neverDisarms (s.turn.ctx c).prog = true) ∧ ArmedInHandler s.turn ∧
      (s.mover = some .tx ∨ s.turn.tx.prog ≠ txHandler) := by
  obtain ⟨hnever, hplace⟩ := h
  rw [ArmedInHandler, (turn_frame s).2]
  rcases turn_ctx_cases s with hctx | ⟨_, hr, hm, hprog, hctx⟩
  · have htx : s.turn.tx = s.tx := hctx .tx
    refine ⟨fun c hc => hctx c ▸ hnever c hc, ?_, .inr ?_⟩ <;> rw [htx]
    · exact hplace.imp_right fun hp => ⟨.inr hp.1, hp.2⟩
    · rcases hplace with hp | ⟨hp, _⟩ <;> rw [hp] <;> decide
  · exact ⟨fun c hc => hctx c hc ▸ hnever c hc, .inr ⟨.inl hprog, ((txReady_iff s).mp hr).1⟩, .inl hm⟩

/-- A step of the transmit-ready context ends its handler, or leaves it to send with the notification armed. -/
theorem ArmedInHandler.runContext_tx {s t : State} (hs : ArmedInHandler s) (h : runContext .tx s = .next t) :
    t.tx.prog = .done ∨ t.tx.prog = txSending ∧ t.txArmed = true := by
  rcases hs with hp | ⟨hp | hp, ha⟩
  · rw [runContext_done hp] at h
    cases h
    exact .inl hp
  · obtain ⟨t', v, ht', hprog, harmed, _⟩ :=
      runContext_txHandler (p := .done) rfl (holds_of_runContext hp h) (by rw [hp, appendProg_done])
    obtain rfl : t = t' := Host.Outcome.next.inj (h.symm.trans ht')
    rw [ha, Bool.true_and] at harmed
    cases hf : respFlag v <;> rw [hf] at hprog harmed
    · exact .inr ⟨hprog, harmed⟩
    · exact .inl hprog
  · obtain ⟨t', v, ht', hprog, _⟩ := runContext_sendThen (p := .done) rfl (holds_of_runContext hp h) hp
    obtain rfl : t = t' := Host.Outcome.next.inj (h.symm.trans ht')
    exact .inl hprog

/-- Any context's step keeps the invariant, the first step of the handler included. -/
theorem ArmedInHandler.runContext {c : Context} {s t : State} (hs : ArmedInHandler s)
    (hnever : ∀ d, d ≠ .tx → neverDisarms (s.ctx d).prog = true) (hc : c = .tx ∨ s.tx.prog ≠ txHandler)
    (h : runContext c s = .next t) : HandlerIsArmed t := by
  refine ⟨fun d hd => neverDisarms_kept.runContext h (hnever d hd), ?_⟩
  by_cases htx : c = .tx
  · subst htx
    exact hs.runContext_tx h
  · rw [runContext_txArmed (hnever c htx) h, State.tx, runContext_ctx_ne (Ne.symm htx) h]
    refine hs.imp_right fun ⟨hp, ha⟩ => ⟨hp.resolve_left (hc.resolve_left htx), ?_⟩
    rw [ha, Bool.true_or]

/-- The byte-received handler never disarms. -/
theorem HandlerIsArmed.queue {s : State} (hs : HandlerIsArmed s) (b : Byte) :
    HandlerIsArmed (s.queue .rx (rxHandler b)) := by
  obtain ⟨hnever, hplace⟩ := hs
  refine ⟨fun c hc => ?_, ?_⟩
  · rw [prog_queue]
    split
    · rw [neverDisarms_append, hnever c hc]; rfl
    · exact hnever c hc
  · rw [State.tx, prog_queue, if_neg (by decide)]; exact hplace

/-- At power-on every name of a context reads as an idle one. -/
theorem powerOn_ctx (y : System) (c : Context) : (State.powerOn y).ctx c = .idle := by
  rcases entryAt_cases CtxState.idle c (State.powerOn y).ctxs with hm | ⟨_, he⟩
  · obtain ⟨d, _, hd⟩ := List.mem_map.mp hm
    exact (Prod.mk.inj hd).2.symm
  · exact he

/-- Settles O58: at reset nothing runs; the context that goes next and a byte received keep the invariant; and the turn
has the notification armed wherever the transmit-ready context has an action left. -/
theorem handlerRunsOnlyWhileArmed : Obligations.HandlerRunsOnlyWhileArmed := by
  refine ⟨⟨fun c _ => ?_, .inl ?_⟩, fun s t hs h => ?_, fun s hs _ hp => ?_⟩
  · rw [State.reset, powerOn_ctx]; rfl
  · rw [State.reset, State.tx, powerOn_ctx]; rfl
  · obtain ⟨hnever, harmed, hc⟩ := hs.turn
    cases step_turnTaken h with
    | ended => exact hs
    | ran c hm hrun =>
      exact harmed.runContext hnever (hc.imp_left fun e => Option.some.inj (hm.symm.trans e)) hrun
    | received b rest hsched =>
      rw [turn_received hsched]
      exact HandlerIsArmed.queue (s := s.setSchedule rest) hs b
    | ignored rest hsched hr => rw [turn_not_ready hsched hr]; exact hs
  · obtain ⟨_, harmed, _⟩ := hs.turn
    rw [ArmedInHandler, (turn_frame s).2] at harmed
    exact (harmed.resolve_left hp).2

end Sys2Proof.Machine
end

section
/-! PROOFS of the family 70_reset_and_hazards.md: the pre-checks of the callers, the two handlers, and the end of a
run. -/

namespace Sys2Proof.Machine

/-! ### What a query tells (70_reset_and_hazards.md R126) -/

theorem queryAnswer_isFull_zero_iff (n c : Nat) : queryAnswer .isFull n c = some 0x00#8 ↔ n ≠ c := by
  by_cases h : n = c <;> simp [queryAnswer, h]

theorem queryAnswer_isEmpty_zero_iff (n c : Nat) : queryAnswer .isEmpty n c = some 0x00#8 ↔ n ≠ 0 := by
  by_cases h : n = 0 <;> simp [queryAnswer, h]

/-- Any word of a query, on an initialised block: it leaves the block and answers for its count. -/
theorem transact_query_answers {k : InstName} {q : Instr} {a : Agent} {w : Cmd} {s : State}
    (hq : q = .isEmpty ∨ q = .isFull) (ha : a = .producer ∨ a = .consumer) (hd : (s.block k).initDone = true)
    (hw : decode w = .op q) :
    ∃ t, transact k a w s = .next t ∧ t.block k = s.block k ∧
      t.resp k a = queryAnswer q (s.block k).count.val (s.block k).size := by
  obtain ⟨t, ht, _, hcur, hans, _⟩ := exec_query_spec (s := s.present k a w) hq ha hd
  have h := (transact_of_decode s hw).trans ht
  obtain ⟨_, hblock, hresp⟩ := transact_cur h
  exact ⟨t, h, hblock.trans hcur, hresp.trans hans⟩

/-! ### Callers that pre-check never fault (R126) -/

/-- Only what the role permits is dutiful, and an INSERT and a REMOVE only with their check made. -/
theorem dutiful_iff (p : PreChecks) (i : Instr) (a : Agent) : dutiful p i a = true ↔
    permitted i a = true ∧ (∀ b, i = .insert b → p.notFull = true) ∧ (i = .remove → p.notEmpty = true) := by
  cases i <;> simp [dutiful]

/-- What has been seen is true of the block: there is room where IS_FULL = 0 still counts, and a byte where
IS_EMPTY = 0 does. -/
structure PreChecks.TrueOf (p : PreChecks) (x : Block) : Prop where
  initDone : x.initDone = true
  notFull  : p.notFull = true → x.count.val ≠ x.size
  notEmpty : p.notEmpty = true → x.count.val ≠ 0

/-- The answer of a query adds nothing untrue to what has been seen. -/
theorem PreChecks.TrueOf.after_query {p : PreChecks} {q : Instr} {a : Agent} {x : Block} (h : p.TrueOf x)
    (hq : q = .isEmpty ∨ q = .isFull) (ha : a = .producer ∨ a = .consumer) :
    (p.after q a (queryAnswer q x.count.val x.size)).TrueOf x := by
  obtain ⟨hd, hfull, hempty⟩ := h
  rcases hq with rfl | rfl <;> rcases ha with rfl | rfl
  · exact ⟨hd, hfull, hempty⟩
  · refine ⟨hd, hfull, fun hseen => ?_⟩
    rcases Bool.or_eq_true_iff.mp hseen with hold | hnew
    · exact hempty hold
    · exact (queryAnswer_isEmpty_zero_iff _ _).mp (of_decide_eq_true hnew)
  · refine ⟨hd, fun hseen => ?_, hempty⟩
    rcases Bool.or_eq_true_iff.mp hseen with hold | hnew
    · exact hfull hold
    · exact (queryAnswer_isFull_zero_iff _ _).mp (of_decide_eq_true hnew)
  · exact ⟨hd, hfull, hempty⟩

/-- A dutiful operation on a block of which the checks are true: no fault, and true checks after it. -/
theorem PreChecks.TrueOf.transact {p : PreChecks} {k : InstName} {a : Agent} {w : Cmd} {i : Instr} {s : State}
    (h : p.TrueOf (s.block k)) (hw : decode w = .op i) (hp : dutiful p i a = true) :
    ∃ t, transact k a w s = .next t ∧ (t.block k).faults = (s.block k).faults ∧
      (p.after i a (t.resp k a)).TrueOf (t.block k) := by
  obtain ⟨hperm, hins, hrem⟩ := (dutiful_iff p i a).mp hp
  rcases (permitted_iff i a).mp hperm with ⟨rfl, rfl⟩ | ⟨hq, ha⟩ | ⟨⟨b, rfl⟩, rfl⟩ | ⟨rfl, rfl⟩
  · obtain ⟨t, ht, hblock⟩ := transact_init s hw
    refine ⟨t, ht, by rw [hblock]; rfl, ?_⟩
    rw [hblock]
    exact ⟨rfl, fun _ => (s.block k).cap.size_pos.ne, nofun⟩
  · obtain ⟨t, ht, hblock, hresp⟩ := transact_query_answers hq ha h.initDone hw
    refine ⟨t, ht, by rw [hblock], ?_⟩
    rw [hblock, hresp]
    exact h.after_query hq ha
  · obtain ⟨t, ht, hblock⟩ := transact_insert_push hw h.initDone (h.notFull (hins b rfl))
    refine ⟨t, ht, by rw [hblock]; rfl, ?_⟩
    rw [hblock]
    exact ⟨h.initDone, nofun, fun _ => Nat.succ_ne_zero _⟩
  · have h0 : (s.block k).count.val ≠ 0 := h.notEmpty (hrem rfl)
    obtain ⟨t, ht, hblock⟩ := transact_remove_pop hw h.initDone h0
    refine ⟨t, ht, by rw [hblock]; rfl, ?_⟩
    rw [hblock]
    have hroom : (s.block k).count.val - 1 < (s.block k).size :=
      (Nat.sub_one_lt h0).trans_le (s.block k).count_le_size
    exact ⟨h.initDone, fun _ => hroom.ne, nofun⟩

/-- A dutiful run from there completes and adds nothing to the log. -/
theorem PreChecks.TrueOf.runTxns {k : InstName} {ops : List Txn} {p : PreChecks} {s : State}
    (h : p.TrueOf (s.block k)) (hrun : dutifulRun k ops p s) :
    ∃ r, runTxns k ops s = some r ∧ (r.final.block k).faults = (s.block k).faults := by
  induction ops generalizing p s with
  | nil => exact ⟨⟨s, [], []⟩, rfl, rfl⟩
  | cons x rest ih =>
    obtain ⟨t, ht⟩ := transact_next x.inst x.agent x.word s
    simp only [dutifulRun, ht] at hrun
    by_cases hk : x.inst = k
    · subst hk
      cases hw : decode x.word with
      | invalid e => simp [hw] at hrun
      | op i =>
        simp only [hw, if_true] at hrun
        obtain ⟨hdut, hrest⟩ := hrun
        obtain ⟨t', ht', hf, htrue⟩ := h.transact hw hdut
        obtain rfl : t = t' := Host.Outcome.next.inj (ht.symm.trans ht')
        obtain ⟨r, hr, hfaults⟩ := ih htrue hrest
        exact ⟨_, runTxns_cons ht hr, hfaults.trans hf⟩
    · rw [if_neg hk] at hrun
      have hblock : t.block k = s.block k := transact_block_ne ht (Ne.symm hk)
      obtain ⟨r, hr, hfaults⟩ := ih (hblock ▸ h) hrun
      exact ⟨_, runTxns_cons ht hr, hfaults.trans (by rw [hblock])⟩

/-- Settles O40: along a dutiful run what the callers have seen stays true of the block. -/
theorem preCheckingCallersNeverFault : Obligations.PreCheckingCallersNeverFault := by
  intro k ops p s hd hfull hempty hrun
  have htrue : p.TrueOf (s.block k) := ⟨hd, fun h => (hfull h).ne, fun h => (hempty h).ne'⟩
  exact htrue.runTxns hrun

/-! ### How long a check stays valid (R127, R128) -/

/-- An initialised block that is not full. -/
def Block.HasRoom (x : Block) : Prop := x.initDone = true ∧ x.count.val ≠ x.size

/-- Only an INSERT of the Producer takes the last room. -/
theorem BlockStep.hasRoom {i : Instr} {a : Agent} {x y : Block} (h : BlockStep i a x y) (hx : x.HasRoom)
    (hno : ¬((∃ b, i = .insert b) ∧ a = .producer)) : y.HasRoom := by
  obtain ⟨hd, hC⟩ := hx
  cases h with
  | recorded | queried => exact ⟨hd, hC⟩
  | cleared => exact ⟨rfl, x.cap.size_pos.ne⟩
  | pushed b hi ha => exact absurd ⟨⟨b, hi⟩, ha⟩ hno
  | popped _ _ _ h0 => exact ⟨hd, ((Nat.sub_one_lt h0).trans_le x.count_le_size).ne⟩

/-- Only a REMOVE of the Consumer and an INIT of the Owner take the last byte. -/
theorem BlockStep.holdsByte_after {i : Instr} {a : Agent} {x y : Block} (h : BlockStep i a x y) (hx : x.HoldsByte)
    (hrem : ¬(a = .consumer ∧ i = .remove)) (hinit : ¬(a = .owner ∧ i = .init)) : y.HoldsByte := by
  obtain ⟨hd, h0⟩ := hx
  cases h with
  | recorded | queried => exact ⟨hd, h0⟩
  | cleared hi ha => exact absurd ⟨ha, hi⟩ hinit
  | pushed => exact ⟨hd, Nat.succ_ne_zero _⟩
  | popped hi ha => exact absurd ⟨ha, hi⟩ hrem

/-- What a record keeps of the block of an instance, and every operation that a run has there, the run keeps. -/
theorem runTxns_keeps_block {P : Block → Prop} {k : InstName} {ops : List Txn} {s : State}
    (hlog : ∀ y r, P y → P (y.log r))
    (hop : ∀ x ∈ ops, x.inst = k → ∀ i, decode x.word = .op i → ∀ y z, BlockStep i x.agent y z → P y → P z)
    (hs : P (s.block k)) : ∃ r, runTxns k ops s = some r ∧ P (r.final.block k) := by
  induction ops generalizing s with
  | nil => exact ⟨⟨s, [], []⟩, rfl, hs⟩
  | cons x rest ih =>
    obtain ⟨hx, hrest⟩ := List.forall_mem_cons.mp hop
    obtain ⟨t, ht⟩ := transact_next x.inst x.agent x.word s
    have hstep : P (t.block k) := by
      by_cases hk : x.inst = k
      · subst hk
        rcases transact_block ht with ⟨r, hr⟩ | ⟨i, hw, hb⟩
        · rw [hr]; exact hlog _ r hs
        · exact hx rfl i hw _ _ hb hs
      · rw [transact_block_ne ht (Ne.symm hk)]; exact hs
    obtain ⟨r, hr, hfinal⟩ := ih hrest hstep
    exact ⟨_, runTxns_cons ht hr, hfinal⟩

/-- Settles O38: the answer says that there is room, and only the Producer's INSERT takes the last of it. -/
theorem producersCheckStaysValid : Obligations.ProducersCheckStaysValid := by
  intro k w s t ops hd hw ht hresp hno
  obtain ⟨t', ht', hblock, hans⟩ := transact_query_answers (.inr rfl) (.inl rfl) hd hw
  obtain rfl : t = t' := Host.Outcome.next.inj (ht.symm.trans ht')
  have hroom : (t.block k).HasRoom := by
    rw [hblock]
    exact ⟨hd, (queryAnswer_isFull_zero_iff _ _).mp (hans.symm.trans hresp)⟩
  obtain ⟨r, hr, hdone, hC⟩ := runTxns_keeps_block (fun _ _ hy => hy)
    (fun x hx hk i hi _ _ hstep hy => hstep.hasRoom hy fun ⟨⟨b, hb⟩, ha⟩ => hno x hx ⟨hk, ha, b, hb ▸ hi⟩) hroom
  refine ⟨r, hr, (r.final.block k).count_le_size.lt_of_ne hC, fun b => ?_⟩
  obtain ⟨u, hu, hpush⟩ := transact_insert_push (decode_encode (.insert b)) hdone hC
  exact ⟨u, hu, by rw [hpush]; rfl⟩

/-- Settles O39: the answer says that a byte is held, and only the Consumer's REMOVE and an INIT take the last. -/
theorem consumersCheckStaysValidWithoutInit : Obligations.ConsumersCheckStaysValidWithoutInit := by
  intro k w s t ops hd hw ht hresp hnorem hnoinit
  obtain ⟨t', ht', hblock, hans⟩ := transact_query_answers (.inl rfl) (.inr rfl) hd hw
  obtain rfl : t = t' := Host.Outcome.next.inj (ht.symm.trans ht')
  have hbyte : (t.block k).HoldsByte := by
    rw [hblock]
    exact ⟨hd, (queryAnswer_isEmpty_zero_iff _ _).mp (hans.symm.trans hresp)⟩
  obtain ⟨r, hr, hdone, h0⟩ := runTxns_keeps_block (fun _ _ hy => hy)
    (fun x hx hk i hi _ _ hstep hy => hstep.holdsByte_after hy (fun ⟨ha, e⟩ => hnorem x hx ⟨hk, ha, e ▸ hi⟩)
      fun ⟨ha, e⟩ => hnoinit x hx ⟨hk, ha, e ▸ hi⟩) hbyte
  obtain ⟨u, hu, hpop⟩ := transact_remove_pop (decode_encode .remove) hdone h0
  exact ⟨r, hr, Nat.pos_of_ne_zero h0, u, hu, by rw [hpop]; rfl⟩

/-! ### The two handlers (R130, R131) -/

/-- Settles O50: the outbound block is uninitialised, no context has a program, and the roles are those of R111. -/
theorem powerOnStrandsNoByte : Obligations.PowerOnStrandsNoByte := by
  have hidle : ∀ c, State.reset.ctx c = .idle := powerOn_ctx _
  refine ⟨(holds_original_iff _ _ _).mpr (.inr ⟨rfl, rfl⟩), (holds_original_iff _ _ _).mpr (.inr ⟨rfl, rfl⟩),
    fun c _ => by rw [hidle]; rfl, ?_, nofun⟩
  rw [State.tx, hidle]
  exact .done

/-- Settles O51: each handler's commands are on its context's one port, and neither has a loop. -/
theorem handlersNeverPoll : Obligations.HandlersNeverPoll := by
  have hrx : State.reset.wiring.holds .rx .inbound .producer = true := (holds_original_iff _ _ _).mpr (.inl ⟨rfl, rfl⟩)
  have htx : State.reset.wiring.holds .tx .outbound .consumer = true :=
    (holds_original_iff _ _ _).mpr (.inr ⟨rfl, rfl⟩)
  exact ⟨fun b => by rw [Prog.wellFormed, rxHandler_onHeldPorts b hrx]; rfl,
    by rw [Prog.wellFormed, txHandler_onHeldPorts htx]; rfl⟩

/-! ### The end of a run (R134) -/

/-- Steps from the end of a run stay there. -/
theorem runFor_ended {s : State} (h : s.ended = true) (n : Nat) : runFor n s = .next s := by
  induction n with
  | zero => rfl
  | succ n ih => rw [runFor, step_ended h]; exact ih

/-- An entry of a table is still there after a write, or it was the one that the name written reads as. -/
theorem mem_setEntry_of_mem {κ α : Type} [DecidableEq κ] (d : α) {k : κ} (x : α) {l : List (κ × α)} {p : κ × α}
    (h : p ∈ l) : p ∈ setEntry k x l ∨ entryAt d k l = p.2 := by
  induction l with
  | nil => exact absurd h List.not_mem_nil
  | cons q rest ih =>
    simp only [setEntry, entryAt]
    by_cases hq : q.1 = k
    · rw [if_pos hq, if_pos hq]
      exact (List.mem_cons.mp h).symm.imp (List.mem_cons_of_mem _) fun e => by rw [e]
    · rw [if_neg hq, if_neg hq]
      rcases List.mem_cons.mp h with rfl | h
      · exact .inl List.mem_cons_self
      · exact (ih h).imp_left (List.mem_cons_of_mem q)

theorem good_eq_false_iff (s : State) : s.good = false ↔ ∃ p ∈ s.blocks, p.2.faults ≠ [] := by
  simp [State.good]

theorem Block.Keeps.faults_ne_nil {x y : Block} (h : x.Keeps y) (hx : x.faults ≠ []) : y.faults ≠ [] := by
  rcases h.faults with hf | ⟨r, hf⟩ <;> rw [hf]
  · exact hx
  · exact List.append_ne_nil_of_right_ne_nil _ (List.cons_ne_nil r [])

/-- A transaction leaves a record where there was one: in another entry, or in the log of its own block, which only
grows. -/
theorem transact_not_good {k : InstName} {a : Agent} {w : Cmd} {s t : State} (h : transact k a w s = .next t)
    (hs : s.good = false) : t.good = false := by
  rw [good_eq_false_iff] at hs ⊢
  obtain ⟨p, hp, hf⟩ := hs
  rcases (transact_tables h).1 with hb | hb <;> rw [hb]
  · exact ⟨p, hp, hf⟩
  · rcases mem_setEntry_of_mem (Block.powerOn k (Config.capacity k)) (t.block k) hp with hm | hcur
    · exact ⟨p, hm, hf⟩
    · have hx : (s.block k).faults ≠ [] := by rw [State.block, hcur]; exact hf
      exact ⟨_, setEntry_mem _ _ _, (transact_keeps h k).faults_ne_nil hx⟩

theorem SameSystem.good {s t : State} (h : SameSystem s t) : t.good = s.good := by
  rw [State.good, h.blocks]; rfl

theorem step_not_good {s t : State} (h : step s = .next t) (hs : s.good = false) : t.good = false := by
  cases step_systemStep h with
  | quiet hl => rw [hl.good, hs]
  | transacted _ before hu after => rw [after.good]; exact transact_not_good hu (before.good.trans hs)

theorem runFor_not_good {n : Nat} {s t : State} (hs : s.good = false) (h : runFor n s = .next t) :
    t.good = false := by
  induction n generalizing s with
  | zero => cases h; exact hs
  | succ n ih =>
    rw [runFor] at h
    cases hu : step s with
    | next u => rw [hu] at h; exact ih (step_not_good hu hs) h
    | fault f => rw [hu] at h; cases h
    | refused r => rw [hu] at h; cases h

/-- Settles O55: exec always gives a next state; the end is that of the programs; it stays; and a log only grows. -/
theorem runsEndWithTheirPrograms : Obligations.RunsEndWithTheirPrograms := by
  refine ⟨fun i s => ?_, fun s hs => ?_, fun s n h => ⟨((ended_iff s).mp h).1, runFor_ended h n⟩,
    fun n s t hs h => ?_⟩
  · obtain ⟨t, ht, _⟩ := exec_ran i s
    exact ⟨t, ht⟩
  · have hquiet : ∀ m ∈ s.schedule, isNotification m = false := fun m hm => by
      obtain ⟨c, rfl⟩ := hs m hm
      rfl
    exact (ended_iff s).trans (and_iff_left hquiet)
  · have ht : t.good = false := runFor_not_good hs h
    exact ⟨ht, by rw [State.endedWell, ht, Bool.and_false], fun he => by rw [State.endedBadly, he, ht]; rfl⟩

/-! ### Runs of programs without a loop (R134; log 19) -/

theorem loopFree_append (p q : Prog) : (appendProg p q).loopFree = (p.loopFree && q.loopFree) := by
  induction p <;> simp_all [appendProg, Prog.loopFree, Bool.and_assoc]

theorem loopFree_kept : KeptByActions fun p => p.loopFree = true := by
  constructor <;> simp_all [Prog.loopFree, loopFree_append]

/-- No local action makes the program larger. -/
theorem sizeProg_settle_le (c : Context) (s : State) :
    sizeProg ((settle c s).ctx c).prog ≤ sizeProg (s.ctx c).prog := by
  refine settleFuel_keeps (P := fun p => sizeProg p ≤ sizeProg (s.ctx c).prog) (fun e y n r h => ?_)
    (fun x e r h => ?_) (fun r h => ?_) (fun x r h => ?_) _ le_rfl
  · have hy := sizeProg_append y r
    have hn := sizeProg_append n r
    rw [sizeProg] at h
    omega
  all_goals rw [sizeProg] at h; omega

/-- Settling from a state whose program is that of `u` ends below what `u`'s program was. -/
theorem sizeProg_settle_lt {c : Context} {u : State} {p : Prog} {n : Nat} (hp : (u.ctx c).prog = p)
    (hn : sizeProg p < n) : sizeProg ((settle c u).ctx c).prog < n :=
  (hp ▸ sizeProg_settle_le c u).trans_lt hn

/-- A step of a context with a program left, and no loop in it, makes that program smaller. -/
theorem sizeProg_runContext_lt {c : Context} {s t : State} (hl : (s.ctx c).prog.loopFree = true)
    (hne : (s.ctx c).prog ≠ .done) (h : runContext c s = .next t) :
    sizeProg (t.ctx c).prog < sizeProg (s.ctx c).prog := by
  unfold runContext at h
  cases hp : (s.ctx c).prog with
  | done => exact absurd hp hne
  | whileDo => rw [hp] at hl; cases hl
  | command k a w x rest =>
    rw [hp] at h
    dsimp only at h
    split at h
    · obtain ⟨u, hu⟩ := transact_next k a w (s.setProg c rest)
      rw [hu] at h
      cases h
      refine sizeProg_settle_lt (p := rest) ?_ (Nat.lt_one_add_iff.mpr le_rfl)
      rw [prog_bindResponse, transact_ctx hu, ctx_setProg_same]
    · cases h
  | rearmTx rest =>
    rw [hp] at h
    cases h
    exact sizeProg_settle_lt (by rw [ctx_setArmed, ctx_setProg_same]) (Nat.lt_one_add_iff.mpr le_rfl)
  | disarmTx rest =>
    rw [hp] at h
    cases h
    rw [settle_disarmTx hp]
    exact sizeProg_settle_lt (by rw [ctx_setArmed, ctx_setProg_same]) (Nat.lt_one_add_iff.mpr le_rfl)
  | ifThen e yes no rest =>
    rw [hp] at h
    dsimp only at h
    split at h <;> cases h
    next b he =>
    rw [settle_ifThen hp he]
    refine sizeProg_settle_lt (by rw [ctx_setProg_same]) ?_
    have hy := sizeProg_append yes rest
    have hn := sizeProg_append no rest
    cases b <;> simp only [sizeProg, if_true, Bool.false_eq_true, if_false] <;> omega
  | assign x e rest =>
    rw [hp] at h
    dsimp only at h
    split at h <;> cases h
    next b he =>
    rw [settle_assign hp he]
    exact sizeProg_settle_lt (by rw [ctx_setEnv_same, ctx_setProg_same]) (Nat.lt_one_add_iff.mpr le_rfl)
  | transmit x rest =>
    rw [hp] at h
    dsimp only at h
    split at h <;> cases h
    next v hv =>
    rw [settle_transmit hp hv]
    exact sizeProg_settle_lt (by rw [ctx_setWire, ctx_setProg_same]) (Nat.lt_one_add_iff.mpr le_rfl)

/-- The sizes of the programs of some contexts, in all. -/
def sizeOver (K : Finset Context) (x : Context → CtxState) : Nat := ∑ c ∈ K, sizeProg (x c).prog

/-- Where one context of them changed, the sum changed by as much as its program did. -/
theorem sizeOver_write {K : Finset Context} {c : Context} {x y : Context → CtxState} (hc : c ∈ K)
    (hne : ∀ d, d ≠ c → y d = x d) :
    sizeOver K y + sizeProg (x c).prog = sizeOver K x + sizeProg (y c).prog := by
  have hrest : ∑ d ∈ K.erase c, sizeProg (y d).prog = ∑ d ∈ K.erase c, sizeProg (x d).prog :=
    Finset.sum_congr rfl fun d hd => by rw [hne d (Finset.ne_of_mem_erase hd)]
  rw [sizeOver, sizeOver, ← Finset.add_sum_erase K _ hc, ← Finset.add_sum_erase K _ hc, hrest]
  omega

/-- No program has a loop, and `K` has every context with a program left and those of the two handlers. -/
structure LoopFreeWithin (K : Finset Context) (x : Context → CtxState) : Prop where
  loopFree : ∀ c, (x c).prog.loopFree = true
  running  : ∀ c, (x c).prog ≠ .done → c ∈ K
  rx       : .rx ∈ K
  tx       : .tx ∈ K

theorem LoopFreeWithin.write {K : Finset Context} {c : Context} {x y : Context → CtxState} (h : LoopFreeWithin K x)
    (hc : c ∈ K) (hne : ∀ d, d ≠ c → y d = x d) (hl : (y c).prog.loopFree = true) : LoopFreeWithin K y := by
  refine ⟨fun d => ?_, fun d hd => ?_, h.rx, h.tx⟩ <;> by_cases hdc : d = c
  · rw [hdc]; exact hl
  · rw [hne d hdc]; exact h.loopFree d
  · rw [hdc]; exact hc
  · rw [hne d hdc] at hd; exact h.running d hd

/-- A step of a context with a program left uses some of it up. -/
theorem LoopFreeWithin.runContext {K : Finset Context} {c : Context} {s t : State} (h : LoopFreeWithin K s.ctx)
    (hp : (s.ctx c).prog ≠ .done) (ht : runContext c s = .next t) :
    LoopFreeWithin K t.ctx ∧ sizeOver K t.ctx < sizeOver K s.ctx := by
  have hc : c ∈ K := h.running c hp
  have hne : ∀ d, d ≠ c → t.ctx d = s.ctx d := fun d hd => runContext_ctx_ne hd ht
  refine ⟨h.write hc hne (loopFree_kept.runContext ht (h.loopFree c)), ?_⟩
  have hsum := sizeOver_write hc hne
  have hlt := sizeProg_runContext_lt (h.loopFree c) hp ht
  omega

/-- A bound on the steps to come: the programs' sizes, and for each move of the schedule the size of a handler, which
it may start. -/
def stepsLeft (K : Finset Context) (s : State) : Nat :=
  sizeProg txHandler * s.schedule.length + sizeOver K s.ctx

/-- A move that is used up pays for the handler it starts. -/
theorem stepsLeft_lt_of_move {K : Finset Context} {s t : State} {m : Move} (hs : s.schedule = m :: t.schedule)
    (h : sizeOver K t.ctx < sizeOver K s.ctx + sizeProg txHandler) : stepsLeft K t < stepsLeft K s := by
  rw [stepsLeft, stepsLeft, hs, List.length_cons, Nat.mul_succ]
  omega

/-- The handler of a byte received is smaller than the other one. -/
theorem LoopFreeWithin.queue {K : Finset Context} {s : State} (h : LoopFreeWithin K s.ctx) (b : Byte) :
    LoopFreeWithin K (s.queue .rx (rxHandler b)).ctx ∧
      sizeOver K (s.queue .rx (rxHandler b)).ctx < sizeOver K s.ctx + sizeProg txHandler := by
  have hprog : ((s.queue .rx (rxHandler b)).ctx .rx).prog = appendProg (s.ctx .rx).prog (rxHandler b) := by
    rw [prog_queue, if_pos rfl]
  have hne : ∀ d, d ≠ .rx → (s.queue .rx (rxHandler b)).ctx d = s.ctx d := (queue_local s .rx (rxHandler b)).ctx_ne
  refine ⟨h.write h.rx hne (by rw [hprog, loopFree_append, h.loopFree]; rfl), ?_⟩
  have hsum := sizeOver_write h.rx hne
  have happ := sizeProg_append (s.ctx .rx).prog (rxHandler b)
  have hrx : sizeProg (rxHandler b) < sizeProg txHandler := by show 7 < 8; decide
  rw [hprog] at hsum
  omega

/-- The transmit-ready handler with its first step taken. -/
theorem LoopFreeWithin.startHandler {K : Finset Context} {s t : State} (h : LoopFreeWithin K s.ctx)
    (hp : (s.ctx .tx).prog = .done) (ht : Machine.runContext .tx (s.setProg .tx txHandler) = .next t) :
    LoopFreeWithin K t.ctx ∧ sizeOver K t.ctx < sizeOver K s.ctx + sizeProg txHandler := by
  have hprog : ((s.setProg .tx txHandler).ctx .tx).prog = txHandler := by rw [ctx_setProg_same]
  have hne : ∀ d, d ≠ .tx → (s.setProg .tx txHandler).ctx d = s.ctx d := fun d => ctx_setProg_ne s _
  have hK := h.write h.tx hne (by rw [hprog]; rfl)
  obtain ⟨hKt, hlt⟩ := hK.runContext (by rw [hprog]; exact Prog.noConfusion) ht
  have hsum := sizeOver_write h.tx hne
  rw [hprog, hp] at hsum
  exact ⟨hKt, by omega⟩

/-- Every step of a run that has not ended makes the bound smaller. -/
theorem LoopFreeWithin.step {K : Finset Context} {s t : State} (h : LoopFreeWithin K s.ctx)
    (he : s.ended = false) (ht : step s = .next t) : LoopFreeWithin K t.ctx ∧ stepsLeft K t < stepsLeft K s := by
  cases hs : s.schedule with
  | nil =>
    obtain ⟨c, hp, hstep⟩ := step_free he hs
    have hrun : Machine.runContext c s.countPick = .next t := hstep.symm.trans ht
    obtain ⟨hK, hlt⟩ := h.runContext (s := s.countPick) hp hrun
    refine ⟨hK, ?_⟩
    rw [stepsLeft, (runContext_frame hrun).1]
    exact Nat.add_lt_add_left hlt _
  | cons m rest =>
    have hsame : sizeOver K s.ctx < sizeOver K s.ctx + sizeProg txHandler := Nat.lt_add_of_pos_right (sizeProg_pos _)
    cases m with
    | run c =>
      have hrun : Machine.runContext c (s.setSchedule rest) = .next t := (step_move he hs).symm.trans ht
      have hsched : t.schedule = rest := (runContext_frame hrun).1
      by_cases hp : (s.ctx c).prog = .done
      · rw [runContext_done (s := s.setSchedule rest) hp] at hrun
        cases hrun
        exact ⟨h, stepsLeft_lt_of_move hs hsame⟩
      · obtain ⟨hK, hlt⟩ := h.runContext (s := s.setSchedule rest) hp hrun
        exact ⟨hK, stepsLeft_lt_of_move (hsched ▸ hs) (hlt.trans hsame)⟩
    | byteReceived b =>
      rw [step_move he hs] at ht
      cases ht
      obtain ⟨hK, hlt⟩ := LoopFreeWithin.queue (s := s.setSchedule rest) h b
      exact ⟨hK, stepsLeft_lt_of_move hs hlt⟩
    | transmitReady =>
      cases hr : s.txReady with
      | false =>
        rw [step_not_ready hs hr] at ht
        cases ht
        exact ⟨h, stepsLeft_lt_of_move hs hsame⟩
      | true =>
        rw [step_ready hs hr] at ht
        have hsched : t.schedule = rest := (runContext_frame ht).1
        obtain ⟨hK, hlt⟩ := LoopFreeWithin.startHandler (s := s.setSchedule rest) h ((txReady_iff s).mp hr).2 ht
        exact ⟨hK, stepsLeft_lt_of_move (hsched ▸ hs) hlt⟩

/-- Some number of steps leads to the end of the run or to a stop of an agent's program. -/
def State.ComesToStop (s : State) : Prop :=
  ∃ n, (∃ t, runFor n s = .next t ∧ t.ended = true) ∨ runFor n s = .fault .unboundName ∨
    runFor n s = .refused .roleNotHeld

theorem comesToStop_of_step {s t : State} (h : step s = .next t) (ht : t.ComesToStop) : s.ComesToStop := by
  obtain ⟨n, hn⟩ := ht
  exact ⟨n + 1, by simpa only [runFor, h] using hn⟩

/-- By induction on the bound: the run has ended, its next step is a stop, or that step leaves a smaller bound. -/
theorem LoopFreeWithin.comesToStop {K : Finset Context} {s : State} (h : LoopFreeWithin K s.ctx) :
    s.ComesToStop := by
  induction hn : stepsLeft K s using Nat.strong_induction_on generalizing s with
  | h n ih =>
    cases he : s.ended with
    | true => exact ⟨0, .inl ⟨s, rfl, he⟩⟩
    | false =>
      cases hstep : Machine.step s with
      | next t =>
        obtain ⟨hK, hlt⟩ := h.step he hstep
        exact comesToStop_of_step hstep (ih _ (hn ▸ hlt) hK rfl)
      | fault f =>
        obtain ⟨rfl, _⟩ := (onlyUnboundReadsFault s f).mp hstep
        exact ⟨1, .inr (.inl (by rw [runFor, hstep]))⟩
      | refused r =>
        obtain ⟨rfl, _⟩ := sharedRolesAreRefused.2 s r hstep
        exact ⟨1, .inr (.inr (by rw [runFor, hstep]))⟩

/-- Settles O56: the steps left are bounded over the contexts that run now and those of the two handlers. -/
theorem loopFreeRunsEnd : Obligations.LoopFreeRunsEnd := by
  intro s hl
  have h : LoopFreeWithin (insert .rx (insert .tx s.running.toFinset)) s.ctx := by
    refine ⟨hl, fun c hc => ?_, by simp, by simp⟩
    simp [mem_running, hc]
  exact h.comesToStop

end Sys2Proof.Machine
end
